-- ==== Sys2Proof/Config.lean ====
section
/-! DEFINITION. The parameters an implementation fixes (spec 00 section 3) with the spec's defaults, and the
one value the spec leaves open. Everything below takes the three parameters as arguments; in these files they
are named W (WORD_BITS), M (MEM_SIZE) and N (NGPR). -/

namespace Sys2Proof

/-- The legal values of the parameters (R5, R6, R7). -/
structure Config.Legal (W M N : Nat) : Prop where
  /-- WORD_BITS: W >= 8 (R5). -/
  wordBits : 8 ≤ W
  /-- MEM_SIZE: at least one cell (R6). -/
  memSize_pos : 1 ≤ M
  /-- MEM_SIZE: every valid address is a non-negative Word (R6). -/
  memSize_le : M ≤ 2 ^ (W - 1)
  /-- NGPR: at least two general registers (R7). -/
  ngpr : 2 ≤ N

/-- NREG = NGPR + 3 (R7): the general registers, then PC, IR, FLAGS. -/
def nregOf (N : Nat) : Nat := N + 3

/-- IDX_PC (R7). -/
def idxPCOf (N : Nat) : Nat := N

/-- IDX_IR (R7). -/
def idxIROf (N : Nat) : Nat := N + 1

/-- IDX_FLAGS (R7). -/
def idxFLAGSOf (N : Nat) : Nat := N + 2

/-! ### The default configuration (log 1)

The host's interface asks for one machine; it is the one with the spec's defaults. -/

/-- WORD_BITS (R5), default 32. -/
def Config.wordBits : Nat := 32

/-- MEM_SIZE (R6), default 128. -/
def Config.memSize : Nat := 128

/-- NGPR (R7), default 4. -/
def Config.ngpr : Nat := 4

/-- NREG of the default configuration. -/
def Config.nreg : Nat := nregOf Config.ngpr

/-- IDX_PC of the default configuration. -/
def Config.idxPC : Nat := idxPCOf Config.ngpr

/-- IDX_IR of the default configuration. -/
def Config.idxIR : Nat := idxIROf Config.ngpr

/-- IDX_FLAGS of the default configuration. -/
def Config.idxFLAGS : Nat := idxFLAGSOf Config.ngpr

/-- FREE VALUE (log 8). `InvalidMicroOp` reports "the control word" (R312), also when UPC lies beyond
the ROM, where there is none. What FAULT_INFO then shows is open: it has no body here, so no proof can
see it. No reachable state uses it (R318). -/
opaque Config.controlWordBeyondRom : (W : Nat) → Nat → BitVec W

end Sys2Proof
end

