-- ==== Sys2Proof/Word.lean ====
section
/-! DEFINITION. The Word (R20): a fixed-width two's complement integer. A Word of W bits is `BitVec W`, read as
a signed integer by `BitVec.toInt`; its `+` and `-` are `wrap` of the mathematical sum and difference (R9). -/

namespace Sys2Proof

/-- A Word of the default configuration (R5): W = 32, the value of `Config.wordBits`, written as a numeral so
that 32-bit arithmetic sees it (`wordBits_eq` in Laws/State.lean ties the two; log 1). The components and the
meanings take W as an argument and do not use this type. -/
abbrev Word := BitVec 32

/-- A ROM address, 9 bits (R290). -/
abbrev MicroAddr := BitVec 9

/-- A control word of the microprogram ROM, 5 bits (R290). -/
abbrev ControlWord := BitVec 5

end Sys2Proof
end

