-- ==== Sys2Proof/Syntax.lean ====
section
/-! DEFINITION. The instructions: one constructor for each row of spec/opcode_table.json. -/

namespace Sys2Proof

/-- The opcodes of the table: sixteen registered ones and the seven reserved ones of R126. -/
inductive Opcode where
  | addRegReg | addMemReg | addRegMem | addImmReg
  | subRegReg | subMemReg | subRegMem | subImmReg
  | moveMemReg | moveRegMem | moveRegReg | moveImmReg
  | incReg | jmp | jn | jz
  | reserved8 | reserved9 | reserved10 | jeq | jneq | jgt | jlw
  deriving DecidableEq, Repr

/-- The three formats (R121 and the pseudo-format F0 of the reserved rows): how many operand words
follow the opcode word. -/
inductive Format where
  | f0 | f1 | f2
  deriving DecidableEq, Repr

/-- A `reg` operand (R123): a register ID, the whole Word, an index into the register file. -/
abbrev RegId := Word

/-- A `mem` operand (R123): a Memory address, the whole Word. -/
abbrev MemAddr := Word

/-- An `imm` operand (R123): the value itself. -/
abbrev Imm := Word

/-- An `addr` operand (R123): the absolute jump target. -/
abbrev Target := Word

/-- An instruction with its operand words in Memory order (R120, R125), of the default configuration: one
constructor for each row. Every operand is a whole Word, legal or not (R121, R124): an illegal one runs and
faults (R130). For other parameters an instruction is its `Opcode` and its operand Words. -/
inductive Instr where
  | addRegReg (a b : RegId)
  | addMemReg (a : MemAddr) (b : RegId)
  | addRegMem (a : RegId) (b : MemAddr)
  | addImmReg (a : Imm) (b : RegId)
  | subRegReg (a b : RegId)
  | subMemReg (a : MemAddr) (b : RegId)
  | subRegMem (a : RegId) (b : MemAddr)
  | subImmReg (a : Imm) (b : RegId)
  | moveMemReg (a : MemAddr) (b : RegId)
  | moveRegMem (a : RegId) (b : MemAddr)
  | moveRegReg (a b : RegId)
  | moveImmReg (a : Imm) (b : RegId)
  | incReg (a : RegId)
  | jmp (t : Target)
  | jn (t : Target)
  | jz (t : Target)
  | reserved8
  | reserved9
  | reserved10
  | jeq
  | jneq
  | jgt
  | jlw
  deriving DecidableEq, Repr

/-- The opcode of an instruction. -/
def Instr.opcode : Instr → Opcode
  | .addRegReg _ _ => .addRegReg
  | .addMemReg _ _ => .addMemReg
  | .addRegMem _ _ => .addRegMem
  | .addImmReg _ _ => .addImmReg
  | .subRegReg _ _ => .subRegReg
  | .subMemReg _ _ => .subMemReg
  | .subRegMem _ _ => .subRegMem
  | .subImmReg _ _ => .subImmReg
  | .moveMemReg _ _ => .moveMemReg
  | .moveRegMem _ _ => .moveRegMem
  | .moveRegReg _ _ => .moveRegReg
  | .moveImmReg _ _ => .moveImmReg
  | .incReg _ => .incReg
  | .jmp _ => .jmp
  | .jn _ => .jn
  | .jz _ => .jz
  | .reserved8 => .reserved8
  | .reserved9 => .reserved9
  | .reserved10 => .reserved10
  | .jeq => .jeq
  | .jneq => .jneq
  | .jgt => .jgt
  | .jlw => .jlw

/-- The first operand Word of an instruction; 0 where its format has none (R121). -/
def Instr.first : Instr → Word
  | .addRegReg a _ => a
  | .addMemReg a _ => a
  | .addRegMem a _ => a
  | .addImmReg a _ => a
  | .subRegReg a _ => a
  | .subMemReg a _ => a
  | .subRegMem a _ => a
  | .subImmReg a _ => a
  | .moveMemReg a _ => a
  | .moveRegMem a _ => a
  | .moveRegReg a _ => a
  | .moveImmReg a _ => a
  | .incReg a => a
  | .jmp a => a
  | .jn a => a
  | .jz a => a
  | .reserved8 => 0
  | .reserved9 => 0
  | .reserved10 => 0
  | .jeq => 0
  | .jneq => 0
  | .jgt => 0
  | .jlw => 0

/-- The second operand Word of an instruction; 0 where its format has none (R121). -/
def Instr.second : Instr → Word
  | .addRegReg _ b => b
  | .addMemReg _ b => b
  | .addRegMem _ b => b
  | .addImmReg _ b => b
  | .subRegReg _ b => b
  | .subMemReg _ b => b
  | .subRegMem _ b => b
  | .subImmReg _ b => b
  | .moveMemReg _ b => b
  | .moveRegMem _ b => b
  | .moveRegReg _ b => b
  | .moveImmReg _ b => b
  | .incReg _ => 0
  | .jmp _ => 0
  | .jn _ => 0
  | .jz _ => 0
  | .reserved8 => 0
  | .reserved9 => 0
  | .reserved10 => 0
  | .jeq => 0
  | .jneq => 0
  | .jgt => 0
  | .jlw => 0

end Sys2Proof
end

