-- ==== Sys2Proof/Decode.lean ====
section
/-! DEFINITION. From Words to instructions and back (spec 30): the opcode map, the decoder, the
encoder, and the host's `decodeTableWord`. -/

namespace Sys2Proof

/-- The opcode of each row (R125, R126). -/
def Opcode.code : Opcode → Nat
  | .addRegReg => 0
  | .addMemReg => 1
  | .addRegMem => 2
  | .addImmReg => 3
  | .subRegReg => 4
  | .subMemReg => 5
  | .subRegMem => 6
  | .subImmReg => 7
  | .reserved8 => 8
  | .reserved9 => 9
  | .reserved10 => 10
  | .moveMemReg => 11
  | .moveRegMem => 12
  | .moveRegReg => 13
  | .moveImmReg => 14
  | .incReg => 15
  | .jmp => 16
  | .jn => 17
  | .jz => 18
  | .jeq => 19
  | .jneq => 20
  | .jgt => 21
  | .jlw => 22

/-- The opcode word of each row, W bits wide (R122). -/
def Opcode.word {W : Nat} (o : Opcode) : BitVec W := BitVec.ofNat W o.code

/-- The rows of the opcode table in opcode order. -/
def Opcode.all : List Opcode :=
  [.addRegReg, .addMemReg, .addRegMem, .addImmReg, .subRegReg, .subMemReg, .subRegMem, .subImmReg,
   .reserved8, .reserved9, .reserved10, .moveMemReg, .moveRegMem, .moveRegReg, .moveImmReg, .incReg,
   .jmp, .jn, .jz, .jeq, .jneq, .jgt, .jlw]

/-- The row of an opcode number. -/
def Opcode.ofCode (n : Nat) : Option Opcode :=
  Opcode.all.find? fun o => o.code == n

/-- The lookup of an opcode word: the whole Word is compared, no bit is ignored (R122). -/
def opcodeOf {W : Nat} (w : BitVec W) : Option Opcode := Opcode.ofCode w.toNat

/-- The format column of the table (R121, R125). -/
def Opcode.format : Opcode → Format
  | .addRegReg => .f2
  | .addMemReg => .f2
  | .addRegMem => .f2
  | .addImmReg => .f2
  | .subRegReg => .f2
  | .subMemReg => .f2
  | .subRegMem => .f2
  | .subImmReg => .f2
  | .moveMemReg => .f2
  | .moveRegMem => .f2
  | .moveRegReg => .f2
  | .moveImmReg => .f2
  | .incReg => .f1
  | .jmp => .f1
  | .jn => .f1
  | .jz => .f1
  | .reserved8 => .f0
  | .reserved9 => .f0
  | .reserved10 => .f0
  | .jeq => .f0
  | .jneq => .f0
  | .jgt => .f0
  | .jlw => .f0

/-- The operand count k of a format (R120). -/
def Format.operands : Format → Nat
  | .f0 => 0
  | .f1 => 1
  | .f2 => 2

/-- The instruction of an opcode and its operand words; a word the format has no place for is unused. -/
def instrOf (o : Opcode) (a b : Word) : Instr :=
  match o with
  | .addRegReg => .addRegReg a b
  | .addMemReg => .addMemReg a b
  | .addRegMem => .addRegMem a b
  | .addImmReg => .addImmReg a b
  | .subRegReg => .subRegReg a b
  | .subMemReg => .subMemReg a b
  | .subRegMem => .subRegMem a b
  | .subImmReg => .subImmReg a b
  | .moveMemReg => .moveMemReg a b
  | .moveRegMem => .moveRegMem a b
  | .moveRegReg => .moveRegReg a b
  | .moveImmReg => .moveImmReg a b
  | .incReg => .incReg a
  | .jmp => .jmp a
  | .jn => .jn a
  | .jz => .jz a
  | .reserved8 => .reserved8
  | .reserved9 => .reserved9
  | .reserved10 => .reserved10
  | .jeq => .jeq
  | .jneq => .jneq
  | .jgt => .jgt
  | .jlw => .jlw

/-- Why a list of Words is no instruction of the table. -/
inductive DecodeError (W : Nat) where
  /-- There is no Word at all. -/
  | empty
  /-- The opcode word is in no row of the table: the machine halts on it (R127). -/
  | unregistered (w : BitVec W)
  /-- Operand words are missing: in the machine their fetch faults (R314). -/
  | truncated (o : Opcode)
  deriving DecidableEq, Repr

/-- The row and the operand Words at the head of a list of Words of any width, and the Words after them (R120,
R129); an operand Word the format has no place for is 0. -/
def decodeWords {W : Nat} : List (BitVec W) → Except (DecodeError W) (Opcode × BitVec W × BitVec W × List (BitVec W))
  | [] => .error .empty
  | w :: rest =>
    match opcodeOf w with
    | none => .error (.unregistered w)
    | some o =>
      match o.format, rest with
      | .f0, rest => .ok (o, 0, 0, rest)
      | .f1, a :: rest => .ok (o, a, 0, rest)
      | .f2, a :: b :: rest => .ok (o, a, b, rest)
      | .f1, [] => .error (.truncated o)
      | .f2, [] => .error (.truncated o)
      | .f2, [_] => .error (.truncated o)

/-- The instruction at the head of a list of Words of the default configuration, and the Words after it. -/
def decode (ws : List Word) : Except (DecodeError 32) (Instr × List Word) :=
  match decodeWords ws with
  | .ok (o, a, b, rest) => .ok (instrOf o a b, rest)
  | .error e => .error e

/-- The Words of a row with its operand Words, of any width (R120, R121). -/
def encodeWords {W : Nat} (o : Opcode) (a b : BitVec W) : List (BitVec W) :=
  match o.format with
  | .f0 => [o.word]
  | .f1 => [o.word, a]
  | .f2 => [o.word, a, b]

/-- The Words of an instruction: its opcode word, then its operand words as they stand (R120, R124). -/
def encode : Instr → List Word
  | .addRegReg a b => [0, a, b]
  | .addMemReg a b => [1, a, b]
  | .addRegMem a b => [2, a, b]
  | .addImmReg a b => [3, a, b]
  | .subRegReg a b => [4, a, b]
  | .subMemReg a b => [5, a, b]
  | .subRegMem a b => [6, a, b]
  | .subImmReg a b => [7, a, b]
  | .moveMemReg a b => [11, a, b]
  | .moveRegMem a b => [12, a, b]
  | .moveRegReg a b => [13, a, b]
  | .moveImmReg a b => [14, a, b]
  | .incReg a => [15, a]
  | .jmp t => [16, t]
  | .jn t => [17, t]
  | .jz t => [18, t]
  | .reserved8 => [8]
  | .reserved9 => [9]
  | .reserved10 => [10]
  | .jeq => [19]
  | .jneq => [20]
  | .jgt => [21]
  | .jlw => [22]

/-- The three Words (the longest instruction) of a table word: bit 0 of `w` is the least significant
bit of the first Word; the bits from `nbits` up are 0. -/
def tableWords (nbits w : Nat) : List Word :=
  let v := w % 2 ^ nbits
  [BitVec.ofNat 32 v, BitVec.ofNat 32 (v / 2 ^ 32), BitVec.ofNat 32 (v / 2 ^ 64)]

/-- The instruction the decoder reads from a table word. -/
def decodeTableWord (nbits w : Nat) : Option Instr :=
  match decode (tableWords nbits w) with
  | .ok (i, _) => some i
  | .error _ => none

end Sys2Proof
end

