-- ==== Sys2Proof/Machine/Flags.lean ====
section
/-! DEFINITION. The bits of the FLAGS Word (R27, R35, R183, R184). -/

namespace Sys2Proof.Machine

variable {W M N : Nat}

/-- The width of the bit-addressed part of FLAGS (R27): `getBit` and `setBit` accept 0 and 1. -/
def flagWidth : Nat := 2

/-- The bit index of ZERO (R35). -/
def flagZERO : Nat := 0

/-- The bit index of NEGATIVE (R35). -/
def flagNEGATIVE : Nat := 1

/-- The value of bit `i` of a Word, as the index it makes (R27, R89). -/
def wordBit (v : BitVec W) (i : Nat) : Nat :=
  (v.getLsbD i).toNat

/-- A Word with bit `i` set to `b` and every other bit unchanged (R27). -/
def withBit (v : BitVec W) (i : Nat) (b : Bool) : BitVec W :=
  if b then v ||| BitVec.twoPow W i else v &&& ~~~BitVec.twoPow W i

/-- `flags[0] <- 0; flags[1] <- 0`; the other bits keep their value (R183). -/
def flagsClear (f : BitVec W) : BitVec W :=
  withBit (withBit f flagZERO false) flagNEGATIVE false

/-- `flags[0] <- (r == 0); flags[1] <- (r < 0)`; the other bits keep their value (R184). -/
def flagsUpdate (f r : BitVec W) : BitVec W :=
  withBit (withBit f flagZERO (r == 0)) flagNEGATIVE (decide (r.toInt < 0))

end Sys2Proof.Machine
end

