-- ==== Sys2Proof/Machine/Memory.lean ====
section
/-! DEFINITION. The Memory array (R80) as plain data: the cells that differ from the reset contents,
by rising address. -/

namespace Sys2Proof.Machine

variable {W : Nat}

/-- Memory: (address, Word) pairs. The smallest addressable unit is the Word, there are no bytes
(R80, R93); log 3. -/
abbrev Memory (W : Nat) := List (Nat × BitVec W)

/-- What a cell that is not listed reads as: 0, the reset contents of every cell (R55, R96). -/
def Memory.unlisted : BitVec W := 0

/-- `cells[a]`. -/
def Memory.read : Memory W → Nat → BitVec W
  | [], _ => Memory.unlisted
  | (b, u) :: m, a => if a = b then u else Memory.read m a

/-- `cells[a] <- v`, keeping the canonical form: writing the unlisted value removes the entry. -/
def Memory.write : Memory W → Nat → BitVec W → Memory W
  | [], a, v => if v = Memory.unlisted then [] else [(a, v)]
  | (b, u) :: m, a, v =>
    if a < b then (if v = Memory.unlisted then (b, u) :: m else (a, v) :: (b, u) :: m)
    else if a = b then (if v = Memory.unlisted then m else (a, v) :: m)
    else (b, u) :: Memory.write m a v

/-- The canonical form: addresses strictly rising, no entry equal to the unlisted value, every address
one of 0..MEM_SIZE-1 (R80), where M is MEM_SIZE. -/
abbrev Memory.wf (m : Memory W) (M : Nat) : Prop :=
  m.Pairwise (fun p q => p.1 < q.1) ∧ ∀ p ∈ m, p.2 ≠ Memory.unlisted ∧ p.1 < M

end Sys2Proof.Machine
end

