-- ==== Sys2Proof/Machine/State.lean ====
section
/-! DEFINITION. The state of the machine: the table of spec 10 section 1, field by field, and its
reset value. -/

namespace Sys2Proof.Machine

variable {W M N : Nat}

/-- CU_STATE (R50, R150). -/
inductive CuState where
  | fetch | decode | execute | halt | fault
  deriving DecidableEq, Repr

/-- FAULT_CAUSE (R312). `invalidSlot`, `invalidBit`, `noRequest` and `invalidMicroOp` cannot be raised
by this ROM (R316, R317, R318). -/
inductive FaultCause where
  | none | outOfBoundsMem | outOfBoundsReg | invalidSlot | invalidBit | noRequest | invalidMicroOp
  deriving DecidableEq, Repr

/-- Every piece of state the spec gives the machine (10 section 1, R50, R52), for Words of W bits, M cells of
Memory and N general registers (R5, R6, R7). -/
@[ext]
structure State.Of (W M N : Nat) where
  /-- R0 to R(NGPR-1), file indices 0 to NGPR-1 (R28). -/
  gpr : Vector (BitVec W) N
  /-- PC (R30). -/
  pc : BitVec W
  /-- IR (R33, R34). -/
  ir : BitVec W
  /-- FLAGS (R35): bit 0 ZERO, bit 1 NEGATIVE, the other bits plain storage. -/
  flags : BitVec W
  /-- The Memory array `cells` (R80). -/
  mem : Memory W
  /-- MAR, the memory address latch (R82). -/
  mar : BitVec W
  /-- MAR_VALID: a request is pending (R82). -/
  marValid : Bool
  /-- SM[0], the fallthrough (R87, R90). -/
  sm0 : BitVec W
  /-- SM[1], the branch target (R87, R90). -/
  sm1 : BitVec W
  /-- EXT, the external bus (R21, R23). -/
  extBus : BitVec W
  /-- INT, the internal bus (R21, R23). -/
  intBus : BitVec W
  /-- S0, arithmetic-unit slot 0 (R41). -/
  s0 : BitVec W
  /-- S1, arithmetic-unit slot 1 (R41). -/
  s1 : BitVec W
  /-- SEL, the register-selector latch, never negative (R39). -/
  sel : BitVec W
  /-- UPC, the address of the next micro-operation (R50). -/
  upc : MicroAddr
  /-- CU_STATE (R50). -/
  cuState : CuState
  /-- FAULT_CAUSE (R50). -/
  faultCause : FaultCause
  /-- FAULT_INFO (R50). -/
  faultInfo : BitVec W
  deriving DecidableEq, Repr

/-- The state of the machine with the default parameters (log 1): 32-bit Words, 128 cells, 4 general registers. -/
abbrev State := State.Of 32 Config.memSize Config.ngpr

/-- No step ends in a fault of the host's interface, so there is no constructor: the spec describes
what every fatal error does to the state (R313), and the step that raises one answers the next state,
with CU_STATE = FAULT (log 6). Nobody raises one: safe. -/
inductive Fault
  deriving DecidableEq, Repr

/-- Why a step has no meaning. -/
inductive Refusal where
  /-- An instruction without a meaning yet; raised by `exec`'s refused arms alone, of which there is
  none. Safe: the machine stops where the hardware goes on. -/
  | notModelled (mnemonic : String)
  deriving DecidableEq, Repr

/-- The machine right after reset (R55, R341): everything 0, the sequencer at UPC = 0 in FETCH.
DESIGN CHOICE (log 2): `extBus` and `intBus`, which R55 leaves unspecified, are 0. Unsafe. -/
def State.Of.reset : State.Of W M N where
  gpr := Vector.replicate N 0
  pc := 0
  ir := 0
  flags := 0
  mem := []
  mar := 0
  marValid := false
  sm0 := 0
  sm1 := 0
  extBus := 0
  intBus := 0
  s0 := 0
  s1 := 0
  sel := 0
  upc := 0
  cuState := .fetch
  faultCause := .none
  faultInfo := 0

/-- The default machine right after reset. -/
def State.reset : State := State.Of.reset

end Sys2Proof.Machine
end

