-- ==== Sys2Proof/WellFormed.lean ====
section
/-! DEFINITION. Legal operand values (R130). An ill-formed instruction is still an instruction: it
decodes, runs and raises the fatal error of its illegal operand. -/

namespace Sys2Proof

/-- A legal register ID of a file with N general registers: `0 <= id < NREG`, on the signed Word (R130). -/
def legalReg {W : Nat} (N : Nat) (id : BitVec W) : Bool :=
  decide (0 ≤ id.toInt) && decide (id.toInt < nregOf N)

/-- A legal address of a Memory of M cells: `0 <= addr < MEM_SIZE`, on the signed Word (R85, R130). -/
def legalMem {W : Nat} (M : Nat) (a : BitVec W) : Bool :=
  decide (0 ≤ a.toInt) && decide (a.toInt < M)

/-- Every operand of the instruction is legal (R130). An `imm` operand has no illegal value, and an
`addr` operand is not checked. -/
def Instr.wellFormed : Instr → Bool
  | .addRegReg a b => legalReg Config.ngpr a && legalReg Config.ngpr b
  | .addMemReg a b => legalMem Config.memSize a && legalReg Config.ngpr b
  | .addRegMem a b => legalReg Config.ngpr a && legalMem Config.memSize b
  | .addImmReg _ b => legalReg Config.ngpr b
  | .subRegReg a b => legalReg Config.ngpr a && legalReg Config.ngpr b
  | .subMemReg a b => legalMem Config.memSize a && legalReg Config.ngpr b
  | .subRegMem a b => legalReg Config.ngpr a && legalMem Config.memSize b
  | .subImmReg _ b => legalReg Config.ngpr b
  | .moveMemReg a b => legalMem Config.memSize a && legalReg Config.ngpr b
  | .moveRegMem a b => legalReg Config.ngpr a && legalMem Config.memSize b
  | .moveRegReg a b => legalReg Config.ngpr a && legalReg Config.ngpr b
  | .moveImmReg _ b => legalReg Config.ngpr b
  | .incReg a => legalReg Config.ngpr a
  | .jmp _ => true
  | .jn _ => true
  | .jz _ => true
  | .reserved8 => true
  | .reserved9 => true
  | .reserved10 => true
  | .jeq => true
  | .jneq => true
  | .jgt => true
  | .jlw => true

end Sys2Proof
end

