-- ==== Sys2Proof/Machine/Ops.lean ====
section
/-! DEFINITION. The named operations over the state: plain updates of one element, the sequencer's
moves, taking a fatal error, reset (the only return from one), and the leaf operations of every
component (spec 10 and 20). -/

namespace Sys2Proof.Machine

variable {W M N : Nat}

/-! ### Updates of one element -/

/-- EXT put (R21). -/
def State.Of.putExt (s : State.Of W M N) (v : BitVec W) : State.Of W M N := { s with extBus := v }

/-- INT put (R21). -/
def State.Of.putInt (s : State.Of W M N) (v : BitVec W) : State.Of W M N := { s with intBus := v }

/-- PC. No check is made on the value (R32). -/
def State.Of.setPc (s : State.Of W M N) (v : BitVec W) : State.Of W M N := { s with pc := v }

/-- IR. -/
def State.Of.setIr (s : State.Of W M N) (v : BitVec W) : State.Of W M N := { s with ir := v }

/-- The whole FLAGS Word. -/
def State.Of.setFlags (s : State.Of W M N) (v : BitVec W) : State.Of W M N := { s with flags := v }

/-- The general registers. -/
def State.Of.setGpr (s : State.Of W M N) (g : Vector (BitVec W) N) : State.Of W M N := { s with gpr := g }

/-- The Memory array. -/
def State.Of.setMem (s : State.Of W M N) (m : Memory W) : State.Of W M N := { s with mem := m }

/-- MAR and MAR_VALID: a request is latched (R82). -/
def State.Of.latchMar (s : State.Of W M N) (a : BitVec W) : State.Of W M N := { s with mar := a, marValid := true }

/-- MAR_VALID <- 0: the request is consumed, MAR keeps its value (R83, R86). -/
def State.Of.consumeMar (s : State.Of W M N) : State.Of W M N := { s with marValid := false }

/-- SM[0]. -/
def State.Of.setSm0 (s : State.Of W M N) (v : BitVec W) : State.Of W M N := { s with sm0 := v }

/-- SM[1]. -/
def State.Of.setSm1 (s : State.Of W M N) (v : BitVec W) : State.Of W M N := { s with sm1 := v }

/-- S0. -/
def State.Of.setS0 (s : State.Of W M N) (v : BitVec W) : State.Of W M N := { s with s0 := v }

/-- S1. -/
def State.Of.setS1 (s : State.Of W M N) (v : BitVec W) : State.Of W M N := { s with s1 := v }

/-- SEL. -/
def State.Of.setSel (s : State.Of W M N) (v : BitVec W) : State.Of W M N := { s with sel := v }

/-! ### The sequencer -/

/-- CU_STATE while the machine runs (R50, R150): FETCH for UPC 0 to 3, DECODE for 4, else EXECUTE. -/
def phaseOf (u : MicroAddr) : CuState :=
  if u.toNat < 4 then .fetch else if u.toNat = 4 then .decode else .execute

/-- UPC moves, and CU_STATE with it (R150, R152). -/
def State.Of.seqTo (s : State.Of W M N) (u : MicroAddr) : State.Of W M N :=
  { s with upc := u, cuState := phaseOf u }

/-- HALT or FAULT: no step is taken (R151, R323). -/
def State.Of.stopped (s : State.Of W M N) : Bool :=
  s.cuState == .halt || s.cuState == .fault

/-- `halt()` (R311): CU_STATE <- HALT and nothing else. -/
def State.Of.halt (s : State.Of W M N) : State.Of W M N := { s with cuState := .halt }

/-- Taking a fatal error (R313): CU_STATE, FAULT_CAUSE and FAULT_INFO, nothing else. UPC keeps the
address of the failing micro-operation, nothing is saved and nothing is undone. -/
def State.Of.raise (s : State.Of W M N) (c : FaultCause) (info : BitVec W) : State.Of W M N :=
  { s with cuState := .fault, faultCause := c, faultInfo := info }

/-- `rst` (R340): every element takes its reset value whatever the machine was doing. It is the only
way out of HALT and FAULT (R323): there is no return from a fatal error. -/
def State.Of.rst (_ : State.Of W M N) : State.Of W M N := State.Of.reset

/-! ### What a micro-operation answers -/

/-- The outcome of a micro-operation (R152): done, the state with its effect but UPC not yet moved;
goto, a new UPC (END, DECODE); halt; raise, a fatal error and no effect (R313). -/
inductive Effect (W M N : Nat) where
  | done (s : State.Of W M N)
  | goto (u : MicroAddr)
  | halt
  | raise (c : FaultCause) (info : BitVec W)
  deriving DecidableEq, Repr

/-- A second leaf operation of the same micro-operation, when the first is done. -/
def Effect.andThen (e : Effect W M N) (f : State.Of W M N → Effect W M N) : Effect W M N :=
  match e with
  | .done s => f s
  | .goto u => .goto u
  | .halt => .halt
  | .raise c info => .raise c info

/-- The state after a micro-operation that started in `s` (R152): UPC + 1 when it is done; UPC where
it says; UPC kept on a halt and on a fatal error. -/
def State.Of.apply (s : State.Of W M N) : Effect W M N → State.Of W M N
  | .done t => t.seqTo (t.upc + 1)
  | .goto u => s.seqTo u
  | .halt => s.halt
  | .raise c info => s.raise c info

/-! ### Register file and selector -/

/-- The register at index k of the file (R7, R38): the general registers, then PC, IR, FLAGS. The callers have
checked that the file has the index. -/
def State.Of.readFile (s : State.Of W M N) (k : Nat) : BitVec W :=
  if k < N then (s.gpr[k]?).getD 0
  else if k = idxPCOf N then s.pc
  else if k = idxIROf N then s.ir
  else if k = idxFLAGSOf N then s.flags
  else 0

/-- A store into the register at index k of the file (R7, R38): the whole Word, whichever register it is. The
callers have checked that the file has the index. -/
def State.Of.writeFile (s : State.Of W M N) (k : Nat) (v : BitVec W) : State.Of W M N :=
  if k < N then s.setGpr (s.gpr.setIfInBounds k v)
  else if k = idxPCOf N then s.setPc v
  else if k = idxIROf N then s.setIr v
  else if k = idxFLAGSOf N then s.setFlags v
  else s

/-- `x[i]` for a legal register ID, which is the index of its register (R38). -/
def State.Of.readReg (s : State.Of W M N) (id : BitVec W) : BitVec W := s.readFile id.toNat

/-- `x[i] <- v` for a legal register ID, which is the index of its register (R38). -/
def State.Of.writeReg (s : State.Of W M N) (id : BitVec W) (v : BitVec W) : State.Of W M N :=
  s.writeFile id.toNat v

/-- `select(EXT)` (R39, R168): only a negative index is caught here. -/
def select (s : State.Of W M N) : Effect W M N :=
  if s.extBus.toInt < 0 then .raise .outOfBoundsReg s.extBus else .done (s.setSel s.extBus)

/-- `readSelected` on the external port (R40, R164). -/
def readSelectedExternal (s : State.Of W M N) : Effect W M N :=
  if legalReg N s.sel then .done (s.putExt (s.readReg s.sel)) else .raise .outOfBoundsReg s.sel

/-- `storeSelected` on the external port (R40, R165). -/
def storeSelectedExternal (s : State.Of W M N) : Effect W M N :=
  if legalReg N s.sel then .done (s.writeReg s.sel s.extBus) else .raise .outOfBoundsReg s.sel

/-- `readSelected` on the internal port (R40, R166). -/
def readSelectedInternal (s : State.Of W M N) : Effect W M N :=
  if legalReg N s.sel then .done (s.putInt (s.readReg s.sel)) else .raise .outOfBoundsReg s.sel

/-- `storeSelected` on the internal port (R40, R167). -/
def storeSelectedInternal (s : State.Of W M N) : Effect W M N :=
  if legalReg N s.sel then .done (s.writeReg s.sel s.intBus) else .raise .outOfBoundsReg s.sel

/-! ### Arithmetic unit -/

/-- `load(slot)` (R42): slot 0 or 1 takes INT; any other index is `InvalidSlot`. -/
def aluLoad (slot : Nat) (s : State.Of W M N) : Effect W M N :=
  if slot = 0 then .done (s.setS0 s.intBus)
  else if slot = 1 then .done (s.setS1 s.intBus)
  else .raise .invalidSlot (BitVec.ofNat W slot)

/-- `emit(slot)` (R42): INT takes slot 0 or 1; any other index is `InvalidSlot`. -/
def aluEmit (slot : Nat) (s : State.Of W M N) : Effect W M N :=
  if slot = 0 then .done (s.putInt s.s0)
  else if slot = 1 then .done (s.putInt s.s1)
  else .raise .invalidSlot (BitVec.ofNat W slot)

/-- `add` (R43): `S1 <- wrap(S0 + S1)`. -/
def aluAdd (s : State.Of W M N) : Effect W M N := .done (s.setS1 (s.s0 + s.s1))

/-- `sub` (R44): `S1 <- wrap(S0 - S1)`; the minuend is slot 0. -/
def aluSub (s : State.Of W M N) : Effect W M N := .done (s.setS1 (s.s0 - s.s1))

/-- `inc` (R45): `S1 <- wrap(S1 + 1)`. -/
def aluInc (s : State.Of W M N) : Effect W M N := .done (s.setS1 (s.s1 + 1))

/-! ### The two-phase memory controller -/

/-- `request` (R82): the signed bounds check, then the latch. -/
def memRequest (s : State.Of W M N) : Effect W M N :=
  if legalMem M s.extBus then .done (s.latchMar s.extBus) else .raise .outOfBoundsMem s.extBus

/-- The data phase of a read whose cell holds `w` (R83): EXT <- w, the request is consumed. -/
def memDeliver (w : BitVec W) (s : State.Of W M N) : Effect W M N :=
  if s.marValid then .done (s.consumeMar.putExt w) else .raise .noRequest 0

/-- `read` (R83): EXT <- cells[MAR]. -/
def memRead (s : State.Of W M N) : Effect W M N :=
  memDeliver (s.mem.read s.mar.toNat) s

/-- `write` (R84): cells[MAR] <- EXT, the request is consumed. -/
def memWrite (s : State.Of W M N) : Effect W M N :=
  if s.marValid then .done (s.consumeMar.setMem (s.mem.write s.mar.toNat s.extBus)) else .raise .noRequest 0

/-! ### StatusMemory and the flag bits -/

/-- `storeAt(0, EXT)` (R88). -/
def smStore0 (s : State.Of W M N) : Effect W M N := .done (s.setSm0 s.extBus)

/-- `storeAt(1, EXT)` (R88). -/
def smStore1 (s : State.Of W M N) : Effect W M N := .done (s.setSm1 s.extBus)

/-- `select(bit)` (R89): EXT <- SM[bit]; a `bit` other than 0 and 1 is `InvalidBit` (R312). -/
def smSelect (bit : Nat) (s : State.Of W M N) : Effect W M N :=
  if bit = 0 then .done (s.putExt s.sm0)
  else if bit = 1 then .done (s.putExt s.sm1)
  else .raise .invalidBit (BitVec.ofNat W bit)

/-- `getBit(i)` of FLAGS (R27), handed to the operation that uses it; an `i` outside the bit width is
`InvalidBit`. -/
def flagGetBit (i : Nat) (k : Nat → State.Of W M N → Effect W M N) (s : State.Of W M N) : Effect W M N :=
  if i < flagWidth then k (wordBit s.flags i) s else .raise .invalidBit (BitVec.ofNat W i)

/-- `setBit(i, b)` of FLAGS (R27); an `i` outside the bit width is `InvalidBit`. -/
def flagSetBit (i : Nat) (b : Bool) (s : State.Of W M N) : Effect W M N :=
  if i < flagWidth then .done (s.setFlags (withBit s.flags i b)) else .raise .invalidBit (BitVec.ofNat W i)

end Sys2Proof.Machine
end

