-- ==== Sys2Proof/Machine/MicroOp.lean ====
section
/-! DEFINITION. The 31 micro-operations (spec 40 section 3): their codes and what each does. -/

namespace Sys2Proof.Machine

variable {W M N : Nat}

/-- The micro-operations, in the order of their codes. -/
inductive MicroOp where
  | endOp | decode
  | pcRdExt | pcStExt | pcRdInt | pcStInt
  | irRdExt | irStExt | irRdInt | irStInt
  | rfRdExt | rfStExt | rfRdInt | rfStInt
  | selLatch | memReq | memRead | memWrite
  | smSt0 | smSt1 | smSelZ | smSelN
  | aluLd0 | aluLd1 | aluEm0 | aluEm1 | aluAdd | aluSub | aluInc
  | flgClr | flgUpd
  deriving DecidableEq, Repr

/-- The code of each micro-operation (the table of spec 40 section 3). -/
def MicroOp.code : MicroOp → ControlWord
  | .endOp => 0
  | .decode => 1
  | .pcRdExt => 2
  | .pcStExt => 3
  | .pcRdInt => 4
  | .pcStInt => 5
  | .irRdExt => 6
  | .irStExt => 7
  | .irRdInt => 8
  | .irStInt => 9
  | .rfRdExt => 10
  | .rfStExt => 11
  | .rfRdInt => 12
  | .rfStInt => 13
  | .selLatch => 14
  | .memReq => 15
  | .memRead => 16
  | .memWrite => 17
  | .smSt0 => 18
  | .smSt1 => 19
  | .smSelZ => 20
  | .smSelN => 21
  | .aluLd0 => 22
  | .aluLd1 => 23
  | .aluEm0 => 24
  | .aluEm1 => 25
  | .aluAdd => 26
  | .aluSub => 27
  | .aluInc => 28
  | .flgClr => 29
  | .flgUpd => 30

/-- The micro-operations in code order. -/
def MicroOp.all : List MicroOp :=
  [.endOp, .decode, .pcRdExt, .pcStExt, .pcRdInt, .pcStInt, .irRdExt, .irStExt, .irRdInt, .irStInt,
   .rfRdExt, .rfStExt, .rfRdInt, .rfStInt, .selLatch, .memReq, .memRead, .memWrite,
   .smSt0, .smSt1, .smSelZ, .smSelN, .aluLd0, .aluLd1, .aluEm0, .aluEm1, .aluAdd, .aluSub, .aluInc,
   .flgClr, .flgUpd]

/-- The micro-operation of a control word; the code 31 has none (R185). -/
def microOpOf (c : ControlWord) : Option MicroOp := MicroOp.all[c.toNat]?

/-- The dispatch table (R291): the first ROM address of a registered opcode; a reserved one has none. -/
def opcodeDispatch : Opcode → Option MicroAddr
  | .addRegReg => some 5
  | .addMemReg => some 41
  | .addRegMem => some 76
  | .addImmReg => some 117
  | .subRegReg => some 150
  | .subMemReg => some 186
  | .subRegMem => some 221
  | .subImmReg => some 262
  | .moveMemReg => some 295
  | .moveRegMem => some 323
  | .moveRegReg => some 349
  | .moveImmReg => some 377
  | .incReg => some 403
  | .jmp => some 425
  | .jn => some 435
  | .jz => some 454
  | .reserved8 => none
  | .reserved9 => none
  | .reserved10 => none
  | .jeq => none
  | .jneq => none
  | .jgt => none
  | .jlw => none

/-- DISPATCH on a Word (R155, R291): none for every Word that is not one of the sixteen registered
opcodes. -/
def dispatch (w : BitVec W) : Option MicroAddr := (opcodeOf w).bind opcodeDispatch

/-- `DECODE` (R155): to the microprogram of the opcode in IR, or HALT. -/
def decodeDispatch (s : State.Of W M N) : Effect W M N :=
  match dispatch s.ir with
  | some u => .goto u
  | none => .halt

/-- What each micro-operation does (R154 to R184). -/
def MicroOp.effect (m : MicroOp) (s : State.Of W M N) : Effect W M N :=
  match m with
  | .endOp => .goto 0
  | .decode => decodeDispatch s
  | .pcRdExt => .done (s.putExt s.pc)
  | .pcStExt => .done (s.setPc s.extBus)
  | .pcRdInt => .done (s.putInt s.pc)
  | .pcStInt => .done (s.setPc s.intBus)
  | .irRdExt => .done (s.putExt s.ir)
  | .irStExt => .done (s.setIr s.extBus)
  | .irRdInt => .done (s.putInt s.ir)
  | .irStInt => .done (s.setIr s.intBus)
  | .rfRdExt => readSelectedExternal s
  | .rfStExt => storeSelectedExternal s
  | .rfRdInt => readSelectedInternal s
  | .rfStInt => storeSelectedInternal s
  | .selLatch => select s
  | .memReq => memRequest s
  | .memRead => Machine.memRead s
  | .memWrite => Machine.memWrite s
  | .smSt0 => smStore0 s
  | .smSt1 => smStore1 s
  | .smSelZ => flagGetBit flagZERO smSelect s
  | .smSelN => flagGetBit flagNEGATIVE smSelect s
  | .aluLd0 => aluLoad 0 s
  | .aluLd1 => aluLoad 1 s
  | .aluEm0 => aluEmit 0 s
  | .aluEm1 => aluEmit 1 s
  | .aluAdd => Machine.aluAdd s
  | .aluSub => Machine.aluSub s
  | .aluInc => Machine.aluInc s
  | .flgClr => (flagSetBit flagZERO false s).andThen (flagSetBit flagNEGATIVE false)
  | .flgUpd =>
    (flagSetBit flagZERO (s.intBus == 0) s).andThen (flagSetBit flagNEGATIVE (decide (s.intBus.toInt < 0)))

/-- One micro-operation, UPC and CU_STATE included (R151, R152). -/
def MicroOp.perform (m : MicroOp) (s : State.Of W M N) : State.Of W M N := s.apply (m.effect s)

end Sys2Proof.Machine
end

