-- ==== Sys2Proof/Machine/Operands.lean ====
section
/-! DEFINITION. Microprograms as lists, and the shared sequences FETCH, RDPC, PCADV, OPF, DEREF and
ARITH (spec 40 section 4): how each kind of operand is fetched and how a result gets its flags. -/

namespace Sys2Proof.Machine

variable {W M N : Nat}

/-- One step of an instruction's microprogram. `op` is a micro-operation. `word w` is the `MEM_READ`
that delivers one of the instruction's own Words, whose value is `w`: `step` decodes the Words at PC
and hands them to `exec` in the instruction, so the read is not made a second time (log 7). -/
inductive Item (W : Nat) where
  | op (m : MicroOp)
  | word (w : BitVec W)
  deriving DecidableEq, Repr

/-- The control word that the ROM holds for an item (R292). -/
def Item.code : Item W → ControlWord
  | .op m => m.code
  | .word _ => MicroOp.memRead.code

/-- What an item does. -/
def Item.effect (it : Item W) (s : State.Of W M N) : Effect W M N :=
  match it with
  | .op m => m.effect s
  | .word w => memDeliver w s

/-- The items in order; nothing runs once the machine has stopped (R151, R313). -/
def runItems : List (Item W) → State.Of W M N → State.Of W M N
  | [], s => s
  | it :: rest, s => if s.stopped then s else runItems rest (s.apply (it.effect s))

/-- Micro-operations as items. -/
def ops (l : List MicroOp) : List (Item W) := l.map .op

/-- FETCH (R190) of an instruction whose opcode word is `w`. -/
def fetchItems (w : BitVec W) : List (Item W) :=
  ops [.pcRdExt, .memReq] ++ [.word w] ++ ops [.irStExt]

/-- PCADV (R193): `adv()`. -/
def pcAdv : List (Item W) :=
  ops [.pcRdInt, .aluLd1, .aluInc, .aluEm1, .pcStInt]

/-- RDPC (R192) of a Word `w` of the instruction. -/
def rdpc (w : BitVec W) : List (Item W) :=
  ops [.pcRdExt, .memReq] ++ [.word w]

/-- OPF (R194), the fetch of an operand word `w`: PCADV, then RDPC. -/
def opf (w : BitVec W) : List (Item W) := pcAdv ++ rdpc w

/-- DEREF (R195): the Word on EXT is an address and is replaced by the cell it names. -/
def deref : List (Item W) := ops [.memReq, .memRead]

/-- ARITH(op) (R196): clear both flags, operate, put the result on INT, set the flags from it. -/
def arith (op : MicroOp) : List (Item W) := ops [.flgClr, op, .aluEm1, .flgUpd]

/-- One instruction from its boundary (R200): FETCH of the opcode word, DECODE, then the
microprogram of the instruction; it ends at END, at the DECODE that halts or at a fatal error. -/
def runInstr (w : BitVec W) (body : List (Item W)) (s : State.Of W M N) : State.Of W M N :=
  runItems (fetchItems w ++ ops [.decode] ++ body) (s.seqTo 0)

end Sys2Proof.Machine
end

