-- ==== Sys2Proof/Machine/Arithmetic.lean ====
section
/-! DEFINITION. The nine arithmetic instructions (spec 41): each sets ZERO and NEGATIVE by ARITH (R220). In every
subtraction the result is the first operand minus the second. -/

namespace Sys2Proof.Machine

variable {W M N : Nat}

/-- The microprogram of `addRegReg` (R221). -/
def addRegRegProgram (a b : BitVec W) : List (Item W) :=
  opf a ++ ops [.irStExt, .selLatch, .rfRdInt, .aluLd0] ++ opf b ++
    ops [.selLatch, .rfRdInt, .aluLd1, .irRdExt, .selLatch] ++ arith .aluAdd ++ ops [.rfStInt] ++ pcAdv ++ ops [.endOp]

/-- `addRegReg` (R221): "reg0 ← reg0+reg1 (first named register overwritten)". -/
def execAddRegReg (a b : BitVec W) (s : State.Of W M N) : Host.Outcome (State.Of W M N) Fault Refusal :=
  .next (runInstr Opcode.addRegReg.word (addRegRegProgram a b) s)

/-- The microprogram of `addMemReg` (R222). -/
def addMemRegProgram (a : BitVec W) (b : BitVec W) : List (Item W) :=
  opf a ++ deref ++ ops [.irStExt, .irRdInt, .aluLd0] ++ opf b ++
    ops [.selLatch, .rfRdInt, .aluLd1] ++ arith .aluAdd ++ ops [.rfStInt] ++ pcAdv ++ ops [.endOp]

/-- `addMemReg` (R222): "reg ← mem+reg". -/
def execAddMemReg (a : BitVec W) (b : BitVec W) (s : State.Of W M N) : Host.Outcome (State.Of W M N) Fault Refusal :=
  .next (runInstr Opcode.addMemReg.word (addMemRegProgram a b) s)

/-- The microprogram of `addRegMem` (R223). -/
def addRegMemProgram (a : BitVec W) (b : BitVec W) : List (Item W) :=
  opf a ++ ops [.selLatch, .rfRdInt, .aluLd0] ++ opf b ++ deref ++ ops [.irStExt, .irRdInt, .aluLd1] ++
    arith .aluAdd ++ ops [.irStInt] ++ rdpc b ++ ops [.memReq, .irRdExt, .memWrite] ++ pcAdv ++ ops [.endOp]

/-- `addRegMem` (R223): "mem ← reg+mem", with the re-read of the address word (R199). -/
def execAddRegMem (a : BitVec W) (b : BitVec W) (s : State.Of W M N) : Host.Outcome (State.Of W M N) Fault Refusal :=
  .next (runInstr Opcode.addRegMem.word (addRegMemProgram a b) s)

/-- The microprogram of `addImmReg` (R224). -/
def addImmRegProgram (a : BitVec W) (b : BitVec W) : List (Item W) :=
  opf a ++ ops [.irStExt, .irRdInt, .aluLd0] ++ opf b ++
    ops [.selLatch, .rfRdInt, .aluLd1] ++ arith .aluAdd ++ ops [.rfStInt] ++ pcAdv ++ ops [.endOp]

/-- `addImmReg` (R224): "reg ← imm+reg". -/
def execAddImmReg (a : BitVec W) (b : BitVec W) (s : State.Of W M N) : Host.Outcome (State.Of W M N) Fault Refusal :=
  .next (runInstr Opcode.addImmReg.word (addImmRegProgram a b) s)

/-- The microprogram of `subRegReg` (R225). -/
def subRegRegProgram (a b : BitVec W) : List (Item W) :=
  opf a ++ ops [.irStExt, .selLatch, .rfRdInt, .aluLd0] ++ opf b ++
    ops [.selLatch, .rfRdInt, .aluLd1, .irRdExt, .selLatch] ++ arith .aluSub ++ ops [.rfStInt] ++ pcAdv ++ ops [.endOp]

/-- `subRegReg` (R225): "reg0 ← reg0−reg1". -/
def execSubRegReg (a b : BitVec W) (s : State.Of W M N) : Host.Outcome (State.Of W M N) Fault Refusal :=
  .next (runInstr Opcode.subRegReg.word (subRegRegProgram a b) s)

/-- The microprogram of `subMemReg` (R226). -/
def subMemRegProgram (a : BitVec W) (b : BitVec W) : List (Item W) :=
  opf a ++ deref ++ ops [.irStExt, .irRdInt, .aluLd0] ++ opf b ++
    ops [.selLatch, .rfRdInt, .aluLd1] ++ arith .aluSub ++ ops [.rfStInt] ++ pcAdv ++ ops [.endOp]

/-- `subMemReg` (R226): "reg ← mem−reg (operand order as coded)": the destination is the subtrahend. -/
def execSubMemReg (a : BitVec W) (b : BitVec W) (s : State.Of W M N) : Host.Outcome (State.Of W M N) Fault Refusal :=
  .next (runInstr Opcode.subMemReg.word (subMemRegProgram a b) s)

/-- The microprogram of `subRegMem` (R227). -/
def subRegMemProgram (a : BitVec W) (b : BitVec W) : List (Item W) :=
  opf a ++ ops [.selLatch, .rfRdInt, .aluLd0] ++ opf b ++ deref ++ ops [.irStExt, .irRdInt, .aluLd1] ++
    arith .aluSub ++ ops [.irStInt] ++ rdpc b ++ ops [.memReq, .irRdExt, .memWrite] ++ pcAdv ++ ops [.endOp]

/-- `subRegMem` (R227): "mem ← reg−mem": the destination is the subtrahend. -/
def execSubRegMem (a : BitVec W) (b : BitVec W) (s : State.Of W M N) : Host.Outcome (State.Of W M N) Fault Refusal :=
  .next (runInstr Opcode.subRegMem.word (subRegMemProgram a b) s)

/-- The microprogram of `subImmReg` (R228). -/
def subImmRegProgram (a : BitVec W) (b : BitVec W) : List (Item W) :=
  opf a ++ ops [.irStExt, .irRdInt, .aluLd0] ++ opf b ++
    ops [.selLatch, .rfRdInt, .aluLd1] ++ arith .aluSub ++ ops [.rfStInt] ++ pcAdv ++ ops [.endOp]

/-- `subImmReg` (R228): "reg ← imm−reg". -/
def execSubImmReg (a : BitVec W) (b : BitVec W) (s : State.Of W M N) : Host.Outcome (State.Of W M N) Fault Refusal :=
  .next (runInstr Opcode.subImmReg.word (subImmRegProgram a b) s)

/-- The microprogram of `incReg` (R229). -/
def incRegProgram (a : BitVec W) : List (Item W) :=
  opf a ++ ops [.selLatch, .rfRdInt, .aluLd1] ++ arith .aluInc ++ ops [.rfStInt] ++ pcAdv ++ ops [.endOp]

/-- `incReg` (R229): "reg ← reg+1". -/
def execIncReg (a : BitVec W) (s : State.Of W M N) : Host.Outcome (State.Of W M N) Fault Refusal :=
  .next (runInstr Opcode.incReg.word (incRegProgram a) s)

end Sys2Proof.Machine
end

