-- ==== Sys2Proof/Machine/Halting.lean ====
section
/-! DEFINITION. The words that halt: the seven reserved rows (R126) and every Word that is in no row
of the table (R127). FETCH runs, DECODE finds no microprogram, and the machine is in HALT (R311). -/

namespace Sys2Proof.Machine

variable {W M N : Nat}

/-- The halt on an opcode word without a microprogram (R311). -/
def haltOn (w : BitVec W) (s : State.Of W M N) : State.Of W M N := runInstr w [] s

/-- Opcode 8, `reserved8`: reserved, halts at DECODE before any operand is fetched (R126). -/
def execReserved8 (s : State.Of W M N) : Host.Outcome (State.Of W M N) Fault Refusal :=
  .next (haltOn Opcode.reserved8.word s)

/-- Opcode 9, `reserved9`: reserved, halts at DECODE before any operand is fetched (R126). -/
def execReserved9 (s : State.Of W M N) : Host.Outcome (State.Of W M N) Fault Refusal :=
  .next (haltOn Opcode.reserved9.word s)

/-- Opcode 10, `reserved10`: reserved, halts at DECODE before any operand is fetched (R126). -/
def execReserved10 (s : State.Of W M N) : Host.Outcome (State.Of W M N) Fault Refusal :=
  .next (haltOn Opcode.reserved10.word s)

/-- Opcode 19, `jeq`: reserved, halts at DECODE before any operand is fetched (R126). -/
def execJeq (s : State.Of W M N) : Host.Outcome (State.Of W M N) Fault Refusal :=
  .next (haltOn Opcode.jeq.word s)

/-- Opcode 20, `jneq`: reserved, halts at DECODE before any operand is fetched (R126). -/
def execJneq (s : State.Of W M N) : Host.Outcome (State.Of W M N) Fault Refusal :=
  .next (haltOn Opcode.jneq.word s)

/-- Opcode 21, `jgt`: reserved, halts at DECODE before any operand is fetched (R126). -/
def execJgt (s : State.Of W M N) : Host.Outcome (State.Of W M N) Fault Refusal :=
  .next (haltOn Opcode.jgt.word s)

/-- Opcode 22, `jlw`: reserved, halts at DECODE before any operand is fetched (R126). -/
def execJlw (s : State.Of W M N) : Host.Outcome (State.Of W M N) Fault Refusal :=
  .next (haltOn Opcode.jlw.word s)

/-- A Word that is in no row of the table: halts in the same way (R127). -/
def execUnregistered (w : BitVec W) (s : State.Of W M N) : Host.Outcome (State.Of W M N) Fault Refusal :=
  .next (haltOn w s)

end Sys2Proof.Machine
end

