-- ==== Sys2Proof/Machine/Jump.lean ====
section
/-! DEFINITION. The three jumps (spec 43). The sequencer never tests a flag: `jn` and `jz` store both addresses in
StatusMemory and let the flag bit select (R90). -/

namespace Sys2Proof.Machine

variable {W M N : Nat}

/-- The microprogram of `jmp` (R270). -/
def jmpProgram (t : BitVec W) : List (Item W) :=
  opf t ++ ops [.pcStExt, .endOp]

/-- `jmp` (R270): "PC ← addr unconditionally". -/
def execJmp (t : BitVec W) (s : State.Of W M N) : Host.Outcome (State.Of W M N) Fault Refusal :=
  .next (runInstr Opcode.jmp.word (jmpProgram t) s)

/-- The microprogram of `jn` (R271). -/
def jnProgram (t : BitVec W) : List (Item W) :=
  opf t ++ ops [.smSt1] ++ pcAdv ++ ops [.pcRdExt, .smSt0, .smSelN, .pcStExt, .endOp]

/-- `jn` (R271): "PC ← addr if NEGATIVE flag set, else next instruction". -/
def execJn (t : BitVec W) (s : State.Of W M N) : Host.Outcome (State.Of W M N) Fault Refusal :=
  .next (runInstr Opcode.jn.word (jnProgram t) s)

/-- The microprogram of `jz` (R272). -/
def jzProgram (t : BitVec W) : List (Item W) :=
  opf t ++ ops [.smSt1] ++ pcAdv ++ ops [.pcRdExt, .smSt0, .smSelZ, .pcStExt, .endOp]

/-- `jz` (R272): "PC ← addr if ZERO flag set, else next instruction". -/
def execJz (t : BitVec W) (s : State.Of W M N) : Host.Outcome (State.Of W M N) Fault Refusal :=
  .next (runInstr Opcode.jz.word (jzProgram t) s)

end Sys2Proof.Machine
end

