-- ==== Sys2Proof/Machine/Move.lean ====
section
/-! DEFINITION. The four moves (spec 42): none touches the flag bits (R250). -/

namespace Sys2Proof.Machine

variable {W M N : Nat}

/-- The microprogram of `moveMemReg` (R251). -/
def moveMemRegProgram (a : BitVec W) (b : BitVec W) : List (Item W) :=
  opf a ++ deref ++ ops [.irStExt] ++ opf b ++ ops [.selLatch, .irRdExt, .rfStExt] ++ pcAdv ++ ops [.endOp]

/-- `moveMemReg` (R251): "reg ← mem". -/
def execMoveMemReg (a : BitVec W) (b : BitVec W) (s : State.Of W M N) : Host.Outcome (State.Of W M N) Fault Refusal :=
  .next (runInstr Opcode.moveMemReg.word (moveMemRegProgram a b) s)

/-- The microprogram of `moveRegMem` (R252). -/
def moveRegMemProgram (a : BitVec W) (b : BitVec W) : List (Item W) :=
  opf a ++ ops [.selLatch] ++ opf b ++ ops [.memReq, .rfRdExt, .memWrite] ++ pcAdv ++ ops [.endOp]

/-- `moveRegMem` (R252): "mem ← reg": the address is requested before the register is read. -/
def execMoveRegMem (a : BitVec W) (b : BitVec W) (s : State.Of W M N) : Host.Outcome (State.Of W M N) Fault Refusal :=
  .next (runInstr Opcode.moveRegMem.word (moveRegMemProgram a b) s)

/-- The microprogram of `moveRegReg` (R253). -/
def moveRegRegProgram (a b : BitVec W) : List (Item W) :=
  opf a ++ ops [.selLatch, .rfRdInt, .aluLd0] ++ opf b ++ ops [.selLatch, .aluEm0, .rfStInt] ++ pcAdv ++ ops [.endOp]

/-- `moveRegReg` (R253): "reg2 ← reg1": the second operand is the destination. -/
def execMoveRegReg (a b : BitVec W) (s : State.Of W M N) : Host.Outcome (State.Of W M N) Fault Refusal :=
  .next (runInstr Opcode.moveRegReg.word (moveRegRegProgram a b) s)

/-- The microprogram of `moveImmReg` (R254). -/
def moveImmRegProgram (a : BitVec W) (b : BitVec W) : List (Item W) :=
  opf a ++ ops [.irStExt] ++ opf b ++ ops [.selLatch, .irRdExt, .rfStExt] ++ pcAdv ++ ops [.endOp]

/-- `moveImmReg` (R254): "reg ← imm". -/
def execMoveImmReg (a : BitVec W) (b : BitVec W) (s : State.Of W M N) : Host.Outcome (State.Of W M N) Fault Refusal :=
  .next (runInstr Opcode.moveImmReg.word (moveImmRegProgram a b) s)

end Sys2Proof.Machine
end

