-- ==== Sys2Proof/Machine/Dispatch.lean ====
section
/-! DEFINITION. The meaning of every instruction: one arm per row of spec/opcode_table.json. -/

namespace Sys2Proof.Machine

def exec (i : Instr) (s : State) : Host.Outcome State Fault Refusal :=
  match i with
  | .addRegReg a b => Sys2Proof.Machine.execAddRegReg a b s
  | .addMemReg a b => Sys2Proof.Machine.execAddMemReg a b s
  | .addRegMem a b => Sys2Proof.Machine.execAddRegMem a b s
  | .addImmReg a b => Sys2Proof.Machine.execAddImmReg a b s
  | .subRegReg a b => Sys2Proof.Machine.execSubRegReg a b s
  | .subMemReg a b => Sys2Proof.Machine.execSubMemReg a b s
  | .subRegMem a b => Sys2Proof.Machine.execSubRegMem a b s
  | .subImmReg a b => Sys2Proof.Machine.execSubImmReg a b s
  | .moveMemReg a b => Sys2Proof.Machine.execMoveMemReg a b s
  | .moveRegMem a b => Sys2Proof.Machine.execMoveRegMem a b s
  | .moveRegReg a b => Sys2Proof.Machine.execMoveRegReg a b s
  | .moveImmReg a b => Sys2Proof.Machine.execMoveImmReg a b s
  | .incReg a => Sys2Proof.Machine.execIncReg a s
  | .jmp a => Sys2Proof.Machine.execJmp a s
  | .jn a => Sys2Proof.Machine.execJn a s
  | .jz a => Sys2Proof.Machine.execJz a s
  | .reserved8 => Sys2Proof.Machine.execReserved8 s
  | .reserved9 => Sys2Proof.Machine.execReserved9 s
  | .reserved10 => Sys2Proof.Machine.execReserved10 s
  | .jeq => Sys2Proof.Machine.execJeq s
  | .jneq => Sys2Proof.Machine.execJneq s
  | .jgt => Sys2Proof.Machine.execJgt s
  | .jlw => Sys2Proof.Machine.execJlw s

end Sys2Proof.Machine
end

