-- ==== Sys2Proof/Machine/Sequencer.lean ====
section
/-! DEFINITION. The microprogram ROM as the spec lists it (spec 44) and the machine that steps by
micro-operation (R151, R152). -/

namespace Sys2Proof.Machine

variable {W M N : Nat}

/-- The ROM words from address 0 (R292). -/
def romFrom0 : List ControlWord :=
  [2, 15, 16, 7, 1, 4, 23, 28, 25, 5, 2, 15, 16, 7, 14, 12,
   22, 4, 23, 28, 25, 5, 2, 15, 16, 14, 12, 23, 6, 14, 29, 26,
   25, 30, 13, 4, 23, 28, 25, 5, 0, 4, 23, 28, 25, 5, 2, 15,
   16, 15, 16, 7, 8, 22, 4, 23, 28, 25, 5, 2, 15, 16, 14, 12,
   23, 29, 26, 25, 30, 13, 4, 23, 28, 25, 5, 0, 4, 23, 28, 25]

/-- The ROM words from address 80 (R292). -/
def romFrom80 : List ControlWord :=
  [5, 2, 15, 16, 14, 12, 22, 4, 23, 28, 25, 5, 2, 15, 16, 15,
   16, 7, 8, 23, 29, 26, 25, 30, 9, 2, 15, 16, 15, 6, 17, 4,
   23, 28, 25, 5, 0, 4, 23, 28, 25, 5, 2, 15, 16, 7, 8, 22,
   4, 23, 28, 25, 5, 2, 15, 16, 14, 12, 23, 29, 26, 25, 30, 13,
   4, 23, 28, 25, 5, 0, 4, 23, 28, 25, 5, 2, 15, 16, 7, 14]

/-- The ROM words from address 160 (R292). -/
def romFrom160 : List ControlWord :=
  [12, 22, 4, 23, 28, 25, 5, 2, 15, 16, 14, 12, 23, 6, 14, 29,
   27, 25, 30, 13, 4, 23, 28, 25, 5, 0, 4, 23, 28, 25, 5, 2,
   15, 16, 15, 16, 7, 8, 22, 4, 23, 28, 25, 5, 2, 15, 16, 14,
   12, 23, 29, 27, 25, 30, 13, 4, 23, 28, 25, 5, 0, 4, 23, 28,
   25, 5, 2, 15, 16, 14, 12, 22, 4, 23, 28, 25, 5, 2, 15, 16]

/-- The ROM words from address 240 (R292). -/
def romFrom240 : List ControlWord :=
  [15, 16, 7, 8, 23, 29, 27, 25, 30, 9, 2, 15, 16, 15, 6, 17,
   4, 23, 28, 25, 5, 0, 4, 23, 28, 25, 5, 2, 15, 16, 7, 8,
   22, 4, 23, 28, 25, 5, 2, 15, 16, 14, 12, 23, 29, 27, 25, 30,
   13, 4, 23, 28, 25, 5, 0, 4, 23, 28, 25, 5, 2, 15, 16, 15,
   16, 7, 4, 23, 28, 25, 5, 2, 15, 16, 14, 6, 11, 4, 23, 28]

/-- The ROM words from address 320 (R292). -/
def romFrom320 : List ControlWord :=
  [25, 5, 0, 4, 23, 28, 25, 5, 2, 15, 16, 14, 4, 23, 28, 25,
   5, 2, 15, 16, 15, 10, 17, 4, 23, 28, 25, 5, 0, 4, 23, 28,
   25, 5, 2, 15, 16, 14, 12, 22, 4, 23, 28, 25, 5, 2, 15, 16,
   14, 24, 13, 4, 23, 28, 25, 5, 0, 4, 23, 28, 25, 5, 2, 15,
   16, 7, 4, 23, 28, 25, 5, 2, 15, 16, 14, 6, 11, 4, 23, 28]

/-- The ROM words from address 400 (R292). -/
def romFrom400 : List ControlWord :=
  [25, 5, 0, 4, 23, 28, 25, 5, 2, 15, 16, 14, 12, 23, 29, 28,
   25, 30, 13, 4, 23, 28, 25, 5, 0, 4, 23, 28, 25, 5, 2, 15,
   16, 3, 0, 4, 23, 28, 25, 5, 2, 15, 16, 19, 4, 23, 28, 25,
   5, 2, 18, 21, 3, 0, 4, 23, 28, 25, 5, 2, 15, 16, 19, 4,
   23, 28, 25, 5, 2, 18, 20, 3, 0]

/-- The microprogram ROM: 473 control words (R290, R292). -/
def rom : List ControlWord :=
  romFrom0 ++ romFrom80 ++ romFrom160 ++ romFrom240 ++ romFrom320 ++ romFrom400

/-- The control word at UPC; none beyond the ROM. -/
def romWord (u : MicroAddr) : Option ControlWord := rom[u.toNat]?

/-- `InvalidMicroOp` (R185, R312, R318): raised on a control word without a micro-operation, and on a
UPC beyond the ROM, where the control word it reports is a free value (log 8). -/
def invalidMicroOp (w : BitVec W) (s : State.Of W M N) : State.Of W M N := s.raise .invalidMicroOp w

/-- One step of the machine (R151): the micro-operation at UPC. In HALT and in FAULT there is none. -/
def microStep (s : State.Of W M N) : State.Of W M N :=
  if s.stopped then s
  else match romWord s.upc with
    | none => invalidMicroOp (Config.controlWordBeyondRom W s.upc.toNat) s
    | some c => match microOpOf c with
      | none => invalidMicroOp (c.setWidth W) s
      | some m => m.perform s

/-- `n` steps. -/
def microRun : Nat → State.Of W M N → State.Of W M N
  | 0, s => s
  | n + 1, s => microRun n (microStep s)

/-- Steps until the instruction in progress is over: the sequencer is back at UPC = 0 or has stopped
(R200). At most `fuel` steps. -/
def runToBoundary : Nat → State.Of W M N → State.Of W M N
  | 0, s => s
  | fuel + 1, s =>
    if (microStep s).stopped || (microStep s).upc == 0 then microStep s
    else runToBoundary fuel (microStep s)

/-- The most steps an instruction takes (R291: 46 for `addRegMem` and `subRegMem`). -/
def maxSteps : Nat := 46

/-- The steps an instruction takes when it completes (the table of R291, R349): 4 of FETCH, 1 of
DECODE, and its microprogram. A halting word takes 5. -/
def stepsOf : Opcode → Nat
  | .addRegReg => 41
  | .addMemReg => 40
  | .addRegMem => 46
  | .addImmReg => 38
  | .subRegReg => 41
  | .subMemReg => 40
  | .subRegMem => 46
  | .subImmReg => 38
  | .moveMemReg => 33
  | .moveRegMem => 31
  | .moveRegReg => 33
  | .moveImmReg => 31
  | .incReg => 27
  | .jmp => 15
  | .jn => 24
  | .jz => 24
  | .reserved8 => 5
  | .reserved9 => 5
  | .reserved10 => 5
  | .jeq => 5
  | .jneq => 5
  | .jgt => 5
  | .jlw => 5

end Sys2Proof.Machine
end

