-- ==== Sys2Proof/Machine/Fetch.lean ====
section
/-! DEFINITION. The instruction-level step (R200): which instruction stands at PC, running it, for every value
of the parameters and for the default machine, and placing an instruction. -/

namespace Sys2Proof.Machine

variable {W M N : Nat}

/-- An instruction boundary (R200): the next micro-operation is the first of FETCH. -/
def State.Of.atBoundary (s : State.Of W M N) : Bool := s.upc == 0

/-- The Words from PC on, as many as the longest instruction has. A Word whose address lies outside
Memory reads here as an unlisted cell does; it is never used, since the request that `exec` makes for
the same address faults first (log 7). -/
def State.Of.codeWords (s : State.Of W M N) : List (BitVec W) :=
  [s.mem.read s.pc.toNat, s.mem.read (s.pc + 1).toNat, s.mem.read (s.pc + 2).toNat]

/-- The meaning of a row with its operand Words, for every value of the parameters. On the default machine this
is `exec` (`exec_eq_execRow`). -/
def execRow (o : Opcode) (a b : BitVec W) (s : State.Of W M N) : Host.Outcome (State.Of W M N) Fault Refusal :=
  match o with
  | .addRegReg => execAddRegReg a b s
  | .addMemReg => execAddMemReg a b s
  | .addRegMem => execAddRegMem a b s
  | .addImmReg => execAddImmReg a b s
  | .subRegReg => execSubRegReg a b s
  | .subMemReg => execSubMemReg a b s
  | .subRegMem => execSubRegMem a b s
  | .subImmReg => execSubImmReg a b s
  | .moveMemReg => execMoveMemReg a b s
  | .moveRegMem => execMoveRegMem a b s
  | .moveRegReg => execMoveRegReg a b s
  | .moveImmReg => execMoveImmReg a b s
  | .incReg => execIncReg a s
  | .jmp => execJmp a s
  | .jn => execJn a s
  | .jz => execJz a s
  | .reserved8 => execReserved8 s
  | .reserved9 => execReserved9 s
  | .reserved10 => execReserved10 s
  | .jeq => execJeq s
  | .jneq => execJneq s
  | .jgt => execJgt s
  | .jlw => execJlw s

/-- The row at PC, for every value of the parameters (R200). -/
def runRowAtPc (s : State.Of W M N) : Host.Outcome (State.Of W M N) Fault Refusal :=
  match decodeWords s.codeWords with
  | .ok (o, a, b, _) => execRow o a b s
  | .error _ => execUnregistered (s.mem.read s.pc.toNat) s

/-- One instruction of the default machine from its boundary (R200): the decoded instruction, or the halt on a
Word that is in no row of the table. -/
def runAtPc (s : State) : Host.Outcome State Fault Refusal :=
  match decode s.codeWords with
  | .ok (i, _) => exec i s
  | .error _ => execUnregistered (s.mem.read s.pc.toNat) s

/-- The rest of the instruction in progress, by its micro-operations (log 4). -/
def finishInstr (s : State.Of W M N) : Host.Outcome (State.Of W M N) Fault Refusal :=
  .next (runToBoundary maxSteps s)

/-- A state that is stopped answers itself: no step is taken in HALT and in FAULT (R151, R323; log 5). -/
def stayStopped (s : State.Of W M N) : Host.Outcome (State.Of W M N) Fault Refusal := .next s

/-- Memory with the Words placed at consecutive addresses. -/
def placeWords : Memory W → Nat → List (BitVec W) → Memory W
  | m, _, [] => m
  | m, a, w :: ws => placeWords (m.write a w) (a + 1) ws

/-- Where `withFetchWord` places an instruction: at PC, or at 0 where three Words from PC on would
not all lie in Memory. -/
def placeAddr (s : State) : Word :=
  if s.pc.toNat + 3 ≤ Config.memSize then s.pc else 0

end Sys2Proof.Machine
end

