-- ==== Sys2Proof/Machine/Step.lean ====
section
/-! DEFINITION. The step of the machine, one instruction at a time (R200, log 4), and the host's
placing of an instruction where the step fetches. -/

namespace Sys2Proof.Machine

/-- One step for every value of the parameters: nothing in HALT and in FAULT; the rest of an instruction that is
in progress; else the instruction at PC. On the default machine this is `step` (`step_eq_stepRow`). -/
def stepRow {W M N : Nat} (s : State.Of W M N) : Host.Outcome (State.Of W M N) Fault Refusal :=
  if s.stopped then stayStopped s
  else if s.atBoundary then runRowAtPc s
  else finishInstr s

/-- One step of the default machine: nothing in HALT and in FAULT; the rest of an instruction that is in progress; else the
instruction at PC. -/
def step (s : State) : Host.Outcome State Fault Refusal :=
  if s.stopped then stayStopped s
  else if s.atBoundary then runAtPc s
  else finishInstr s

/-- The state with a table word's instruction (the bits from `nbits` up are 0) where the next step
fetches: its Words at PC, the sequencer at an instruction boundary and running (log 11). -/
def State.withFetchWord (s : State) (nbits w : Nat) : State :=
  { s with
    mem := placeWords s.mem (placeAddr s).toNat (tableWords nbits w)
    pc := placeAddr s
    upc := 0
    cuState := .fetch }

end Sys2Proof.Machine
end

