-- ==== Sys2Proof/Machine/Port.lean ====
section
/-! DEFINITION. The block's ports: loader, observer, register preset, status outputs, the clocked
inputs, and the source's `run()` (R91, R92, R102, R198, R202, R340, R343, R346). -/

namespace Sys2Proof.Machine

variable {W M N : Nat}

/-! ### The loader port -/

/-- The loader's failure (R319): it is reported to the caller and is no state of the core. -/
inductive LoaderError where
  | outOfRange (address : Int)
  deriving DecidableEq, Repr

/-- `loadWord(address, value)` (R91): the cell takes the Word, or `LoaderOutOfRange` and the core is
untouched. A value that is no Word cannot be given (D22). This is the effect of a load that is honoured; when
one is honoured says `Block.hostMayWrite`. -/
def loadWord (address : Int) (value : BitVec W) (s : State.Of W M N) : Except LoaderError (State.Of W M N) :=
  if 0 ≤ address ∧ address < M then .ok (s.setMem (s.mem.write address.toNat value))
  else .error (.outOfRange address)

/-- `size()` (R92). -/
def size (_ : State.Of W M N) : Nat := M

/-- A whole program image, pair by pair (R91, R342). DESIGN CHOICE (log 21): the spec gives `loadWord` for one
pair only; here the first pair out of range stops the load, and the answer is its error, with no state that
would show the cells loaded before it. -/
def loadImage : List (Int × BitVec W) → State.Of W M N → Except LoaderError (State.Of W M N)
  | [], s => .ok s
  | (a, v) :: rest, s =>
    match loadWord a v s with
    | .ok t => loadImage rest t
    | .error e => .error e

/-! ### Register preset and observation -/

/-- A harness presets a register of the file, any of them, by its file index (R7, R343; log 20). DESIGN CHOICE
(log 19): R343 says nothing of an index outside the file; it is refused to the harness. This is the effect of a
preset that is honoured (`presetAtPort`). -/
def presetReg (k : Nat) (v : BitVec W) (s : State.Of W M N) : Option (State.Of W M N) :=
  if k < nregOf N then some (s.writeFile k v) else none

/-- The snapshot of PC (R102). -/
def observePC (s : State.Of W M N) : BitVec W := s.pc

/-- The snapshot of InstructionRegister (R102). -/
def observeIR (s : State.Of W M N) : BitVec W := s.ir

/-- The snapshot of a register of the file, any of them, by its file index (R7, R102; log 20): PC, IR and FLAGS
are among them. DESIGN CHOICE (log 19): R102 says what a cell address out of range is to the observer and says
nothing of a register index outside the file; the observer gets none, and the core is untouched. -/
def observeReg (k : Nat) (s : State.Of W M N) : Option (BitVec W) :=
  if k < nregOf N then some (s.readFile k) else none

/-- The snapshot of the flag bits (R102): ZERO and NEGATIVE. -/
def observeFlags (s : State.Of W M N) : Nat × Nat :=
  (wordBit s.flags flagZERO, wordBit s.flags flagNEGATIVE)

/-- The snapshot of a cell (R102); an address out of range is the observer's error, none of the core's. -/
def observeCell (address : Int) (s : State.Of W M N) : Option (BitVec W) :=
  if 0 ≤ address ∧ address < M then some (s.mem.read address.toNat) else none

/-! ### The status port -/

/-- The encoding of CU_STATE on the status port (R50). -/
def cuStateCode : CuState → BitVec 3
  | .fetch => 0
  | .decode => 1
  | .execute => 2
  | .halt => 3
  | .fault => 4

/-- The encoding of FAULT_CAUSE on the status port (R312); 7 is unused. -/
def faultCauseCode : FaultCause → BitVec 3
  | .none => 0
  | .outOfBoundsMem => 1
  | .outOfBoundsReg => 2
  | .invalidSlot => 3
  | .invalidBit => 4
  | .noRequest => 5
  | .invalidMicroOp => 6

/-- The status outputs (R202). -/
structure Outputs (W : Nat) where
  cuState : BitVec 3
  faultCause : BitVec 3
  faultInfo : BitVec W
  halted : Bool
  faulted : Bool
  deriving DecidableEq, Repr

/-- What the status port shows (R202, R313). -/
def outputs (s : State.Of W M N) : Outputs W where
  cuState := cuStateCode s.cuState
  faultCause := faultCauseCode s.faultCause
  faultInfo := s.faultInfo
  halted := s.cuState == .halt
  faulted := s.cuState == .fault

/-! ### The clocked block -/

/-- The inputs sampled at a rising edge of `clk` (R202). The address is an integer, as the source's
`loadWord` has it (log 10). -/
structure Inputs (W : Nat) where
  rst : Bool
  run : Bool
  loadEn : Bool
  loadAddr : Int
  loadData : BitVec W
  deriving DecidableEq, Repr

/-- The core at its ports, with what the ports must know of the run (R346). `started` is the MODEL's own
bookkeeping and no element of the core (log 10): R346 tells "before the run starts" from "between steps of a
paused run", which no element of R50 to R52 does. -/
structure Block (W M N : Nat) where
  /-- The core. -/
  core : State.Of W M N
  /-- `run` has been 1 at an edge since the last reset. -/
  started : Bool
  deriving DecidableEq, Repr

/-- The block after reset (R340, R342): no run has begun. -/
def Block.reset : Block W M N := ⟨State.Of.reset, false⟩

/-- When the host may write (R346), `run` being the input: not while `run` is 1, and not between the steps of a
run that is paused or over (R323 asks for a reset before the next one). It is never inside an instruction: no
input alters a running instruction (R320). -/
def Block.hostMayWrite (run : Bool) (b : Block W M N) : Bool :=
  !run && !b.started && b.core.atBoundary

/-- A load request that is honoured: done, or no effect when the address is out of range (R91, R319). -/
def loadAtEdge (address : Int) (value : BitVec W) (b : Block W M N) : Block W M N :=
  match loadWord address value b.core with
  | .ok t => { b with core := t }
  | .error _ => b

/-- One rising edge (R202, R340, R346): reset first; one micro-operation while `run` is 1 (none in HALT and in
FAULT); the loader only before the run, and otherwise ignored, not queued. -/
def clockEdge (i : Inputs W) (b : Block W M N) : Block W M N :=
  if i.rst then ⟨b.core.rst, false⟩
  else if i.run then ⟨microStep b.core, true⟩
  else if i.loadEn && b.hostMayWrite i.run then loadAtEdge i.loadAddr i.loadData b
  else b

/-- A preset by the harness while the input `run` has this value (R343, R346): honoured only before the run,
and otherwise ignored, not queued. It is an action of the harness, not a port, so no edge takes it (log 14). -/
def presetAtPort (run : Bool) (k : Nat) (v : BitVec W) (b : Block W M N) : Block W M N :=
  if b.hostMayWrite run then
    match presetReg k v b.core with
    | some t => { b with core := t }
    | none => b
  else b

/-! ### `run()` -/

/-- How `run()` ends (R198): normally on HALT, with the fatal error otherwise, or it is still running
when the fuel is out: there is no timeout (U15). -/
inductive RunResult (W M N : Nat) where
  | halted (s : State.Of W M N)
  | fatal (c : FaultCause) (info : BitVec W) (s : State.Of W M N)
  | running (s : State.Of W M N)
  deriving DecidableEq, Repr

/-- The result that a state shows (R198). -/
def resultOf (s : State.Of W M N) : RunResult W M N :=
  match s.cuState with
  | .halt => .halted s
  | .fault => .fatal s.faultCause s.faultInfo s
  | .fetch => .running s
  | .decode => .running s
  | .execute => .running s

/-- `run()` (R198) for at most `fuel` micro-operations. -/
def run (fuel : Nat) (s : State.Of W M N) : RunResult W M N := resultOf (microRun fuel s)

end Sys2Proof.Machine
end

