-- ==== Sys2Proof/Machine/Pseudocode.lean ====
section
/-! DEFINITION. The pseudocode of the instruction rules (spec 41, 42, 43 and R200), line by line: the summary of the
architectural effect that claims compare the microprograms with. The meanings do not use it. -/

namespace Sys2Proof.Machine.Pseudo

variable {W M N : Nat}

/-! ### The primitives (spec 00 section 5). A line that can raise hands on to the lines after it. -/

/-- `adv()`. -/
def adv (s : State.Of W M N) : State.Of W M N := s.setPc (s.pc + 1)

/-- `w <- MemRead(pc, 1)` of a Word `w` of the instruction itself. -/
def own (w : BitVec W) (s : State.Of W M N) (rest : BitVec W → State.Of W M N → State.Of W M N) : State.Of W M N :=
  if legalMem M s.pc then rest w s else s.raise .outOfBoundsMem s.pc

/-- `v <- MemRead(addr, 1)`. -/
def memRead (addr : BitVec W) (s : State.Of W M N) (rest : BitVec W → State.Of W M N → State.Of W M N) : State.Of W M N :=
  if legalMem M addr then rest (s.mem.read addr.toNat) s else s.raise .outOfBoundsMem addr

/-- The address check of a write (R252). -/
def memCheck (addr : BitVec W) (s : State.Of W M N) (rest : State.Of W M N → State.Of W M N) : State.Of W M N :=
  if legalMem M addr then rest s else s.raise .outOfBoundsMem addr

/-- `MemWrite(addr, 1, v)`. -/
def memWrite (addr v : BitVec W) (s : State.Of W M N) (rest : State.Of W M N → State.Of W M N) : State.Of W M N :=
  if legalMem M addr then rest (s.setMem (s.mem.write addr.toNat v)) else s.raise .outOfBoundsMem addr

/-- `sel(i)`. -/
def sel (i : BitVec W) (s : State.Of W M N) (rest : State.Of W M N → State.Of W M N) : State.Of W M N :=
  if i.toInt < 0 then s.raise .outOfBoundsReg i else rest (s.setSel i)

/-- `v <- x[i]`. -/
def reg (i : BitVec W) (s : State.Of W M N) (rest : BitVec W → State.Of W M N → State.Of W M N) : State.Of W M N :=
  if legalReg N i then rest (s.readReg i) s else s.raise .outOfBoundsReg i

/-- `x[i] <- v`. -/
def regWrite (i v : BitVec W) (s : State.Of W M N) (rest : State.Of W M N → State.Of W M N) : State.Of W M N :=
  if legalReg N i then rest (s.writeReg i v) else s.raise .outOfBoundsReg i

/-- `flags_clear(); flags_update(res)`. -/
def flags (res : BitVec W) (s : State.Of W M N) : State.Of W M N := s.setFlags (flagsUpdate (flagsClear s.flags) res)

/-- The three lines before every block (R200), for a registered opcode word `w`; CU_STATE is FETCH
again when the block ends. -/
def block (w : BitVec W) (s : State.Of W M N) (rest : State.Of W M N → State.Of W M N) : State.Of W M N :=
  own w { s with cuState := .fetch } fun w s => rest (s.setIr w)

/-! ### The blocks. `op` is the arithmetic line: `s0 + s1` or `s0 - s1`. -/

/-- R221, R225. -/
def regReg (w : BitVec W) (op : BitVec W → BitVec W → BitVec W) (a b : BitVec W) (s : State.Of W M N) : State.Of W M N :=
  block w s fun s =>
  own a (adv s) fun A s =>
  sel A (s.setIr A) fun s =>
  reg A s fun s0 s =>
  own b (adv s) fun B s =>
  sel B s fun s =>
  reg B s fun s1 s =>
  let res := op s0 s1
  regWrite s.ir res (flags res s) adv

/-- R222, R226. -/
def memReg (w : BitVec W) (op : BitVec W → BitVec W → BitVec W) (a b : BitVec W) (s : State.Of W M N) : State.Of W M N :=
  block w s fun s =>
  own a (adv s) fun A s =>
  memRead A s fun v s =>
  let s0 := v
  own b (adv (s.setIr v)) fun B s =>
  sel B s fun s =>
  reg B s fun s1 s =>
  let res := op s0 s1
  regWrite B res (flags res s) adv

/-- R223, R227. -/
def regMem (w : BitVec W) (op : BitVec W → BitVec W → BitVec W) (a b : BitVec W) (s : State.Of W M N) : State.Of W M N :=
  block w s fun s =>
  own a (adv s) fun A s =>
  sel A s fun s =>
  reg A s fun s0 s =>
  own b (adv s) fun B s =>
  memRead B s fun v s =>
  let s1 := v
  let res := op s0 s1
  own b ((flags res (s.setIr v)).setIr res) fun B2 s =>
  memWrite B2 s.ir s adv

/-- R224, R228. -/
def immReg (w : BitVec W) (op : BitVec W → BitVec W → BitVec W) (a b : BitVec W) (s : State.Of W M N) : State.Of W M N :=
  block w s fun s =>
  own a (adv s) fun A s =>
  let s0 := A
  own b (adv (s.setIr A)) fun B s =>
  sel B s fun s =>
  reg B s fun s1 s =>
  let res := op s0 s1
  regWrite B res (flags res s) adv

/-- R229. -/
def inc (a : BitVec W) (s : State.Of W M N) : State.Of W M N :=
  block 15 s fun s =>
  own a (adv s) fun A s =>
  sel A s fun s =>
  reg A s fun s1 s =>
  let res := s1 + 1
  regWrite A res (flags res s) adv

/-- R251. -/
def moveMemReg (a b : BitVec W) (s : State.Of W M N) : State.Of W M N :=
  block 11 s fun s =>
  own a (adv s) fun A s =>
  memRead A s fun v s =>
  own b (adv (s.setIr v)) fun B s =>
  sel B s fun s =>
  regWrite B s.ir s adv

/-- R252. -/
def moveRegMem (a b : BitVec W) (s : State.Of W M N) : State.Of W M N :=
  block 12 s fun s =>
  own a (adv s) fun A s =>
  sel A s fun s =>
  own b (adv s) fun B s =>
  memCheck B s fun s =>
  reg A s fun v s =>
  memWrite B v s adv

/-- R253. -/
def moveRegReg (a b : BitVec W) (s : State.Of W M N) : State.Of W M N :=
  block 13 s fun s =>
  own a (adv s) fun A s =>
  sel A s fun s =>
  reg A s fun s0 s =>
  own b (adv s) fun B s =>
  sel B s fun s =>
  regWrite B s0 s adv

/-- R254. -/
def moveImmReg (a b : BitVec W) (s : State.Of W M N) : State.Of W M N :=
  block 14 s fun s =>
  own a (adv s) fun A s =>
  own b (adv (s.setIr A)) fun B s =>
  sel B s fun s =>
  regWrite B s.ir s adv

/-- R270. -/
def jmp (t : BitVec W) (s : State.Of W M N) : State.Of W M N :=
  block 16 s fun s =>
  own t (adv s) fun T s =>
  s.setPc T

/-- R271 (`flag` is NEGATIVE), R272 (`flag` is ZERO): the flag bit picks the cell. -/
def jcc (w : BitVec W) (flag : Nat) (t : BitVec W) (s : State.Of W M N) : State.Of W M N :=
  block w s fun s =>
  own t (adv s) fun T s =>
  let s := adv (s.setSm1 T)
  let s := s.setSm0 s.pc
  s.setPc (if s.flags.getLsbD flag then s.sm1 else s.sm0)

/-- `halt()` on a word `w` that is no registered opcode (R200, R311). -/
def halts (w : BitVec W) (s : State.Of W M N) : State.Of W M N :=
  own w s fun w s => (s.setIr w).halt

/-- The block of each row, with its operand Words. -/
def ofRow (o : Opcode) (a b : BitVec W) (s : State.Of W M N) : State.Of W M N :=
  match o with
  | .addRegReg => regReg 0 (· + ·) a b s
  | .addMemReg => memReg 1 (· + ·) a b s
  | .addRegMem => regMem 2 (· + ·) a b s
  | .addImmReg => immReg 3 (· + ·) a b s
  | .subRegReg => regReg 4 (· - ·) a b s
  | .subMemReg => memReg 5 (· - ·) a b s
  | .subRegMem => regMem 6 (· - ·) a b s
  | .subImmReg => immReg 7 (· - ·) a b s
  | .moveMemReg => moveMemReg a b s
  | .moveRegMem => moveRegMem a b s
  | .moveRegReg => moveRegReg a b s
  | .moveImmReg => moveImmReg a b s
  | .incReg => inc a s
  | .jmp => jmp a s
  | .jn => jcc 17 1 a s
  | .jz => jcc 18 0 a s
  | .reserved8 => halts 8 s
  | .reserved9 => halts 9 s
  | .reserved10 => halts 10 s
  | .jeq => halts 19 s
  | .jneq => halts 20 s
  | .jgt => halts 21 s
  | .jlw => halts 22 s

/-- The block of each instruction of the default machine. -/
def ofInstr (i : Instr) (s : State) : State := ofRow i.opcode i.first i.second s

/-- The whole pseudocode on the Words in Memory (R200): the word at PC picks the block, whose own
lines read the two Words after it. -/
def atPc (s : State.Of W M N) : State.Of W M N :=
  let w := s.mem.read s.pc.toNat
  let a := s.mem.read (s.pc + 1).toNat
  let b := s.mem.read (s.pc + 2).toNat
  match w.toNat with
  | 0 => ofRow .addRegReg a b s
  | 1 => ofRow .addMemReg a b s
  | 2 => ofRow .addRegMem a b s
  | 3 => ofRow .addImmReg a b s
  | 4 => ofRow .subRegReg a b s
  | 5 => ofRow .subMemReg a b s
  | 6 => ofRow .subRegMem a b s
  | 7 => ofRow .subImmReg a b s
  | 11 => ofRow .moveMemReg a b s
  | 12 => ofRow .moveRegMem a b s
  | 13 => ofRow .moveRegReg a b s
  | 14 => ofRow .moveImmReg a b s
  | 15 => ofRow .incReg a b s
  | 16 => ofRow .jmp a b s
  | 17 => ofRow .jn a b s
  | 18 => ofRow .jz a b s
  | _ => halts w s

end Sys2Proof.Machine.Pseudo
end

