-- ==== Sys2Proof/Safety.lean ====
section
/-! DEFINITION. The terms that claims about runs use: boundaries, running states, the invariant of
the machine, and the architectural part of a state. -/

namespace Sys2Proof.Machine

variable {W M N : Nat}

/-- The machine is at an instruction boundary and runs (R200, R343): the state in which a step takes
the instruction at PC. -/
def State.Of.ready (s : State.Of W M N) : Prop := s.upc = 0 ∧ s.cuState = .fetch

/-- What holds of every state between two instructions and of every stopped state.
Memory is canonical (R80). SEL is never negative (R39). A running machine is at the first
micro-operation of FETCH with no request pending (R50, R51) and no fault recorded (R312). A halted one
stands at DECODE (R311), with no fault recorded and a word in IR that no microprogram belongs to.
A faulted one shows one of the two causes that this hardware can raise (R314 to R318), at a UPC inside
the ROM (R318). A pending request names a cell (R82). -/
structure State.Of.Inv (s : State.Of W M N) : Prop where
  memory : s.mem.wf M
  selector : 0 ≤ s.sel.toInt
  rom : s.upc.toNat < rom.length
  request : s.marValid = true → legalMem M s.mar = true ∧ s.cuState = .fault
  running : s.stopped = false → s.ready
  noFault : s.cuState ≠ .fault → s.faultCause = .none ∧ s.faultInfo = 0
  halted : s.cuState = .halt → s.upc = 4 ∧ dispatch s.ir = none
  faulted : s.cuState = .fault → s.faultCause = .outOfBoundsMem ∨ s.faultCause = .outOfBoundsReg

/-- Two states agree on everything a program can see (R51): the general registers, PC, IR, FLAGS,
Memory, and whether and how the machine has stopped. The hidden elements (EXT, INT, S0, S1, SEL, MAR,
MAR_VALID, SM, UPC) may differ. -/
def archEq (s t : State.Of W M N) : Prop :=
  s.gpr = t.gpr ∧ s.pc = t.pc ∧ s.ir = t.ir ∧ s.flags = t.flags ∧ s.mem = t.mem ∧
    s.cuState = t.cuState ∧ s.faultCause = t.faultCause ∧ s.faultInfo = t.faultInfo

/-- All three Words of a two-operand instruction at PC lie in Memory (R120, R314). -/
def State.Of.fits3 (s : State.Of W M N) : Prop :=
  legalMem M s.pc = true ∧ legalMem M (s.pc + 1) = true ∧ legalMem M (s.pc + 2) = true

/-- Both Words of a one-operand instruction at PC lie in Memory (R120, R314). -/
def State.Of.fits2 (s : State.Of W M N) : Prop :=
  legalMem M s.pc = true ∧ legalMem M (s.pc + 1) = true

/-- Nothing that a program computes with has changed: the general registers, FLAGS and Memory (R322). -/
def commitsNothing (s t : State.Of W M N) : Prop :=
  t.gpr = s.gpr ∧ t.flags = s.flags ∧ t.mem = s.mem

/-- The machine has stopped in FAULT with this cause and information (R313). -/
def State.Of.faultedWith (t : State.Of W M N) (c : FaultCause) (info : BitVec W) : Prop :=
  t.cuState = .fault ∧ t.faultCause = c ∧ t.faultInfo = info

/-- The state after the trailing PCADV and END of a non-jump microprogram (R193, R197 b), from the state
`s` right after the commit, with what EXT, S0, SEL and MAR are left holding. -/
def State.Of.ended (s : State.Of W M N) (ext s0 sel mar : BitVec W) : State.Of W M N :=
  { s with
    pc := s.pc + 1
    extBus := ext
    intBus := s.pc + 1
    s0 := s0
    s1 := s.pc + 1
    sel := sel
    mar := mar
    marValid := false
    upc := 0
    cuState := .fetch }

/-- The state after FETCH of the word `w` at PC and the DECODE that finds no microprogram for it (R311). -/
def State.Of.haltedOn (s : State.Of W M N) (w : BitVec W) : State.Of W M N :=
  { s with ir := w, extBus := w, mar := s.pc, marValid := false, upc := 4, cuState := .halt }

/-- The state after a FETCH whose request raises at PC (R190, R314 a). -/
def State.Of.fetchFaulted (s : State.Of W M N) : State.Of W M N :=
  { s with extBus := s.pc, upc := 1, cuState := .fault, faultCause := .outOfBoundsMem, faultInfo := s.pc }

/-- The dispatch table as the spec prints it (R291): the sixteen registered opcodes and the first ROM
address of each. -/
def dispatchTable : List (Int × MicroAddr) :=
  [(0, 5), (1, 41), (2, 76), (3, 117), (4, 150), (5, 186), (6, 221), (7, 262),
   (11, 295), (12, 323), (13, 349), (14, 377), (15, 403), (16, 425), (17, 435), (18, 454)]

/-- The opcode word is registered (R122, R127). -/
def registered (w : BitVec W) : Prop := w.toInt ∈ dispatchTable.map Prod.fst

/-- CU_STATE is what UPC says while the machine runs (R50, R150). -/
def State.Of.phased (s : State.Of W M N) : Prop :=
  s.cuState = .halt ∨ s.cuState = .fault ∨ (s.upc.toNat ≤ 3 ∧ s.cuState = .fetch) ∨
    (s.upc.toNat = 4 ∧ s.cuState = .decode) ∨ (5 ≤ s.upc.toNat ∧ s.cuState = .execute)

/-- The control words at UPC are these (R292). -/
def State.Of.atCodes (s : State.Of W M N) (codes : List ControlWord) : Prop :=
  s.stopped = false ∧ (rom.drop s.upc.toNat).take codes.length = codes

/-- The nine instructions that set the flags (R36). -/
def isArithmetic : Instr → Bool
  | .addRegReg _ _ => true
  | .addMemReg _ _ => true
  | .addRegMem _ _ => true
  | .addImmReg _ _ => true
  | .subRegReg _ _ => true
  | .subMemReg _ _ => true
  | .subRegMem _ _ => true
  | .subImmReg _ _ => true
  | .moveMemReg _ _ => false
  | .moveRegMem _ _ => false
  | .moveRegReg _ _ => false
  | .moveImmReg _ _ => false
  | .incReg _ => true
  | .jmp _ => false
  | .jn _ => false
  | .jz _ => false
  | .reserved8 => false
  | .reserved9 => false
  | .reserved10 => false
  | .jeq => false
  | .jneq => false
  | .jgt => false
  | .jlw => false

/-- The three jumps (R270 to R272). -/
def isJump : Instr → Bool
  | .addRegReg _ _ => false
  | .addMemReg _ _ => false
  | .addRegMem _ _ => false
  | .addImmReg _ _ => false
  | .subRegReg _ _ => false
  | .subMemReg _ _ => false
  | .subRegMem _ _ => false
  | .subImmReg _ _ => false
  | .moveMemReg _ _ => false
  | .moveRegMem _ _ => false
  | .moveRegReg _ _ => false
  | .moveImmReg _ _ => false
  | .incReg _ => false
  | .jmp _ => true
  | .jn _ => true
  | .jz _ => true
  | .reserved8 => false
  | .reserved9 => false
  | .reserved10 => false
  | .jeq => false
  | .jneq => false
  | .jgt => false
  | .jlw => false

/-- The microprogram of each row after FETCH and DECODE (R292), with its operand Words; a halting word has none. -/
def programOfRow (o : Opcode) (a b : BitVec W) : List (Item W) :=
  match o with
  | .addRegReg => addRegRegProgram a b
  | .addMemReg => addMemRegProgram a b
  | .addRegMem => addRegMemProgram a b
  | .addImmReg => addImmRegProgram a b
  | .subRegReg => subRegRegProgram a b
  | .subMemReg => subMemRegProgram a b
  | .subRegMem => subRegMemProgram a b
  | .subImmReg => subImmRegProgram a b
  | .moveMemReg => moveMemRegProgram a b
  | .moveRegMem => moveRegMemProgram a b
  | .moveRegReg => moveRegRegProgram a b
  | .moveImmReg => moveImmRegProgram a b
  | .incReg => incRegProgram a
  | .jmp => jmpProgram a
  | .jn => jnProgram a
  | .jz => jzProgram a
  | .reserved8 => []
  | .reserved9 => []
  | .reserved10 => []
  | .jeq => []
  | .jneq => []
  | .jgt => []
  | .jlw => []

/-- The microprogram of each instruction of the default machine. -/
def programOf (i : Instr) : List (Item 32) := programOfRow i.opcode i.first i.second

/-- The register an instruction's microprogram stores its result into (R125). -/
def destReg : Instr → Option RegId
  | .addRegReg a _ => some a
  | .addMemReg _ b => some b
  | .addRegMem _ _ => none
  | .addImmReg _ b => some b
  | .subRegReg a _ => some a
  | .subMemReg _ b => some b
  | .subRegMem _ _ => none
  | .subImmReg _ b => some b
  | .moveMemReg _ b => some b
  | .moveRegMem _ _ => none
  | .moveRegReg _ b => some b
  | .moveImmReg _ b => some b
  | .incReg a => some a
  | .jmp _ => none
  | .jn _ => none
  | .jz _ => none
  | .reserved8 => none
  | .reserved9 => none
  | .reserved10 => none
  | .jeq => none
  | .jneq => none
  | .jgt => none
  | .jlw => none

/-- The address of the cell an instruction's microprogram stores its result into (R125). -/
def destMem : Instr → Option MemAddr
  | .addRegReg _ _ => none
  | .addMemReg _ _ => none
  | .addRegMem _ b => some b
  | .addImmReg _ _ => none
  | .subRegReg _ _ => none
  | .subMemReg _ _ => none
  | .subRegMem _ b => some b
  | .subImmReg _ _ => none
  | .moveMemReg _ _ => none
  | .moveRegMem _ b => some b
  | .moveRegReg _ _ => none
  | .moveImmReg _ _ => none
  | .incReg _ => none
  | .jmp _ => none
  | .jn _ => none
  | .jz _ => none
  | .reserved8 => none
  | .reserved9 => none
  | .reserved10 => none
  | .jeq => none
  | .jneq => none
  | .jgt => none
  | .jlw => none

/-- The Words stand in Memory from PC on (R120). -/
def State.Of.holdsWords (s : State.Of W M N) (ws : List (BitVec W)) : Prop :=
  ∀ k : Nat, ∀ h : k < ws.length,
    legalMem M (s.pc + BitVec.ofNat W k) = true ∧ s.mem.read (s.pc + BitVec.ofNat W k).toNat = ws[k]

/-- The Words of an instruction stand in Memory from PC on (R120), in the default machine. -/
def State.holdsInstr (s : State) (i : Instr) : Prop := s.holdsWords (encode i)

end Sys2Proof.Machine
end

