-- ==== Sys2Proof/Certificates/Slice0/Obligations.lean ====
section
/-! DEFINITION. The statements for the provers. Each docstring says what its statement formalises; the
rules are named in OBLIGATIONS.json. Where a statement quantifies over W, M and N they are WORD_BITS, MEM_SIZE
and NGPR (R5 to R7); the other statements are about the default machine, whose step is `step`. -/

open Sys2Proof Sys2Proof.Machine

/-- For every instruction i, with every operand at every Word value, and every list of Words after it, decode
of encode i followed by that list is i and that list. No well-formedness is assumed: an illegal operand value
is still encoded and decoded (R124, R130). The same holds of the row and operand Words for every legal value
of WORD_BITS, where an operand Word the format has no place for decodes as 0. (R120, R121, R124) -/
def Obligations.DecodeEncodeRoundTrip : Prop :=
  (∀ (i : Instr) (rest : List Word), decode (encode i ++ rest) = .ok (i, rest)) ∧
  ∀ (W : Nat), 8 ≤ W → ∀ (o : Opcode) (a b : BitVec W) (rest : List (BitVec W)),
    decodeWords (encodeWords o a b ++ rest) =
      .ok (o, if o.format = .f0 then 0 else a, if o.format = .f2 then b else 0, rest)

/-- If a list of Words decodes to an instruction i with some Words left over, then the list is the encoding of
i followed by what is left over: no Word and no bit of a Word is dropped by decoding. The same holds of the
row and operand Words for every legal value of WORD_BITS. (R121, R129) -/
def Obligations.EncodeDecodeRoundTrip : Prop :=
  (∀ (ws : List Word) (i : Instr) (rest : List Word), decode ws = .ok (i, rest) → ws = encode i ++ rest) ∧
  ∀ (W : Nat), 8 ≤ W → ∀ (ws : List (BitVec W)) (o : Opcode) (a b : BitVec W) (rest : List (BitVec W)),
    decodeWords ws = .ok (o, a, b, rest) → ws = encodeWords o a b ++ rest

/-- A Word w is dispatched to the ROM address u exactly when (the signed value of w, u) is one of the sixteen
rows of the dispatch table; every other Word has no entry. It holds for every legal value of WORD_BITS. (R291,
R122) -/
def Obligations.DispatchTableIsTheSpecs : Prop :=
  ∀ W : Nat, 8 ≤ W → ∀ (w : BitVec W) (u : MicroAddr), dispatch w = some u ↔ (w.toInt, u) ∈ dispatchTable

/-- The Words 3, 5, 0 are addImmReg with operands 5 and 0; 0, 1, 2 are addRegReg 1, 2; 12, 1, 50 are
moveRegMem 1, 50; 15, 2 are incReg 2; 18, 0 are jz 0; 19 is jeq (R126); the Word -1 is no instruction; 16
alone is truncated. Two things here are the model's choice and no rule of the spec (log 13): that a reserved
row such as 19 decodes to an instruction while another Word that halts, such as -1, decodes to none; and what
the decoder answers when operand Words are missing. (R125, R126, R131, R132) -/
def Obligations.SpecWordsDecode : Prop :=
  decode [3, 5, 0] = .ok (.addImmReg 5 0, []) ∧
  decode [0, 1, 2] = .ok (.addRegReg 1 2, []) ∧
  decode [12, 1, 50] = .ok (.moveRegMem 1 50, []) ∧
  decode [15, 2] = .ok (.incReg 2, []) ∧
  decode [18, 0] = .ok (.jz 0, []) ∧
  decode [19] = .ok (.jeq, []) ∧
  decode [-1] = .error (.unregistered (-1)) ∧
  decode [16] = .error (.truncated .jmp)

/-- At an instruction boundary, if the Words of an instruction i lie in Memory from PC on, the step is exec of
i at that state, and nothing is added around it. (R200, R120) -/
def Obligations.StepRunsDecodedInstruction : Prop :=
  ∀ (i : Instr) (s : State), s.ready → s.holdsInstr i → step s = exec i s

/-- If Memory is canonical and the decoder reads i from a table word, the step at the state with that word
placed is exec of i at that state. The placing is the model's own harness (log 11). (R200, R342) -/
def Obligations.FetchWordRunsNext : Prop :=
  ∀ (s : State) (nbits w : Nat) (i : Instr), s.mem.wf Config.memSize → decodeTableWord nbits w = some i →
    step (s.withFetchWord nbits w) = exec i (s.withFetchWord nbits w)

/-- At every instruction boundary, whatever Memory and the registers hold, the step answers the state that the
micro-operations of the ROM reach at the next END, halting DECODE or fatal error: every field agrees, the
hidden ones too. So does the step that takes the parameters as arguments, for every legal value of WORD_BITS,
MEM_SIZE and NGPR; on the default machine it is the step. (R200, R151, R292) -/
def Obligations.StepRefinesMicroprogramRom : Prop :=
  (∀ s : State, s.ready → step s = .next (runToBoundary maxSteps s)) ∧
  (∀ s : State, step s = stepRow s) ∧
  ∀ W M N : Nat, Config.Legal W M N → ∀ s : State.Of W M N, s.ready →
    stepRow s = .next (runToBoundary maxSteps s)

/-- At every instruction boundary the step answers a next state that agrees on the general registers, PC, IR,
FLAGS, Memory, CU_STATE, FAULT_CAUSE and FAULT_INFO with the pseudocode block that the word at PC selects,
faults and partial effects included. So does the step that takes the parameters as arguments, for every legal
value of WORD_BITS, MEM_SIZE and NGPR. (R200, R125, R321, R322) -/
def Obligations.StepIsPseudocode : Prop :=
  (∀ s : State, s.ready → ∃ t, step s = .next t ∧ archEq t (Pseudo.atPc s)) ∧
  ∀ W M N : Nat, Config.Legal W M N → ∀ s : State.Of W M N, s.ready →
    ∃ t, stepRow s = .next t ∧ archEq t (Pseudo.atPc s)

/-- If an instruction i stands at PC at a boundary and exec of i ends without a fatal error in t, then t is
the state after as many micro-operations as the table gives i (5 for a halting word). (R349, R291, R311) -/
def Obligations.CompletedInstructionStepCount : Prop :=
  ∀ (i : Instr) (s t : State), s.ready → s.holdsInstr i → exec i s = .next t → t.cuState ≠ .fault →
    microRun (stepsOf i.opcode) s = t

/-- State.reset satisfies the invariant of the machine, and so does the reset state for every legal value of
WORD_BITS, MEM_SIZE and NGPR. (R55, R341) -/
def Obligations.InvHoldsAtReset : Prop :=
  State.reset.Inv ∧ ∀ W M N : Nat, Config.Legal W M N → (State.Of.reset : State.Of W M N).Inv

/-- If a state satisfies the invariant (canonical Memory; SEL not negative; UPC inside the ROM; a running
machine at the start of FETCH with no request pending and no fault recorded; a halted one at DECODE; a faulted
one with OutOfBoundsMem or OutOfBoundsReg) and a step answers a next state, that state satisfies it. The same
holds of the step that takes the parameters as arguments, for every legal value of WORD_BITS, MEM_SIZE and
NGPR. (R80, R39, R51, R311, R312, R316, R317, R318) -/
def Obligations.StepKeepsInv : Prop :=
  (∀ s t : State, s.Inv → step s = .next t → t.Inv) ∧
  ∀ W M N : Nat, Config.Legal W M N → ∀ s t : State.Of W M N, s.Inv → stepRow s = .next t → t.Inv

/-- Two states at an instruction boundary that agree on the architectural state, whatever EXT, INT, S0, S1,
SEL, MAR, MAR_VALID and SM hold in each, step to next states that agree on the architectural state. The same
holds of the step that takes the parameters as arguments, for every legal value of WORD_BITS, MEM_SIZE and
NGPR. (R51, R200, R293) -/
def Obligations.HiddenStateNotObservable : Prop :=
  (∀ s s' : State, s.ready → s'.ready → archEq s s' →
    ∃ t t', step s = .next t ∧ step s' = .next t' ∧ archEq t t') ∧
  ∀ W M N : Nat, Config.Legal W M N → ∀ s s' : State.Of W M N, s.ready → s'.ready → archEq s s' →
    ∃ t t', stepRow s = .next t ∧ stepRow s' = .next t' ∧ archEq t t'

/-- In a stopped state the step answers the same state (the model's reading, log 5), no number of
micro-operations changes it, and run() ends with the result the state shows. The same holds for every legal
value of WORD_BITS, MEM_SIZE and NGPR. (R151, R323, R198) -/
def Obligations.StoppedStatesAreTerminal : Prop :=
  (∀ s : State, s.stopped = true → step s = .next s) ∧
  ∀ W M N : Nat, Config.Legal W M N → ∀ (s : State.Of W M N) (n : Nat), s.stopped = true →
    stepRow s = .next s ∧ microRun n s = s ∧ run n s = resultOf s

/-- A clock edge with rst = 1 answers the block with its core in the reset state and no run begun, whatever
the machine was doing and whatever the other inputs are, for every legal value of WORD_BITS, MEM_SIZE and
NGPR. The reset values of EXT and INT in it are the model's (log 2), and so is the note that no run has begun
(log 10). (R340, R341) -/
def Obligations.ResetFromAnyState : Prop :=
  ∀ W M N : Nat, Config.Legal W M N → ∀ (i : Inputs W) (b : Block W M N), i.rst = true →
    clockEdge i b = ⟨State.Of.reset, false⟩

/-- After reset every general register, PC, IR, FLAGS, S0, S1, SEL, MAR, SM[0], SM[1], FAULT_INFO are 0,
MAR_VALID is 0, every cell reads 0, UPC is 0, CU_STATE is FETCH and no fault cause is recorded. Nothing is
said of EXT and INT, which the rule leaves unspecified. It holds for every legal value of WORD_BITS, MEM_SIZE
and NGPR, and State.reset is that state at the default values. (R55) -/
def Obligations.ResetStateValues : Prop :=
  State.reset = State.Of.reset ∧
  ∀ W M N : Nat, Config.Legal W M N → ∀ r : State.Of W M N, r = State.Of.reset →
    (∀ k : Fin N, r.gpr[k] = 0) ∧ r.pc = 0 ∧ r.ir = 0 ∧ r.flags = 0 ∧ (∀ a : Nat, r.mem.read a = 0) ∧
    r.s0 = 0 ∧ r.s1 = 0 ∧ r.sel = 0 ∧ r.mar = 0 ∧ r.marValid = false ∧ r.sm0 = 0 ∧ r.sm1 = 0 ∧
    r.upc = 0 ∧ r.cuState = .fetch ∧ r.faultCause = .none ∧ r.faultInfo = 0

/-- END sets UPC to 0 and CU_STATE to FETCH and changes nothing else. DECODE, with IR one of the sixteen
registered opcodes, sets UPC to its table entry and CU_STATE to EXECUTE; with any other Word it sets CU_STATE
to HALT; it changes nothing else. It holds for every legal value of WORD_BITS, MEM_SIZE and NGPR. (R154, R155)
-/
def Obligations.SequencerMicroOps : Prop :=
  ∀ W M N : Nat, Config.Legal W M N → ∀ s : State.Of W M N,
    MicroOp.endOp.perform s = { s with upc := 0, cuState := .fetch } ∧
    (∀ u, (s.ir.toInt, u) ∈ dispatchTable →
      MicroOp.decode.perform s = { s with upc := u, cuState := .execute }) ∧
    (¬ registered s.ir → MicroOp.decode.perform s = { s with cuState := .halt })

/-- PC_RD_EXT, PC_RD_INT, IR_RD_EXT, IR_RD_INT put the register on the bus; PC_ST_EXT, PC_ST_INT, IR_ST_EXT,
IR_ST_INT store the bus into the register, without a check; each moves UPC on by one (with CU_STATE following
it) and changes nothing else. It holds for every legal value of WORD_BITS, MEM_SIZE and NGPR. (R156, R157,
R158, R159, R160, R161, R162, R163) -/
def Obligations.RegisterTransferMicroOps : Prop :=
  ∀ W M N : Nat, Config.Legal W M N → ∀ s : State.Of W M N,
    MicroOp.pcRdExt.perform s = ({ s with extBus := s.pc } : State.Of W M N).seqTo (s.upc + 1) ∧
    MicroOp.pcStExt.perform s = ({ s with pc := s.extBus } : State.Of W M N).seqTo (s.upc + 1) ∧
    MicroOp.pcRdInt.perform s = ({ s with intBus := s.pc } : State.Of W M N).seqTo (s.upc + 1) ∧
    MicroOp.pcStInt.perform s = ({ s with pc := s.intBus } : State.Of W M N).seqTo (s.upc + 1) ∧
    MicroOp.irRdExt.perform s = ({ s with extBus := s.ir } : State.Of W M N).seqTo (s.upc + 1) ∧
    MicroOp.irStExt.perform s = ({ s with ir := s.extBus } : State.Of W M N).seqTo (s.upc + 1) ∧
    MicroOp.irRdInt.perform s = ({ s with intBus := s.ir } : State.Of W M N).seqTo (s.upc + 1) ∧
    MicroOp.irStInt.perform s = ({ s with ir := s.intBus } : State.Of W M N).seqTo (s.upc + 1)

/-- File indices 0 to NGPR-1 read and write the general registers, NGPR reads and writes PC, NGPR+1 IR and
NGPR+2 FLAGS, always the whole Word; a write changes the named register and nothing else. It holds for every
legal value of WORD_BITS, MEM_SIZE and NGPR; NREG is NGPR+3, and with the default NGPR = 4 NREG is 7 and the
three indices are 4, 5 and 6. (R7, R38) -/
def Obligations.RegisterFileIndexMap : Prop :=
  (Config.nreg = 7 ∧ Config.idxPC = 4 ∧ Config.idxIR = 5 ∧ Config.idxFLAGS = 6) ∧
  ∀ W M N : Nat, Config.Legal W M N → nregOf N = N + 3 ∧
    ∀ (s : State.Of W M N) (id v : BitVec W),
      (∀ k : Fin N, id.toNat = k → s.readReg id = s.gpr[k] ∧ s.writeReg id v = { s with gpr := s.gpr.set k v }) ∧
      (id.toNat = N → s.readReg id = s.pc ∧ s.writeReg id v = { s with pc := v }) ∧
      (id.toNat = N + 1 → s.readReg id = s.ir ∧ s.writeReg id v = { s with ir := v }) ∧
      (id.toNat = N + 2 → s.readReg id = s.flags ∧ s.writeReg id v = { s with flags := v })

/-- SEL_LATCH raises OutOfBoundsReg(EXT) on a negative EXT and else latches it, without an upper bound. With
SEL not negative, RF_RD_EXT, RF_ST_EXT, RF_RD_INT and RF_ST_INT raise OutOfBoundsReg(SEL) when SEL is NREG or
more, and else move the selected register to or from the bus; nothing else changes but UPC and CU_STATE. It
holds for every legal value of WORD_BITS, MEM_SIZE and NGPR. (R164, R165, R166, R167, R168) -/
def Obligations.RegisterFileMicroOps : Prop :=
  ∀ W M N : Nat, Config.Legal W M N → ∀ s : State.Of W M N,
    (s.extBus.toInt < 0 → MicroOp.selLatch.perform s = s.raise .outOfBoundsReg s.extBus) ∧
    (0 ≤ s.extBus.toInt →
      MicroOp.selLatch.perform s = ({ s with sel := s.extBus } : State.Of W M N).seqTo (s.upc + 1)) ∧
    (nregOf N ≤ s.sel.toInt →
      MicroOp.rfRdExt.perform s = s.raise .outOfBoundsReg s.sel ∧
      MicroOp.rfStExt.perform s = s.raise .outOfBoundsReg s.sel ∧
      MicroOp.rfRdInt.perform s = s.raise .outOfBoundsReg s.sel ∧
      MicroOp.rfStInt.perform s = s.raise .outOfBoundsReg s.sel) ∧
    (0 ≤ s.sel.toInt → s.sel.toInt < nregOf N →
      MicroOp.rfRdExt.perform s = ({ s with extBus := s.readReg s.sel } : State.Of W M N).seqTo (s.upc + 1) ∧
      MicroOp.rfStExt.perform s = (s.writeReg s.sel s.extBus).seqTo (s.upc + 1) ∧
      MicroOp.rfRdInt.perform s = ({ s with intBus := s.readReg s.sel } : State.Of W M N).seqTo (s.upc + 1) ∧
      MicroOp.rfStInt.perform s = (s.writeReg s.sel s.intBus).seqTo (s.upc + 1))

/-- MEM_REQ raises OutOfBoundsMem(EXT) when EXT is negative or MEM_SIZE or more, and else latches EXT in MAR
and sets MAR_VALID. MEM_READ and MEM_WRITE raise NoRequest(0) when MAR_VALID is 0; else they move the cell at
MAR to EXT, respectively EXT to the cell, and clear MAR_VALID. A raise changes nothing else. It holds for
every legal value of WORD_BITS, MEM_SIZE and NGPR. (R169, R170, R171) -/
def Obligations.MemoryMicroOps : Prop :=
  ∀ W M N : Nat, Config.Legal W M N → ∀ s : State.Of W M N,
    (s.extBus.toInt < 0 ∨ M ≤ s.extBus.toInt →
      MicroOp.memReq.perform s = s.raise .outOfBoundsMem s.extBus) ∧
    (0 ≤ s.extBus.toInt → s.extBus.toInt < M →
      MicroOp.memReq.perform s = ({ s with mar := s.extBus, marValid := true } : State.Of W M N).seqTo (s.upc + 1)) ∧
    (s.marValid = false → MicroOp.memRead.perform s = s.raise .noRequest 0 ∧
      MicroOp.memWrite.perform s = s.raise .noRequest 0) ∧
    (s.marValid = true →
      MicroOp.memRead.perform s =
        ({ s with extBus := s.mem.read s.mar.toNat, marValid := false } : State.Of W M N).seqTo (s.upc + 1) ∧
      MicroOp.memWrite.perform s =
        ({ s with mem := s.mem.write s.mar.toNat s.extBus, marValid := false } : State.Of W M N).seqTo (s.upc + 1))

/-- SM_ST0 and SM_ST1 store EXT into SM[0] and SM[1]; SM_SEL_Z and SM_SEL_N put SM[1] on EXT when ZERO,
respectively NEGATIVE, is 1 and SM[0] when it is 0; nothing else changes but UPC and CU_STATE. It holds for
every legal value of WORD_BITS, MEM_SIZE and NGPR. (R172, R173, R174, R175) -/
def Obligations.StatusMemoryMicroOps : Prop :=
  ∀ W M N : Nat, Config.Legal W M N → ∀ s : State.Of W M N,
    MicroOp.smSt0.perform s = ({ s with sm0 := s.extBus } : State.Of W M N).seqTo (s.upc + 1) ∧
    MicroOp.smSt1.perform s = ({ s with sm1 := s.extBus } : State.Of W M N).seqTo (s.upc + 1) ∧
    MicroOp.smSelZ.perform s =
      ({ s with extBus := if s.flags.getLsbD 0 then s.sm1 else s.sm0 } : State.Of W M N).seqTo (s.upc + 1) ∧
    MicroOp.smSelN.perform s =
      ({ s with extBus := if s.flags.getLsbD 1 then s.sm1 else s.sm0 } : State.Of W M N).seqTo (s.upc + 1)

/-- ALU_LD0 and ALU_LD1 load the slots from INT, ALU_EM0 and ALU_EM1 put them on INT; ALU_ADD, ALU_SUB and
ALU_INC write S1 with the sum, the difference S0 - S1 and S1 + 1, reduced modulo 2^W into the signed range;
nothing else changes but UPC and CU_STATE, FLAGS in particular. It holds for every legal value of WORD_BITS,
MEM_SIZE and NGPR. (R176, R177, R178, R179, R180, R181, R182, R43, R44, R45) -/
def Obligations.ArithmeticUnitMicroOps : Prop :=
  ∀ W M N : Nat, Config.Legal W M N → ∀ s : State.Of W M N,
    MicroOp.aluLd0.perform s = ({ s with s0 := s.intBus } : State.Of W M N).seqTo (s.upc + 1) ∧
    MicroOp.aluLd1.perform s = ({ s with s1 := s.intBus } : State.Of W M N).seqTo (s.upc + 1) ∧
    MicroOp.aluEm0.perform s = ({ s with intBus := s.s0 } : State.Of W M N).seqTo (s.upc + 1) ∧
    MicroOp.aluEm1.perform s = ({ s with intBus := s.s1 } : State.Of W M N).seqTo (s.upc + 1) ∧
    (∃ r : BitVec W, r.toInt = (s.s0.toInt + s.s1.toInt).bmod (2 ^ W) ∧
      MicroOp.aluAdd.perform s = ({ s with s1 := r } : State.Of W M N).seqTo (s.upc + 1)) ∧
    (∃ r : BitVec W, r.toInt = (s.s0.toInt - s.s1.toInt).bmod (2 ^ W) ∧
      MicroOp.aluSub.perform s = ({ s with s1 := r } : State.Of W M N).seqTo (s.upc + 1)) ∧
    (∃ r : BitVec W, r.toInt = (s.s1.toInt + 1).bmod (2 ^ W) ∧
      MicroOp.aluInc.perform s = ({ s with s1 := r } : State.Of W M N).seqTo (s.upc + 1))

/-- FLG_CLR clears bits 0 and 1 of FLAGS; FLG_UPD sets bit 0 to (INT == 0) and bit 1 to (INT < 0, signed);
every other bit of FLAGS and every other element is unchanged but UPC and CU_STATE. It holds for every legal
value of WORD_BITS, MEM_SIZE and NGPR. (R183, R184) -/
def Obligations.FlagMicroOps : Prop :=
  ∀ W M N : Nat, Config.Legal W M N → ∀ s : State.Of W M N,
    (∃ f : BitVec W, MicroOp.flgClr.perform s = ({ s with flags := f } : State.Of W M N).seqTo (s.upc + 1) ∧
      ∀ j < W, f.getLsbD j = if j < 2 then false else s.flags.getLsbD j) ∧
    (∃ f : BitVec W, MicroOp.flgUpd.perform s = ({ s with flags := f } : State.Of W M N).seqTo (s.upc + 1) ∧
      ∀ j < W, f.getLsbD j =
        if j = 0 then decide (s.intBus.toInt = 0)
        else if j = 1 then decide (s.intBus.toInt < 0)
        else s.flags.getLsbD j)

/-- At a boundary, with PC a valid address, the four micro-operations of FETCH leave the cell at PC in IR and
on EXT, PC in MAR, MAR_VALID 0, PC as it was, and the machine at DECODE. With PC outside Memory the second one
raises OutOfBoundsMem(PC): IR is unchanged and EXT holds PC. It holds for every legal value of WORD_BITS,
MEM_SIZE and NGPR. (R190) -/
def Obligations.FetchSequence : Prop :=
  ∀ W M N : Nat, Config.Legal W M N → ∀ s : State.Of W M N, s.ready →
    (legalMem M s.pc = true →
      let w := s.mem.read s.pc.toNat
      microRun 4 s =
        { s with ir := w, extBus := w, mar := s.pc, marValid := false, upc := 4, cuState := .decode }) ∧
    (legalMem M s.pc = false → microRun 2 s = s.fetchFaulted)

/-- Wherever the ROM holds the control words of PCADV, RDPC, DEREF or ARITH at UPC and the machine runs,
executing them has the effect the rule gives: PC advanced through S1 and INT; the cell at PC on EXT and PC in
MAR, or OutOfBoundsMem(pc) at MEM_REQ; the Word on EXT replaced by the cell it names, or OutOfBoundsMem(EXT);
S1 and INT the result and the flag bits set from it. OPF is PCADV followed by RDPC. It holds for every legal
value of WORD_BITS, MEM_SIZE and NGPR. (R192, R193, R194, R195, R196) -/
def Obligations.SharedSequencesInRom : Prop :=
  ∀ W M N : Nat, Config.Legal W M N → ∀ s : State.Of W M N,
    (s.atCodes [4, 23, 28, 25, 5] →
      microRun 5 s = ({ s with pc := s.pc + 1, s1 := s.pc + 1, intBus := s.pc + 1 } : State.Of W M N).seqTo (s.upc + 5)) ∧
    (s.atCodes [2, 15, 16] → legalMem M s.pc = true →
      microRun 3 s =
        ({ s with extBus := s.mem.read s.pc.toNat, mar := s.pc, marValid := false } : State.Of W M N).seqTo (s.upc + 3)) ∧
    (s.atCodes [2, 15, 16] → legalMem M s.pc = false →
      microRun 3 s = (({ s with extBus := s.pc } : State.Of W M N).seqTo (s.upc + 1)).raise .outOfBoundsMem s.pc) ∧
    (s.atCodes [15, 16] → legalMem M s.extBus = true →
      microRun 2 s =
        ({ s with extBus := s.mem.read s.extBus.toNat, mar := s.extBus, marValid := false } : State.Of W M N).seqTo
          (s.upc + 2)) ∧
    (s.atCodes [15, 16] → legalMem M s.extBus = false →
      microRun 2 s = s.raise .outOfBoundsMem s.extBus) ∧
    (∀ (op : ControlWord) (res : BitVec W),
      (op = 26 ∧ res = s.s0 + s.s1) ∨ (op = 27 ∧ res = s.s0 - s.s1) ∨ (op = 28 ∧ res = s.s1 + 1) →
      s.atCodes [29, op, 25, 30] →
      microRun 4 s =
        ({ s with s1 := res, intBus := res, flags := flagsUpdate s.flags res } : State.Of W M N).seqTo (s.upc + 4))

/-- If CU_STATE is FETCH for UPC 0 to 3, DECODE for 4 and EXECUTE from 5 on (or the machine has stopped), this
holds after a micro-operation too; and a running machine that is halted by a micro-operation was at UPC 4. It
holds for every legal value of WORD_BITS, MEM_SIZE and NGPR. (R150, R50) -/
def Obligations.PhaseFollowsUpc : Prop :=
  ∀ W M N : Nat, Config.Legal W M N → ∀ s : State.Of W M N, s.phased →
    (microStep s).phased ∧ (s.stopped = false → (microStep s).cuState = .halt → s.upc = 4)

/-- A running machine with UPC in 0..472 has, after a micro-operation, UPC in 0..472 again, and if that
micro-operation raised, the cause is not InvalidSlot, InvalidBit or InvalidMicroOp. A running machine with UPC
beyond the ROM (no reachable state) raises InvalidMicroOp and keeps UPC; what FAULT_INFO then shows is left
open (log 8). It holds for every legal value of WORD_BITS, MEM_SIZE and NGPR. (R316, R318, R290) -/
def Obligations.MicroStepStaysInRom : Prop :=
  ∀ W M N : Nat, Config.Legal W M N → ∀ s : State.Of W M N, s.stopped = false →
    (s.upc.toNat < 473 → (microStep s).upc.toNat < 473 ∧
      ((microStep s).cuState = .fault →
        (microStep s).faultCause ≠ .invalidSlot ∧ (microStep s).faultCause ≠ .invalidBit ∧
          (microStep s).faultCause ≠ .invalidMicroOp)) ∧
    (473 ≤ s.upc.toNat → ∃ info, microStep s = s.raise .invalidMicroOp info)

/-- When a micro-operation of a running machine ends in FAULT, CU_STATE, FAULT_CAUSE (not none) and FAULT_INFO
are all that has changed: UPC, the buses, every register, latch, slot and cell and MAR_VALID are as they were.
For OutOfBoundsMem the information is the Word on EXT, an illegal address; for OutOfBoundsReg it is EXT or
SEL, an illegal register ID; for NoRequest it is 0. It holds for every legal value of WORD_BITS, MEM_SIZE and
NGPR. (R313, R312) -/
def Obligations.FaultEntry : Prop :=
  ∀ W M N : Nat, Config.Legal W M N → ∀ s : State.Of W M N, s.stopped = false → (microStep s).cuState = .fault →
    ∃ c info, c ≠ FaultCause.none ∧
      microStep s = { s with cuState := .fault, faultCause := c, faultInfo := info } ∧
      (c = .outOfBoundsMem → info = s.extBus ∧ legalMem M info = false) ∧
      (c = .outOfBoundsReg → (info = s.extBus ∨ info = s.sel) ∧ legalReg N info = false) ∧
      (c = .noRequest → info = 0)

/-- With both register IDs legal (PC, IR and FLAGS among them, read and written at their point of the
microprogram) and its Words in Memory, addRegReg writes x[A] plus x[B] to the register A, sets ZERO and
NEGATIVE from it before that write, advances PC past three Words; the hidden elements are left as the rule
lists them. Its microprogram has 36 control words. On every other operand and every state it answers a next
state too, with the architectural effect of the rule's pseudocode, each fault at its line and every earlier
line done. (R221) -/
def Obligations.AddRegRegRule : Prop :=
  ∀ (a b : Word) (s : State),
    (programOf (.addRegReg a b)).length = 36 ∧
    (s.fits3 → legalReg Config.ngpr a = true → legalReg Config.ngpr b = true →
      let v1 := ({ s with pc := s.pc + 1, ir := a } : State).readReg a
      let v2 := ({ s with pc := s.pc + 2, ir := a } : State).readReg b
      let res := v1 + v2
      let done := ({ s with pc := s.pc + 2, ir := a, flags := flagsUpdate s.flags res } : State).writeReg a res
      exec (.addRegReg a b) s = .next
        (done.ended (ext := a) (s0 := v1) (sel := a) (mar := s.pc + 2))) ∧
    (∃ u, exec (.addRegReg a b) s = .next u ∧ archEq u (Pseudo.ofInstr (.addRegReg a b) s))

/-- With a legal address A, a legal register ID B and its Words in Memory, addMemReg writes cells[A] plus x[B]
to the register B, sets ZERO and NEGATIVE from it before that write, advances PC past three Words, leaves
Memory as it was; the hidden elements are left as the rule lists them. Its microprogram has 35 control words.
On every other operand and every state it answers a next state too, with the architectural effect of the
rule's pseudocode, each fault at its line and every earlier line done. (R222) -/
def Obligations.AddMemRegRule : Prop :=
  ∀ (a b : Word) (s : State),
    (programOf (.addMemReg a b)).length = 35 ∧
    (s.fits3 → legalMem Config.memSize a = true → legalReg Config.ngpr b = true →
      let v := s.mem.read a.toNat
      let res := v + ({ s with pc := s.pc + 2, ir := v } : State).readReg b
      let done := ({ s with pc := s.pc + 2, ir := v, flags := flagsUpdate s.flags res } : State).writeReg b res
      exec (.addMemReg a b) s = .next
        (done.ended (ext := b) (s0 := v) (sel := b) (mar := s.pc + 2))) ∧
    (∃ u, exec (.addMemReg a b) s = .next u ∧ archEq u (Pseudo.ofInstr (.addMemReg a b) s))

/-- With a legal register ID A, a legal address B and its Words in Memory, addRegMem writes x[A] plus cells[B]
to the cell B, sets ZERO and NEGATIVE from it, leaves it in IR, advances PC past three Words, changes no
general register; the hidden elements are left as the rule lists them. Its microprogram has 41 control words.
On every other operand and every state it answers a next state too, with the architectural effect of the
rule's pseudocode, each fault at its line and every earlier line done. (R223) -/
def Obligations.AddRegMemRule : Prop :=
  ∀ (a b : Word) (s : State),
    (programOf (.addRegMem a b)).length = 41 ∧
    (s.fits3 → legalReg Config.ngpr a = true → legalMem Config.memSize b = true →
      let v := ({ s with pc := s.pc + 1, ir := 2 } : State).readReg a
      let res := v + s.mem.read b.toNat
      let done : State := { s with
        pc := s.pc + 2, ir := res, flags := flagsUpdate s.flags res, mem := s.mem.write b.toNat res }
      exec (.addRegMem a b) s = .next
        (done.ended (ext := res) (s0 := v) (sel := a) (mar := b))) ∧
    (∃ u, exec (.addRegMem a b) s = .next u ∧ archEq u (Pseudo.ofInstr (.addRegMem a b) s))

/-- With a legal register ID B and its Words in Memory, addImmReg writes A plus x[B] to the register B,
whatever Word the immediate A is, sets ZERO and NEGATIVE from it before that write, advances PC past three
Words; the hidden elements are left as the rule lists them. Its microprogram has 33 control words. On every
other operand and every state it answers a next state too, with the architectural effect of the rule's
pseudocode, each fault at its line and every earlier line done. (R224) -/
def Obligations.AddImmRegRule : Prop :=
  ∀ (a b : Word) (s : State),
    (programOf (.addImmReg a b)).length = 33 ∧
    (s.fits3 → legalReg Config.ngpr b = true →
      let res := a + ({ s with pc := s.pc + 2, ir := a } : State).readReg b
      let done := ({ s with pc := s.pc + 2, ir := a, flags := flagsUpdate s.flags res } : State).writeReg b res
      exec (.addImmReg a b) s = .next
        (done.ended (ext := b) (s0 := a) (sel := b) (mar := s.pc + 2))) ∧
    (∃ u, exec (.addImmReg a b) s = .next u ∧ archEq u (Pseudo.ofInstr (.addImmReg a b) s))

/-- With both register IDs legal (PC, IR and FLAGS among them, read and written at their point of the
microprogram) and its Words in Memory, subRegReg writes x[A] minus x[B] to the register A, sets ZERO and
NEGATIVE from it before that write, advances PC past three Words; the hidden elements are left as the rule
lists them. Its microprogram has 36 control words. On every other operand and every state it answers a next
state too, with the architectural effect of the rule's pseudocode, each fault at its line and every earlier
line done. (R225) -/
def Obligations.SubRegRegRule : Prop :=
  ∀ (a b : Word) (s : State),
    (programOf (.subRegReg a b)).length = 36 ∧
    (s.fits3 → legalReg Config.ngpr a = true → legalReg Config.ngpr b = true →
      let v1 := ({ s with pc := s.pc + 1, ir := a } : State).readReg a
      let v2 := ({ s with pc := s.pc + 2, ir := a } : State).readReg b
      let res := v1 - v2
      let done := ({ s with pc := s.pc + 2, ir := a, flags := flagsUpdate s.flags res } : State).writeReg a res
      exec (.subRegReg a b) s = .next
        (done.ended (ext := a) (s0 := v1) (sel := a) (mar := s.pc + 2))) ∧
    (∃ u, exec (.subRegReg a b) s = .next u ∧ archEq u (Pseudo.ofInstr (.subRegReg a b) s))

/-- With a legal address A, a legal register ID B and its Words in Memory, subMemReg writes cells[A] minus
x[B] to the register B, sets ZERO and NEGATIVE from it before that write, advances PC past three Words, leaves
Memory as it was; the hidden elements are left as the rule lists them. Its microprogram has 35 control words.
On every other operand and every state it answers a next state too, with the architectural effect of the
rule's pseudocode, each fault at its line and every earlier line done. (R226) -/
def Obligations.SubMemRegRule : Prop :=
  ∀ (a b : Word) (s : State),
    (programOf (.subMemReg a b)).length = 35 ∧
    (s.fits3 → legalMem Config.memSize a = true → legalReg Config.ngpr b = true →
      let v := s.mem.read a.toNat
      let res := v - ({ s with pc := s.pc + 2, ir := v } : State).readReg b
      let done := ({ s with pc := s.pc + 2, ir := v, flags := flagsUpdate s.flags res } : State).writeReg b res
      exec (.subMemReg a b) s = .next
        (done.ended (ext := b) (s0 := v) (sel := b) (mar := s.pc + 2))) ∧
    (∃ u, exec (.subMemReg a b) s = .next u ∧ archEq u (Pseudo.ofInstr (.subMemReg a b) s))

/-- With a legal register ID A, a legal address B and its Words in Memory, subRegMem writes x[A] minus
cells[B] to the cell B, sets ZERO and NEGATIVE from it, leaves it in IR, advances PC past three Words, changes
no general register; the hidden elements are left as the rule lists them. Its microprogram has 41 control
words. On every other operand and every state it answers a next state too, with the architectural effect of
the rule's pseudocode, each fault at its line and every earlier line done. (R227) -/
def Obligations.SubRegMemRule : Prop :=
  ∀ (a b : Word) (s : State),
    (programOf (.subRegMem a b)).length = 41 ∧
    (s.fits3 → legalReg Config.ngpr a = true → legalMem Config.memSize b = true →
      let v := ({ s with pc := s.pc + 1, ir := 6 } : State).readReg a
      let res := v - s.mem.read b.toNat
      let done : State := { s with
        pc := s.pc + 2, ir := res, flags := flagsUpdate s.flags res, mem := s.mem.write b.toNat res }
      exec (.subRegMem a b) s = .next
        (done.ended (ext := res) (s0 := v) (sel := a) (mar := b))) ∧
    (∃ u, exec (.subRegMem a b) s = .next u ∧ archEq u (Pseudo.ofInstr (.subRegMem a b) s))

/-- With a legal register ID B and its Words in Memory, subImmReg writes A minus x[B] to the register B,
whatever Word the immediate A is, sets ZERO and NEGATIVE from it before that write, advances PC past three
Words; the hidden elements are left as the rule lists them. Its microprogram has 33 control words. On every
other operand and every state it answers a next state too, with the architectural effect of the rule's
pseudocode, each fault at its line and every earlier line done. (R228) -/
def Obligations.SubImmRegRule : Prop :=
  ∀ (a b : Word) (s : State),
    (programOf (.subImmReg a b)).length = 33 ∧
    (s.fits3 → legalReg Config.ngpr b = true →
      let res := a - ({ s with pc := s.pc + 2, ir := a } : State).readReg b
      let done := ({ s with pc := s.pc + 2, ir := a, flags := flagsUpdate s.flags res } : State).writeReg b res
      exec (.subImmReg a b) s = .next
        (done.ended (ext := b) (s0 := a) (sel := b) (mar := s.pc + 2))) ∧
    (∃ u, exec (.subImmReg a b) s = .next u ∧ archEq u (Pseudo.ofInstr (.subImmReg a b) s))

/-- With a legal register ID A and its Words in Memory, incReg adds 1 to the register A, sets ZERO and
NEGATIVE from the sum before it is written, advances PC past two Words, does not touch S0; the hidden elements
are left as the rule lists them. Its microprogram has 22 control words. On every other operand and every state
it answers a next state too, with the architectural effect of the rule's pseudocode, each fault at its line
and every earlier line done. (R229) -/
def Obligations.IncRegRule : Prop :=
  ∀ (a : Word) (s : State),
    (programOf (.incReg a)).length = 22 ∧
    (s.fits2 → legalReg Config.ngpr a = true →
      let res := ({ s with pc := s.pc + 1, ir := 15 } : State).readReg a + 1
      let done := ({ s with pc := s.pc + 1, ir := 15, flags := flagsUpdate s.flags res } : State).writeReg a res
      exec (.incReg a) s = .next
        (done.ended (ext := a) (s0 := s.s0) (sel := a) (mar := s.pc + 1))) ∧
    (∃ u, exec (.incReg a) s = .next u ∧ archEq u (Pseudo.ofInstr (.incReg a) s))

/-- With a legal address A, a legal register ID B and its Words in Memory, moveMemReg writes cells[A] to the
register B and to IR, advances PC past three Words, leaves FLAGS (unless B names it), Memory and S0 as they
were; the hidden elements are left as the rule lists them. Its microprogram has 28 control words. On every
other operand and every state it answers a next state too, with the architectural effect of the rule's
pseudocode, each fault at its line and every earlier line done. (R251) -/
def Obligations.MoveMemRegRule : Prop :=
  ∀ (a b : Word) (s : State),
    (programOf (.moveMemReg a b)).length = 28 ∧
    (s.fits3 → legalMem Config.memSize a = true → legalReg Config.ngpr b = true →
      let v := s.mem.read a.toNat
      let done := ({ s with pc := s.pc + 2, ir := v } : State).writeReg b v
      exec (.moveMemReg a b) s = .next
        (done.ended (ext := v) (s0 := s.s0) (sel := b) (mar := s.pc + 2))) ∧
    (∃ u, exec (.moveMemReg a b) s = .next u ∧ archEq u (Pseudo.ofInstr (.moveMemReg a b) s))

/-- With a legal register ID A, a legal address B and its Words in Memory, moveRegMem writes x[A] to the cell
B, advances PC past three Words, leaves FLAGS, the general registers and S0 as they were; the hidden elements
are left as the rule lists them. A register ID of NREG or more is detected only at the read that follows the
address request: the request stays pending, with MAR = B. Its microprogram has 26 control words. On every
other operand and every state it answers a next state too, with the architectural effect of the rule's
pseudocode, each fault at its line and every earlier line done. (R252) -/
def Obligations.MoveRegMemRule : Prop :=
  ∀ (a b : Word) (s : State),
    (programOf (.moveRegMem a b)).length = 26 ∧
    (s.fits3 → legalReg Config.ngpr a = true → legalMem Config.memSize b = true →
      let v := ({ s with pc := s.pc + 2, ir := 12 } : State).readReg a
      let done : State := { s with pc := s.pc + 2, ir := 12, mem := s.mem.write b.toNat v }
      exec (.moveRegMem a b) s = .next
        (done.ended (ext := v) (s0 := s.s0) (sel := a) (mar := b))) ∧
    (s.fits3 → Config.nreg ≤ a.toInt → legalMem Config.memSize b = true →
      exec (.moveRegMem a b) s = .next
        { s with
          pc := s.pc + 2, ir := 12, extBus := b, intBus := s.pc + 2, s1 := s.pc + 2, sel := a, mar := b,
          marValid := true, upc := 341, cuState := .fault, faultCause := .outOfBoundsReg, faultInfo := a }) ∧
    (∃ u, exec (.moveRegMem a b) s = .next u ∧ archEq u (Pseudo.ofInstr (.moveRegMem a b) s))

/-- With both register IDs legal and its Words in Memory, moveRegReg writes x[A] to the register B, the second
operand, advances PC past three Words, leaves FLAGS (unless B names it) as it was; the hidden elements are
left as the rule lists them. Its microprogram has 28 control words. On every other operand and every state it
answers a next state too, with the architectural effect of the rule's pseudocode, each fault at its line and
every earlier line done. (R253) -/
def Obligations.MoveRegRegRule : Prop :=
  ∀ (a b : Word) (s : State),
    (programOf (.moveRegReg a b)).length = 28 ∧
    (s.fits3 → legalReg Config.ngpr a = true → legalReg Config.ngpr b = true →
      let v := ({ s with pc := s.pc + 1, ir := 13 } : State).readReg a
      let done := ({ s with pc := s.pc + 2, ir := 13 } : State).writeReg b v
      exec (.moveRegReg a b) s = .next
        (done.ended (ext := b) (s0 := v) (sel := b) (mar := s.pc + 2))) ∧
    (∃ u, exec (.moveRegReg a b) s = .next u ∧ archEq u (Pseudo.ofInstr (.moveRegReg a b) s))

/-- With a legal register ID B and its Words in Memory, moveImmReg writes the Word A to the register B and to
IR, advances PC past three Words, leaves FLAGS (unless B names it) and S0 as they were; the hidden elements
are left as the rule lists them. Reading B back yields exactly A, and A + 1 when B is PC. Its microprogram has
26 control words. On every other operand and every state it answers a next state too, with the architectural
effect of the rule's pseudocode, each fault at its line and every earlier line done. (R254) -/
def Obligations.MoveImmRegRule : Prop :=
  ∀ (a b : Word) (s : State),
    (programOf (.moveImmReg a b)).length = 26 ∧
    (s.fits3 → legalReg Config.ngpr b = true →
      let done := ({ s with pc := s.pc + 2, ir := a } : State).writeReg b a
      exec (.moveImmReg a b) s = .next
        (done.ended (ext := a) (s0 := s.s0) (sel := b) (mar := s.pc + 2))) ∧
    (s.fits3 → legalReg Config.ngpr b = true →
      ∃ u, exec (.moveImmReg a b) s = .next u ∧ u.readReg b = if b = BitVec.ofNat 32 Config.idxPC then a + 1 else a) ∧
    (∃ u, exec (.moveImmReg a b) s = .next u ∧ archEq u (Pseudo.ofInstr (.moveImmReg a b) s))

/-- With its Words in Memory, jmp sets PC to T, whatever Word T is and whatever FLAGS holds, and leaves FLAGS,
the general registers, Memory, S0, SEL and SM as they were; the other hidden elements are left as the rule
lists them. Its microprogram has 10 control words. On every other operand and every state it answers a next
state too, with the architectural effect of the rule's pseudocode, each fault at its line and every earlier
line done. (R270) -/
def Obligations.JmpRule : Prop :=
  ∀ (t : Word) (s : State),
    (programOf (.jmp t)).length = 10 ∧
    (s.fits2 →
      exec (.jmp t) s = .next
        { s with
          pc := t, ir := 16, extBus := t, intBus := s.pc + 1, s1 := s.pc + 1, mar := s.pc + 1, marValid := false,
          upc := 0, cuState := .fetch }) ∧
    (∃ u, exec (.jmp t) s = .next u ∧ archEq u (Pseudo.ofInstr (.jmp t) s))

/-- With its Words in Memory, jn sets PC to T when NEGATIVE is 1 and to the address after its operand when it
is 0, for every T and every FLAGS, leaves both addresses in SM, and leaves FLAGS, the general registers,
Memory, S0 and SEL as they were; the other hidden elements are left as the rule lists them. Its microprogram
has 19 control words. On every other operand and every state it answers a next state too, with the
architectural effect of the rule's pseudocode, each fault at its line and every earlier line done. A fault
leaves SM as it was. (R271) -/
def Obligations.JnRule : Prop :=
  ∀ (t : Word) (s : State),
    (programOf (.jn t)).length = 19 ∧
    (s.fits2 →
      let target := if s.flags.getLsbD 1 then t else s.pc + 2
      exec (.jn t) s = .next
        { s with
          pc := target, ir := 17, sm0 := s.pc + 2, sm1 := t, extBus := target, intBus := s.pc + 2,
          s1 := s.pc + 2, mar := s.pc + 1, marValid := false, upc := 0, cuState := .fetch }) ∧
    (∀ u, exec (.jn t) s = .next u → u.cuState = .fault → u.sm0 = s.sm0 ∧ u.sm1 = s.sm1) ∧
    (∃ u, exec (.jn t) s = .next u ∧ archEq u (Pseudo.ofInstr (.jn t) s))

/-- With its Words in Memory, jz sets PC to T when ZERO is 1 and to the address after its operand when it is
0, for every T and every FLAGS, leaves both addresses in SM, and leaves FLAGS, the general registers, Memory,
S0 and SEL as they were; the other hidden elements are left as the rule lists them. Its microprogram has 19
control words. On every other operand and every state it answers a next state too, with the architectural
effect of the rule's pseudocode, each fault at its line and every earlier line done. A fault leaves SM as it
was. (R272) -/
def Obligations.JzRule : Prop :=
  ∀ (t : Word) (s : State),
    (programOf (.jz t)).length = 19 ∧
    (s.fits2 →
      let target := if s.flags.getLsbD 0 then t else s.pc + 2
      exec (.jz t) s = .next
        { s with
          pc := target, ir := 18, sm0 := s.pc + 2, sm1 := t, extBus := target, intBus := s.pc + 2,
          s1 := s.pc + 2, mar := s.pc + 1, marValid := false, upc := 0, cuState := .fetch }) ∧
    (∀ u, exec (.jz t) s = .next u → u.cuState = .fault → u.sm0 = s.sm0 ∧ u.sm1 = s.sm1) ∧
    (∃ u, exec (.jz t) s = .next u ∧ archEq u (Pseudo.ofInstr (.jz t) s))

/-- With PC a valid address, each of reserved8, reserved9, reserved10, jeq, jneq, jgt and jlw answers the next
state in HALT with its word in IR, before any operand is fetched: PC stays on the word and the general
registers, FLAGS and Memory are as they were. (R126, R311) -/
def Obligations.ReservedOpcodesHalt : Prop :=
  ∀ s : State, legalMem Config.memSize s.pc = true →
    exec .reserved8 s = .next (s.haltedOn 8) ∧
    exec .reserved9 s = .next (s.haltedOn 9) ∧
    exec .reserved10 s = .next (s.haltedOn 10) ∧
    exec .jeq s = .next (s.haltedOn 19) ∧
    exec .jneq s = .next (s.haltedOn 20) ∧
    exec .jgt s = .next (s.haltedOn 21) ∧
    exec .jlw s = .next (s.haltedOn 22)

/-- At a boundary, with PC a valid address whose cell holds a Word that is not one of the sixteen registered
opcodes, the step answers HALT with that word in IR and on EXT, MAR = PC, MAR_VALID 0 and UPC 4; PC, the
general registers, FLAGS, Memory, FAULT_CAUSE and FAULT_INFO are as they were, and the status port shows
halted and not faulted. (R127) -/
def Obligations.UnregisteredWordHalts : Prop :=
  ∀ s : State, s.ready → legalMem Config.memSize s.pc = true → ¬ registered (s.mem.read s.pc.toNat) →
    step s = .next (s.haltedOn (s.mem.read s.pc.toNat)) ∧
      (outputs (s.haltedOn (s.mem.read s.pc.toNat))).halted = true ∧
      (outputs (s.haltedOn (s.mem.read s.pc.toNat))).faulted = false

/-- When PC is not a valid address, a step at a boundary, and exec of every instruction, answer FAULT with
OutOfBoundsMem and PC as its information, at ROM address 1: EXT holds PC and everything else is as it was.
(R314, R190, R32) -/
def Obligations.FetchOutsideMemoryFaults : Prop :=
  ∀ s : State, legalMem Config.memSize s.pc = false →
    (s.ready → step s = .next s.fetchFaulted) ∧ ∀ i : Instr, exec i s = .next s.fetchFaulted

/-- If one of the nine arithmetic instructions whose destination is not FLAGS completes, there is a Word that
its destination register holds (PC: that Word plus the trailing advance) or its destination cell holds, ZERO
is 1 exactly when that Word is 0, NEGATIVE exactly when it is negative, and the two are never both 1. (R220,
R36) -/
def Obligations.FlagsReflectResult : Prop :=
  ∀ (i : Instr) (s t : State), s.mem.wf Config.memSize → isArithmetic i = true → destReg i ≠ some 6 →
    exec i s = .next t → t.cuState = .fetch →
    ∃ res : Word,
      (∀ d, destReg i = some d → d ≠ 4 → t.readReg d = res) ∧
      (destReg i = some 4 → t.pc = res + 1) ∧
      (∀ d, destMem i = some d → t.mem.read d.toNat = res) ∧
      t.flags.getLsbD 0 = decide (res.toInt = 0) ∧
      t.flags.getLsbD 1 = decide (res.toInt < 0) ∧
      ¬ (t.flags.getLsbD 0 = true ∧ t.flags.getLsbD 1 = true)

/-- An instruction whose destination is not FLAGS leaves bits 31 to 2 of FLAGS unchanged, and if it is a move,
a jump or a halting word it leaves all of FLAGS unchanged. (R35, R37, R250, R273) -/
def Obligations.FlagsFrame : Prop :=
  ∀ (i : Instr) (s t : State), exec i s = .next t → destReg i ≠ some 6 →
    (∀ j, 2 ≤ j → t.flags.getLsbD j = s.flags.getLsbD j) ∧
    (isArithmetic i = false → t.flags = s.flags)

/-- Whatever an instruction answers, every general register R0 to R3 that is not its destination register (the
first operand of addRegReg, subRegReg and incReg; the second of the other forms with a destination register)
is unchanged. (R125, R273, R322) -/
def Obligations.GeneralRegisterFrame : Prop :=
  ∀ (i : Instr) (s t : State), exec i s = .next t →
    ∀ k : Fin 4, destReg i ≠ some (BitVec.ofNat 32 k) → t.gpr[k] = s.gpr[k]

/-- SM changes only in jn and jz; SEL and S0 are unchanged by the jumps, S0 also by incReg, moveMemReg,
moveRegMem and moveImmReg; FAULT_CAUSE and FAULT_INFO change only when the instruction faults, and if it does
not, MAR_VALID is 0 afterwards. (R51, R229, R251, R252, R254, R270, R271, R272) -/
def Obligations.HiddenElementsFrame : Prop :=
  ∀ (i : Instr) (s t : State), exec i s = .next t →
    ((∀ x, i ≠ .jn x) → (∀ x, i ≠ .jz x) → t.sm0 = s.sm0 ∧ t.sm1 = s.sm1) ∧
    (isJump i = true → t.sel = s.sel ∧ t.s0 = s.s0) ∧
    ((∃ a, i = .incReg a) ∨ (∃ a b, i = .moveMemReg a b) ∨ (∃ a b, i = .moveRegMem a b) ∨
      (∃ a b, i = .moveImmReg a b) → t.s0 = s.s0) ∧
    (t.cuState ≠ .fault → t.faultCause = s.faultCause ∧ t.faultInfo = s.faultInfo ∧ t.marValid = false)

/-- Whatever an instruction answers, every address that is not its destination address (the second operand
word of addRegMem, subRegMem and moveRegMem; every other instruction stores nothing) reads as before. (R125,
R273, R322, R95) -/
def Obligations.MemoryFrame : Prop :=
  ∀ (i : Instr) (s t : State), exec i s = .next t →
    ∀ x : Nat, (∀ d, destMem i = some d → x ≠ d.toNat) → t.mem.read x = s.mem.read x

/-- When an instruction that is no jump and whose destination is not PC completes, PC is the address of its
opcode word plus 1 plus its operand count. (R31, R197) -/
def Obligations.PcAfterNonJump : Prop :=
  ∀ (i : Instr) (s t : State), isJump i = false → destReg i ≠ some 4 → exec i s = .next t → t.cuState = .fetch →
    t.pc = s.pc + 1 + BitVec.ofNat 32 i.opcode.format.operands

/-- When exec of an instruction ends in FAULT, no general register, no flag bit (indeed no bit of FLAGS) and
no cell has been changed by it, and the cause is OutOfBoundsMem with an illegal address or OutOfBoundsReg with
an illegal register ID as its information. (R322, R314, R315) -/
def Obligations.FaultCommitsNothing : Prop :=
  ∀ (i : Instr) (s t : State), exec i s = .next t → t.cuState = .fault →
    commitsNothing s t ∧
      ((t.faultCause = .outOfBoundsMem ∧ legalMem Config.memSize t.faultInfo = false) ∨
        (t.faultCause = .outOfBoundsReg ∧ legalReg Config.ngpr t.faultInfo = false))

/-- When moveRegMem stores into the cell right after itself, the FETCH that follows reads the stored value
into IR, with no fence and no delay. (R101, R348, R252) -/
def Obligations.StoreIsSeenByNextFetch : Prop :=
  ∀ (a : Word) (s t : State), s.mem.wf Config.memSize → s.fits3 → legalReg Config.ngpr a = true →
    legalMem Config.memSize (s.pc + 3) = true →
    exec (.moveRegMem a (s.pc + 3)) s = .next t →
    (microRun 4 t).ir = ({ s with pc := s.pc + 2, ir := 12 } : State).readReg a ∧
      (microRun 4 t).cuState = .decode

/-- When jmp T stands at PC with T outside Memory, the step completes with PC = T and still running, and the
following step is OutOfBoundsMem(T) with PC = T. (R273, R270, R32) -/
def Obligations.JumpTargetFaultsAtNextFetch : Prop :=
  ∀ (x : Word) (s : State), s.ready → s.holdsInstr (.jmp x) → legalMem Config.memSize x = false →
    ∃ t u, step s = .next t ∧ t.pc = x ∧ t.stopped = false ∧
      step t = .next u ∧ u.faultedWith .outOfBoundsMem x ∧ u.pc = x

/-- loadWord with an address in 0..MEM_SIZE-1 changes that cell to the value and nothing else; with any other
address it fails with LoaderOutOfRange and a load request at the clocked port leaves the block as it was. It
holds for every legal value of WORD_BITS, MEM_SIZE and NGPR. (R91, R319, R6) -/
def Obligations.LoaderPort : Prop :=
  ∀ W M N : Nat, Config.Legal W M N → ∀ (address : Int) (v : BitVec W) (s : State.Of W M N),
    (0 ≤ address → address < M →
      loadWord address v s = .ok { s with mem := s.mem.write address.toNat v }) ∧
    (address < 0 ∨ M ≤ address →
      loadWord address v s = .error (.outOfRange address) ∧
        ∀ run, loadAtEdge address v ⟨s, run⟩ = ⟨s, run⟩)

/-- With rst = 0: an edge with run = 1 takes one micro-operation and ignores the loader; with run = 0 and
load_en = 1, before the run and at an instruction boundary, it loads; with run = 0 it does nothing for an
address out of range, inside an instruction, after a run has begun, and without load_en. A preset writes the
register at any file index, the general registers, PC, IR and FLAGS alike, and nothing else, when it comes
before the run at an instruction boundary while run is 0; it is ignored while run is 1, after a run has begun
and inside an instruction. It holds for every legal value of WORD_BITS, MEM_SIZE and NGPR. That a run has
begun once run was 1 at an edge and lasts until reset, and that the block remembers it, is the model's choice
(log 10): R346 says that between the steps of a paused run the loader may not write, and names no element that
tells. That a preset at an index outside the file does nothing is the model's choice too (log 19). (R202,
R346, R343, R320, R7) -/
def Obligations.ClockEdgeInputs : Prop :=
  ∀ W M N : Nat, Config.Legal W M N → ∀ (i : Inputs W) (b : Block W M N),
    (i.rst = false →
      (i.run = true → clockEdge i b = ⟨microStep b.core, true⟩) ∧
      (i.run = false → i.loadEn = true → b.started = false → b.core.upc = 0 → 0 ≤ i.loadAddr → i.loadAddr < M →
        clockEdge i b = { b with core := { b.core with mem := b.core.mem.write i.loadAddr.toNat i.loadData } }) ∧
      (i.run = false →
        (i.loadEn = false ∨ i.loadAddr < 0 ∨ M ≤ i.loadAddr ∨ b.started = true ∨ b.core.upc ≠ 0) →
        clockEdge i b = b)) ∧
    ∀ (run : Bool) (v : BitVec W),
      (run = false → b.started = false → b.core.upc = 0 →
        (∀ k : Fin N, presetAtPort run k v b = { b with core := { b.core with gpr := b.core.gpr.set k v } }) ∧
        presetAtPort run N v b = { b with core := { b.core with pc := v } } ∧
        presetAtPort run (N + 1) v b = { b with core := { b.core with ir := v } } ∧
        presetAtPort run (N + 2) v b = { b with core := { b.core with flags := v } }) ∧
      ∀ k : Nat, run = true ∨ b.started = true ∨ b.core.upc ≠ 0 ∨ N + 3 ≤ k → presetAtPort run k v b = b

/-- The ROM has 473 words; the first five are FETCH and DECODE; at the dispatch address of every registered
row stand, whatever its operand Words and their width, the control words of its microprogram, the last of
which is END; END occurs 16 times, DECODE once, code 31 never. (R290, R291, R292) -/
def Obligations.RomHoldsMicroprograms : Prop :=
  rom.length = 473 ∧ rom.take 5 = [2, 15, 16, 7, 1] ∧
  rom.count 0 = 16 ∧ rom.count 1 = 1 ∧ rom.count 31 = 0 ∧
  ∀ (W : Nat) (o : Opcode) (a b : BitVec W) (u : MicroAddr), opcodeDispatch o = some u →
    (rom.drop u.toNat).take (programOfRow o a b).length = (programOfRow o a b).map Item.code ∧
      ((programOfRow o a b).map Item.code).getLast? = some 0

/-- CU_STATE shows as 0 to 4 and FAULT_CAUSE as 0 to 6 in the order of their tables; the status port shows the
code of CU_STATE, the code of FAULT_CAUSE and FAULT_INFO itself; halted is 1 exactly in HALT and faulted
exactly in FAULT. The observer sees PC, IR, every register of the file by its index (the general registers,
then PC, IR and FLAGS), the two flag bits and a cell by its address, and an address out of range is refused to
it. It holds for every legal value of WORD_BITS, MEM_SIZE and NGPR. That a register index outside the file is
refused to the observer too is the model's choice (log 19): R102 speaks of an address only. (R50, R312, R313,
R102, R202, R7) -/
def Obligations.StatusAndObservationPorts : Prop :=
  [CuState.fetch, .decode, .execute, .halt, .fault].map cuStateCode = [0, 1, 2, 3, 4] ∧
  [FaultCause.none, .outOfBoundsMem, .outOfBoundsReg, .invalidSlot, .invalidBit, .noRequest,
    .invalidMicroOp].map faultCauseCode = [0, 1, 2, 3, 4, 5, 6] ∧
  ∀ W M N : Nat, Config.Legal W M N → ∀ s : State.Of W M N,
    (outputs s).cuState = cuStateCode s.cuState ∧ (outputs s).faultCause = faultCauseCode s.faultCause ∧
    (outputs s).faultInfo = s.faultInfo ∧
    ((outputs s).halted = true ↔ s.cuState = .halt) ∧ ((outputs s).faulted = true ↔ s.cuState = .fault) ∧
    observePC s = s.pc ∧ observeIR s = s.ir ∧
    (∀ k : Fin N, observeReg k s = some s.gpr[k]) ∧ observeReg N s = some s.pc ∧
    observeReg (N + 1) s = some s.ir ∧ observeReg (N + 2) s = some s.flags ∧
    (∀ k : Nat, N + 3 ≤ k → observeReg k s = none) ∧
    observeFlags s = ((s.flags.getLsbD 0).toNat, (s.flags.getLsbD 1).toNat) ∧
    (∀ a : Int, observeCell a s = if 0 ≤ a ∧ a < M then some (s.mem.read a.toNat) else none)
end

