-- ==== Sys2Proof/Laws/Decode.lean ====
section
/-! SUPPORT. The opcode words of the table, for every legal Word width (R5, R122), and `exec`'s instruction as a
row with its operand Words. -/

namespace Sys2Proof

variable {W : Nat}

theorem Opcode.code_lt (o : Opcode) : o.code < 2 ^ 8 := by cases o <;> decide

theorem Opcode.ofCode_code (o : Opcode) : Opcode.ofCode o.code = some o := by cases o <;> rfl

/-- A legal Word width (R5) holds every opcode. -/
theorem Opcode.toNat_word (hW : 8 ≤ W) (o : Opcode) : (o.word : BitVec W).toNat = o.code := by
  rw [Opcode.word, BitVec.toNat_ofNat, Nat.mod_eq_of_lt (Nat.lt_of_lt_of_le o.code_lt (Nat.pow_le_pow_right (by omega) hW))]

theorem opcodeOf_word (hW : 8 ≤ W) (o : Opcode) : opcodeOf (o.word : BitVec W) = some o := by
  rw [opcodeOf, o.toNat_word hW, o.ofCode_code]

/-- A Word that is looked up to a row is that row's opcode word: no bit is ignored (R122). -/
theorem eq_word_of_opcodeOf {w : BitVec W} {o : Opcode} (h : opcodeOf w = some o) : w = o.word := by
  have hc := List.find?_some h
  rw [Opcode.word, eq_of_beq hc, BitVec.ofNat_toNat, BitVec.setWidth_eq]

/-- An instruction is its row with its operand Words. -/
@[simp] theorem instrOf_opcode (i : Instr) : instrOf i.opcode i.first i.second = i := by cases i <;> rfl

@[simp] theorem opcode_instrOf (o : Opcode) (a b : Word) : (instrOf o a b).opcode = o := by cases o <;> rfl

/-- The encoder of the default machine is the encoder for every width, at 32 bits. -/
theorem encode_eq_encodeWords (i : Instr) : encode i = encodeWords i.opcode i.first i.second := by cases i <;> rfl

end Sys2Proof
end

