-- ==== Sys2Proof/Laws/Default.lean ====
section
/-! SUPPORT. The default machine is the machine for every value of the parameters, at the defaults. -/

namespace Sys2Proof.Machine

theorem execRow_eq_exec (o : Opcode) (a b : Word) (s : State) : execRow o a b s = exec (instrOf o a b) s := by
  cases o <;> rfl

theorem exec_eq_execRow (i : Instr) (s : State) : exec i s = execRow i.opcode i.first i.second s := by
  cases i <;> rfl

theorem runAtPc_eq_runRowAtPc (s : State) : runAtPc s = runRowAtPc s := by
  rw [runAtPc, runRowAtPc, decode]
  rcases decodeWords s.codeWords with e | ⟨o, a, b, rest⟩
  · rfl
  · exact (execRow_eq_exec o a b s).symm

theorem step_eq_stepRow (s : State) : step s = stepRow s := by
  rw [step, stepRow, runAtPc_eq_runRowAtPc]

end Sys2Proof.Machine
end

