-- ==== Sys2Proof/Laws/Flags.lean ====
section
/-! SUPPORT. The bits of FLAGS after a clear and after an update (R183, R184). -/

namespace Sys2Proof.Machine

variable {W : Nat}

/-- `setBit` sets its bit, if the Word has it, and no other (R27). -/
theorem getLsbD_withBit (v : BitVec W) (i j : Nat) (b : Bool) :
    (withBit v i b).getLsbD j = if j = i then decide (j < W) && b else v.getLsbD j := by
  unfold withBit
  by_cases hj : j < W
  · cases b <;> by_cases h : j = i <;> (simp [h, hj]; try simp_all)
  · rw [BitVec.getLsbD_of_ge _ _ (by omega), BitVec.getLsbD_of_ge _ _ (by omega)]
    simp [hj]

/-- The two flag bits after both are set (R27): ZERO is bit 0, NEGATIVE is bit 1. -/
theorem getLsbD_withBits (f : BitVec W) (z n : Bool) (j : Nat) :
    (withBit (withBit f flagZERO z) flagNEGATIVE n).getLsbD j =
      if j = flagNEGATIVE then decide (j < W) && n else if j = flagZERO then decide (j < W) && z else f.getLsbD j := by
  rw [getLsbD_withBit, getLsbD_withBit]

/-- Both bits are 0 after a clear (R183). -/
theorem flagsClear_zero (f : BitVec W) : (flagsClear f).getLsbD flagZERO = false := by
  rw [flagsClear, getLsbD_withBits, if_neg (by decide), if_pos rfl, Bool.and_false]

theorem flagsClear_negative (f : BitVec W) : (flagsClear f).getLsbD flagNEGATIVE = false := by
  rw [flagsClear, getLsbD_withBits, if_pos rfl, Bool.and_false]

/-- ZERO after an update tells whether the result is 0 (R184). -/
theorem flagsUpdate_zero (hW : 2 ≤ W) (f r : BitVec W) : (flagsUpdate f r).getLsbD flagZERO = (r == 0) := by
  rw [flagsUpdate, getLsbD_withBits, if_neg (by decide), if_pos rfl,
    decide_eq_true (show flagZERO < W by unfold flagZERO; omega), Bool.true_and]

/-- NEGATIVE after an update tells whether the result is negative (R184). -/
theorem flagsUpdate_negative (hW : 2 ≤ W) (f r : BitVec W) :
    (flagsUpdate f r).getLsbD flagNEGATIVE = decide (r.toInt < 0) := by
  rw [flagsUpdate, getLsbD_withBits, if_pos rfl,
    decide_eq_true (show flagNEGATIVE < W by unfold flagNEGATIVE; omega), Bool.true_and]

/-- Bits W-1..2 are plain storage: an update leaves them alone (R35, R184). -/
theorem flagsUpdate_other (f r : BitVec W) {j : Nat} (hj : 2 ≤ j) : (flagsUpdate f r).getLsbD j = f.getLsbD j := by
  rw [flagsUpdate, getLsbD_withBits, if_neg (by unfold flagNEGATIVE; omega), if_neg (by unfold flagZERO; omega)]

/-- The clear before the operation leaves no trace once the flags are updated (R184). -/
@[simp] theorem flagsUpdate_flagsClear (f r : BitVec W) : flagsUpdate (flagsClear f) r = flagsUpdate f r := by
  apply BitVec.eq_of_getLsbD_eq
  intro j _
  simp only [flagsUpdate, flagsClear, getLsbD_withBits]
  split
  · rfl
  · split <;> rfl

end Sys2Proof.Machine
end

