-- ==== Sys2Proof/Laws/State.lean ====
section
/-! SUPPORT. What each update of the state does to each field, and to `readReg` and `stopped`: no later
proof unfolds a record update. -/

namespace Sys2Proof

/-! #### The default parameters -/

theorem Config.ngpr_eq : Config.ngpr = 4 := rfl
theorem Config.nreg_eq : Config.nreg = 7 := rfl
theorem Config.idxPC_eq : Config.idxPC = 4 := rfl
theorem Config.idxIR_eq : Config.idxIR = 5 := rfl
theorem Config.idxFLAGS_eq : Config.idxFLAGS = 6 := rfl
theorem Config.memSize_eq : Config.memSize = 128 := rfl

/-- `Word` is as wide as the default WORD_BITS. -/
theorem wordBits_eq : Word = BitVec Config.wordBits := rfl

/-- The default parameters are legal (R5, R6, R7). -/
theorem Config.default_legal : Config.Legal Config.wordBits Config.memSize Config.ngpr :=
  ⟨by decide, by decide, by decide, by decide⟩

end Sys2Proof

namespace Sys2Proof.Machine

variable {W M N : Nat}

/-! #### putExt -/

@[simp] theorem State.Of.putExt_gpr (s : State.Of W M N) (v : BitVec W) : (s.putExt v).gpr = s.gpr := rfl
@[simp] theorem State.Of.putExt_pc (s : State.Of W M N) (v : BitVec W) : (s.putExt v).pc = s.pc := rfl
@[simp] theorem State.Of.putExt_ir (s : State.Of W M N) (v : BitVec W) : (s.putExt v).ir = s.ir := rfl
@[simp] theorem State.Of.putExt_flags (s : State.Of W M N) (v : BitVec W) : (s.putExt v).flags = s.flags := rfl
@[simp] theorem State.Of.putExt_mem (s : State.Of W M N) (v : BitVec W) : (s.putExt v).mem = s.mem := rfl
@[simp] theorem State.Of.putExt_mar (s : State.Of W M N) (v : BitVec W) : (s.putExt v).mar = s.mar := rfl
@[simp] theorem State.Of.putExt_marValid (s : State.Of W M N) (v : BitVec W) : (s.putExt v).marValid = s.marValid := rfl
@[simp] theorem State.Of.putExt_sm0 (s : State.Of W M N) (v : BitVec W) : (s.putExt v).sm0 = s.sm0 := rfl
@[simp] theorem State.Of.putExt_sm1 (s : State.Of W M N) (v : BitVec W) : (s.putExt v).sm1 = s.sm1 := rfl
@[simp] theorem State.Of.putExt_extBus (s : State.Of W M N) (v : BitVec W) : (s.putExt v).extBus = v := rfl
@[simp] theorem State.Of.putExt_intBus (s : State.Of W M N) (v : BitVec W) : (s.putExt v).intBus = s.intBus := rfl
@[simp] theorem State.Of.putExt_s0 (s : State.Of W M N) (v : BitVec W) : (s.putExt v).s0 = s.s0 := rfl
@[simp] theorem State.Of.putExt_s1 (s : State.Of W M N) (v : BitVec W) : (s.putExt v).s1 = s.s1 := rfl
@[simp] theorem State.Of.putExt_sel (s : State.Of W M N) (v : BitVec W) : (s.putExt v).sel = s.sel := rfl
@[simp] theorem State.Of.putExt_upc (s : State.Of W M N) (v : BitVec W) : (s.putExt v).upc = s.upc := rfl
@[simp] theorem State.Of.putExt_cuState (s : State.Of W M N) (v : BitVec W) : (s.putExt v).cuState = s.cuState := rfl
@[simp] theorem State.Of.putExt_faultCause (s : State.Of W M N) (v : BitVec W) : (s.putExt v).faultCause = s.faultCause := rfl
@[simp] theorem State.Of.putExt_faultInfo (s : State.Of W M N) (v : BitVec W) : (s.putExt v).faultInfo = s.faultInfo := rfl
@[simp] theorem State.Of.putExt_stopped (s : State.Of W M N) (v : BitVec W) : (s.putExt v).stopped = s.stopped := rfl
@[simp] theorem State.Of.putExt_readReg (s : State.Of W M N) (v : BitVec W) (id : BitVec W) : (s.putExt v).readReg id = s.readReg id := rfl

/-! #### putInt -/

@[simp] theorem State.Of.putInt_gpr (s : State.Of W M N) (v : BitVec W) : (s.putInt v).gpr = s.gpr := rfl
@[simp] theorem State.Of.putInt_pc (s : State.Of W M N) (v : BitVec W) : (s.putInt v).pc = s.pc := rfl
@[simp] theorem State.Of.putInt_ir (s : State.Of W M N) (v : BitVec W) : (s.putInt v).ir = s.ir := rfl
@[simp] theorem State.Of.putInt_flags (s : State.Of W M N) (v : BitVec W) : (s.putInt v).flags = s.flags := rfl
@[simp] theorem State.Of.putInt_mem (s : State.Of W M N) (v : BitVec W) : (s.putInt v).mem = s.mem := rfl
@[simp] theorem State.Of.putInt_mar (s : State.Of W M N) (v : BitVec W) : (s.putInt v).mar = s.mar := rfl
@[simp] theorem State.Of.putInt_marValid (s : State.Of W M N) (v : BitVec W) : (s.putInt v).marValid = s.marValid := rfl
@[simp] theorem State.Of.putInt_sm0 (s : State.Of W M N) (v : BitVec W) : (s.putInt v).sm0 = s.sm0 := rfl
@[simp] theorem State.Of.putInt_sm1 (s : State.Of W M N) (v : BitVec W) : (s.putInt v).sm1 = s.sm1 := rfl
@[simp] theorem State.Of.putInt_extBus (s : State.Of W M N) (v : BitVec W) : (s.putInt v).extBus = s.extBus := rfl
@[simp] theorem State.Of.putInt_intBus (s : State.Of W M N) (v : BitVec W) : (s.putInt v).intBus = v := rfl
@[simp] theorem State.Of.putInt_s0 (s : State.Of W M N) (v : BitVec W) : (s.putInt v).s0 = s.s0 := rfl
@[simp] theorem State.Of.putInt_s1 (s : State.Of W M N) (v : BitVec W) : (s.putInt v).s1 = s.s1 := rfl
@[simp] theorem State.Of.putInt_sel (s : State.Of W M N) (v : BitVec W) : (s.putInt v).sel = s.sel := rfl
@[simp] theorem State.Of.putInt_upc (s : State.Of W M N) (v : BitVec W) : (s.putInt v).upc = s.upc := rfl
@[simp] theorem State.Of.putInt_cuState (s : State.Of W M N) (v : BitVec W) : (s.putInt v).cuState = s.cuState := rfl
@[simp] theorem State.Of.putInt_faultCause (s : State.Of W M N) (v : BitVec W) : (s.putInt v).faultCause = s.faultCause := rfl
@[simp] theorem State.Of.putInt_faultInfo (s : State.Of W M N) (v : BitVec W) : (s.putInt v).faultInfo = s.faultInfo := rfl
@[simp] theorem State.Of.putInt_stopped (s : State.Of W M N) (v : BitVec W) : (s.putInt v).stopped = s.stopped := rfl
@[simp] theorem State.Of.putInt_readReg (s : State.Of W M N) (v : BitVec W) (id : BitVec W) : (s.putInt v).readReg id = s.readReg id := rfl

/-! #### setPc -/

@[simp] theorem State.Of.setPc_gpr (s : State.Of W M N) (v : BitVec W) : (s.setPc v).gpr = s.gpr := rfl
@[simp] theorem State.Of.setPc_pc (s : State.Of W M N) (v : BitVec W) : (s.setPc v).pc = v := rfl
@[simp] theorem State.Of.setPc_ir (s : State.Of W M N) (v : BitVec W) : (s.setPc v).ir = s.ir := rfl
@[simp] theorem State.Of.setPc_flags (s : State.Of W M N) (v : BitVec W) : (s.setPc v).flags = s.flags := rfl
@[simp] theorem State.Of.setPc_mem (s : State.Of W M N) (v : BitVec W) : (s.setPc v).mem = s.mem := rfl
@[simp] theorem State.Of.setPc_mar (s : State.Of W M N) (v : BitVec W) : (s.setPc v).mar = s.mar := rfl
@[simp] theorem State.Of.setPc_marValid (s : State.Of W M N) (v : BitVec W) : (s.setPc v).marValid = s.marValid := rfl
@[simp] theorem State.Of.setPc_sm0 (s : State.Of W M N) (v : BitVec W) : (s.setPc v).sm0 = s.sm0 := rfl
@[simp] theorem State.Of.setPc_sm1 (s : State.Of W M N) (v : BitVec W) : (s.setPc v).sm1 = s.sm1 := rfl
@[simp] theorem State.Of.setPc_extBus (s : State.Of W M N) (v : BitVec W) : (s.setPc v).extBus = s.extBus := rfl
@[simp] theorem State.Of.setPc_intBus (s : State.Of W M N) (v : BitVec W) : (s.setPc v).intBus = s.intBus := rfl
@[simp] theorem State.Of.setPc_s0 (s : State.Of W M N) (v : BitVec W) : (s.setPc v).s0 = s.s0 := rfl
@[simp] theorem State.Of.setPc_s1 (s : State.Of W M N) (v : BitVec W) : (s.setPc v).s1 = s.s1 := rfl
@[simp] theorem State.Of.setPc_sel (s : State.Of W M N) (v : BitVec W) : (s.setPc v).sel = s.sel := rfl
@[simp] theorem State.Of.setPc_upc (s : State.Of W M N) (v : BitVec W) : (s.setPc v).upc = s.upc := rfl
@[simp] theorem State.Of.setPc_cuState (s : State.Of W M N) (v : BitVec W) : (s.setPc v).cuState = s.cuState := rfl
@[simp] theorem State.Of.setPc_faultCause (s : State.Of W M N) (v : BitVec W) : (s.setPc v).faultCause = s.faultCause := rfl
@[simp] theorem State.Of.setPc_faultInfo (s : State.Of W M N) (v : BitVec W) : (s.setPc v).faultInfo = s.faultInfo := rfl
@[simp] theorem State.Of.setPc_stopped (s : State.Of W M N) (v : BitVec W) : (s.setPc v).stopped = s.stopped := rfl

/-! #### setIr -/

@[simp] theorem State.Of.setIr_gpr (s : State.Of W M N) (v : BitVec W) : (s.setIr v).gpr = s.gpr := rfl
@[simp] theorem State.Of.setIr_pc (s : State.Of W M N) (v : BitVec W) : (s.setIr v).pc = s.pc := rfl
@[simp] theorem State.Of.setIr_ir (s : State.Of W M N) (v : BitVec W) : (s.setIr v).ir = v := rfl
@[simp] theorem State.Of.setIr_flags (s : State.Of W M N) (v : BitVec W) : (s.setIr v).flags = s.flags := rfl
@[simp] theorem State.Of.setIr_mem (s : State.Of W M N) (v : BitVec W) : (s.setIr v).mem = s.mem := rfl
@[simp] theorem State.Of.setIr_mar (s : State.Of W M N) (v : BitVec W) : (s.setIr v).mar = s.mar := rfl
@[simp] theorem State.Of.setIr_marValid (s : State.Of W M N) (v : BitVec W) : (s.setIr v).marValid = s.marValid := rfl
@[simp] theorem State.Of.setIr_sm0 (s : State.Of W M N) (v : BitVec W) : (s.setIr v).sm0 = s.sm0 := rfl
@[simp] theorem State.Of.setIr_sm1 (s : State.Of W M N) (v : BitVec W) : (s.setIr v).sm1 = s.sm1 := rfl
@[simp] theorem State.Of.setIr_extBus (s : State.Of W M N) (v : BitVec W) : (s.setIr v).extBus = s.extBus := rfl
@[simp] theorem State.Of.setIr_intBus (s : State.Of W M N) (v : BitVec W) : (s.setIr v).intBus = s.intBus := rfl
@[simp] theorem State.Of.setIr_s0 (s : State.Of W M N) (v : BitVec W) : (s.setIr v).s0 = s.s0 := rfl
@[simp] theorem State.Of.setIr_s1 (s : State.Of W M N) (v : BitVec W) : (s.setIr v).s1 = s.s1 := rfl
@[simp] theorem State.Of.setIr_sel (s : State.Of W M N) (v : BitVec W) : (s.setIr v).sel = s.sel := rfl
@[simp] theorem State.Of.setIr_upc (s : State.Of W M N) (v : BitVec W) : (s.setIr v).upc = s.upc := rfl
@[simp] theorem State.Of.setIr_cuState (s : State.Of W M N) (v : BitVec W) : (s.setIr v).cuState = s.cuState := rfl
@[simp] theorem State.Of.setIr_faultCause (s : State.Of W M N) (v : BitVec W) : (s.setIr v).faultCause = s.faultCause := rfl
@[simp] theorem State.Of.setIr_faultInfo (s : State.Of W M N) (v : BitVec W) : (s.setIr v).faultInfo = s.faultInfo := rfl
@[simp] theorem State.Of.setIr_stopped (s : State.Of W M N) (v : BitVec W) : (s.setIr v).stopped = s.stopped := rfl

/-! #### setFlags -/

@[simp] theorem State.Of.setFlags_gpr (s : State.Of W M N) (v : BitVec W) : (s.setFlags v).gpr = s.gpr := rfl
@[simp] theorem State.Of.setFlags_pc (s : State.Of W M N) (v : BitVec W) : (s.setFlags v).pc = s.pc := rfl
@[simp] theorem State.Of.setFlags_ir (s : State.Of W M N) (v : BitVec W) : (s.setFlags v).ir = s.ir := rfl
@[simp] theorem State.Of.setFlags_flags (s : State.Of W M N) (v : BitVec W) : (s.setFlags v).flags = v := rfl
@[simp] theorem State.Of.setFlags_mem (s : State.Of W M N) (v : BitVec W) : (s.setFlags v).mem = s.mem := rfl
@[simp] theorem State.Of.setFlags_mar (s : State.Of W M N) (v : BitVec W) : (s.setFlags v).mar = s.mar := rfl
@[simp] theorem State.Of.setFlags_marValid (s : State.Of W M N) (v : BitVec W) : (s.setFlags v).marValid = s.marValid := rfl
@[simp] theorem State.Of.setFlags_sm0 (s : State.Of W M N) (v : BitVec W) : (s.setFlags v).sm0 = s.sm0 := rfl
@[simp] theorem State.Of.setFlags_sm1 (s : State.Of W M N) (v : BitVec W) : (s.setFlags v).sm1 = s.sm1 := rfl
@[simp] theorem State.Of.setFlags_extBus (s : State.Of W M N) (v : BitVec W) : (s.setFlags v).extBus = s.extBus := rfl
@[simp] theorem State.Of.setFlags_intBus (s : State.Of W M N) (v : BitVec W) : (s.setFlags v).intBus = s.intBus := rfl
@[simp] theorem State.Of.setFlags_s0 (s : State.Of W M N) (v : BitVec W) : (s.setFlags v).s0 = s.s0 := rfl
@[simp] theorem State.Of.setFlags_s1 (s : State.Of W M N) (v : BitVec W) : (s.setFlags v).s1 = s.s1 := rfl
@[simp] theorem State.Of.setFlags_sel (s : State.Of W M N) (v : BitVec W) : (s.setFlags v).sel = s.sel := rfl
@[simp] theorem State.Of.setFlags_upc (s : State.Of W M N) (v : BitVec W) : (s.setFlags v).upc = s.upc := rfl
@[simp] theorem State.Of.setFlags_cuState (s : State.Of W M N) (v : BitVec W) : (s.setFlags v).cuState = s.cuState := rfl
@[simp] theorem State.Of.setFlags_faultCause (s : State.Of W M N) (v : BitVec W) : (s.setFlags v).faultCause = s.faultCause := rfl
@[simp] theorem State.Of.setFlags_faultInfo (s : State.Of W M N) (v : BitVec W) : (s.setFlags v).faultInfo = s.faultInfo := rfl
@[simp] theorem State.Of.setFlags_stopped (s : State.Of W M N) (v : BitVec W) : (s.setFlags v).stopped = s.stopped := rfl

/-! #### setGpr -/

@[simp] theorem State.Of.setGpr_gpr (s : State.Of W M N) (g : Vector (BitVec W) N) : (s.setGpr g).gpr = g := rfl
@[simp] theorem State.Of.setGpr_pc (s : State.Of W M N) (g : Vector (BitVec W) N) : (s.setGpr g).pc = s.pc := rfl
@[simp] theorem State.Of.setGpr_ir (s : State.Of W M N) (g : Vector (BitVec W) N) : (s.setGpr g).ir = s.ir := rfl
@[simp] theorem State.Of.setGpr_flags (s : State.Of W M N) (g : Vector (BitVec W) N) : (s.setGpr g).flags = s.flags := rfl
@[simp] theorem State.Of.setGpr_mem (s : State.Of W M N) (g : Vector (BitVec W) N) : (s.setGpr g).mem = s.mem := rfl
@[simp] theorem State.Of.setGpr_mar (s : State.Of W M N) (g : Vector (BitVec W) N) : (s.setGpr g).mar = s.mar := rfl
@[simp] theorem State.Of.setGpr_marValid (s : State.Of W M N) (g : Vector (BitVec W) N) : (s.setGpr g).marValid = s.marValid := rfl
@[simp] theorem State.Of.setGpr_sm0 (s : State.Of W M N) (g : Vector (BitVec W) N) : (s.setGpr g).sm0 = s.sm0 := rfl
@[simp] theorem State.Of.setGpr_sm1 (s : State.Of W M N) (g : Vector (BitVec W) N) : (s.setGpr g).sm1 = s.sm1 := rfl
@[simp] theorem State.Of.setGpr_extBus (s : State.Of W M N) (g : Vector (BitVec W) N) : (s.setGpr g).extBus = s.extBus := rfl
@[simp] theorem State.Of.setGpr_intBus (s : State.Of W M N) (g : Vector (BitVec W) N) : (s.setGpr g).intBus = s.intBus := rfl
@[simp] theorem State.Of.setGpr_s0 (s : State.Of W M N) (g : Vector (BitVec W) N) : (s.setGpr g).s0 = s.s0 := rfl
@[simp] theorem State.Of.setGpr_s1 (s : State.Of W M N) (g : Vector (BitVec W) N) : (s.setGpr g).s1 = s.s1 := rfl
@[simp] theorem State.Of.setGpr_sel (s : State.Of W M N) (g : Vector (BitVec W) N) : (s.setGpr g).sel = s.sel := rfl
@[simp] theorem State.Of.setGpr_upc (s : State.Of W M N) (g : Vector (BitVec W) N) : (s.setGpr g).upc = s.upc := rfl
@[simp] theorem State.Of.setGpr_cuState (s : State.Of W M N) (g : Vector (BitVec W) N) : (s.setGpr g).cuState = s.cuState := rfl
@[simp] theorem State.Of.setGpr_faultCause (s : State.Of W M N) (g : Vector (BitVec W) N) : (s.setGpr g).faultCause = s.faultCause := rfl
@[simp] theorem State.Of.setGpr_faultInfo (s : State.Of W M N) (g : Vector (BitVec W) N) : (s.setGpr g).faultInfo = s.faultInfo := rfl
@[simp] theorem State.Of.setGpr_stopped (s : State.Of W M N) (g : Vector (BitVec W) N) : (s.setGpr g).stopped = s.stopped := rfl

/-! #### setMem -/

@[simp] theorem State.Of.setMem_gpr (s : State.Of W M N) (m : Memory W) : (s.setMem m).gpr = s.gpr := rfl
@[simp] theorem State.Of.setMem_pc (s : State.Of W M N) (m : Memory W) : (s.setMem m).pc = s.pc := rfl
@[simp] theorem State.Of.setMem_ir (s : State.Of W M N) (m : Memory W) : (s.setMem m).ir = s.ir := rfl
@[simp] theorem State.Of.setMem_flags (s : State.Of W M N) (m : Memory W) : (s.setMem m).flags = s.flags := rfl
@[simp] theorem State.Of.setMem_mem (s : State.Of W M N) (m : Memory W) : (s.setMem m).mem = m := rfl
@[simp] theorem State.Of.setMem_mar (s : State.Of W M N) (m : Memory W) : (s.setMem m).mar = s.mar := rfl
@[simp] theorem State.Of.setMem_marValid (s : State.Of W M N) (m : Memory W) : (s.setMem m).marValid = s.marValid := rfl
@[simp] theorem State.Of.setMem_sm0 (s : State.Of W M N) (m : Memory W) : (s.setMem m).sm0 = s.sm0 := rfl
@[simp] theorem State.Of.setMem_sm1 (s : State.Of W M N) (m : Memory W) : (s.setMem m).sm1 = s.sm1 := rfl
@[simp] theorem State.Of.setMem_extBus (s : State.Of W M N) (m : Memory W) : (s.setMem m).extBus = s.extBus := rfl
@[simp] theorem State.Of.setMem_intBus (s : State.Of W M N) (m : Memory W) : (s.setMem m).intBus = s.intBus := rfl
@[simp] theorem State.Of.setMem_s0 (s : State.Of W M N) (m : Memory W) : (s.setMem m).s0 = s.s0 := rfl
@[simp] theorem State.Of.setMem_s1 (s : State.Of W M N) (m : Memory W) : (s.setMem m).s1 = s.s1 := rfl
@[simp] theorem State.Of.setMem_sel (s : State.Of W M N) (m : Memory W) : (s.setMem m).sel = s.sel := rfl
@[simp] theorem State.Of.setMem_upc (s : State.Of W M N) (m : Memory W) : (s.setMem m).upc = s.upc := rfl
@[simp] theorem State.Of.setMem_cuState (s : State.Of W M N) (m : Memory W) : (s.setMem m).cuState = s.cuState := rfl
@[simp] theorem State.Of.setMem_faultCause (s : State.Of W M N) (m : Memory W) : (s.setMem m).faultCause = s.faultCause := rfl
@[simp] theorem State.Of.setMem_faultInfo (s : State.Of W M N) (m : Memory W) : (s.setMem m).faultInfo = s.faultInfo := rfl
@[simp] theorem State.Of.setMem_stopped (s : State.Of W M N) (m : Memory W) : (s.setMem m).stopped = s.stopped := rfl
@[simp] theorem State.Of.setMem_readReg (s : State.Of W M N) (m : Memory W) (id : BitVec W) : (s.setMem m).readReg id = s.readReg id := rfl

/-! #### latchMar -/

@[simp] theorem State.Of.latchMar_gpr (s : State.Of W M N) (a : BitVec W) : (s.latchMar a).gpr = s.gpr := rfl
@[simp] theorem State.Of.latchMar_pc (s : State.Of W M N) (a : BitVec W) : (s.latchMar a).pc = s.pc := rfl
@[simp] theorem State.Of.latchMar_ir (s : State.Of W M N) (a : BitVec W) : (s.latchMar a).ir = s.ir := rfl
@[simp] theorem State.Of.latchMar_flags (s : State.Of W M N) (a : BitVec W) : (s.latchMar a).flags = s.flags := rfl
@[simp] theorem State.Of.latchMar_mem (s : State.Of W M N) (a : BitVec W) : (s.latchMar a).mem = s.mem := rfl
@[simp] theorem State.Of.latchMar_mar (s : State.Of W M N) (a : BitVec W) : (s.latchMar a).mar = a := rfl
@[simp] theorem State.Of.latchMar_marValid (s : State.Of W M N) (a : BitVec W) : (s.latchMar a).marValid = true := rfl
@[simp] theorem State.Of.latchMar_sm0 (s : State.Of W M N) (a : BitVec W) : (s.latchMar a).sm0 = s.sm0 := rfl
@[simp] theorem State.Of.latchMar_sm1 (s : State.Of W M N) (a : BitVec W) : (s.latchMar a).sm1 = s.sm1 := rfl
@[simp] theorem State.Of.latchMar_extBus (s : State.Of W M N) (a : BitVec W) : (s.latchMar a).extBus = s.extBus := rfl
@[simp] theorem State.Of.latchMar_intBus (s : State.Of W M N) (a : BitVec W) : (s.latchMar a).intBus = s.intBus := rfl
@[simp] theorem State.Of.latchMar_s0 (s : State.Of W M N) (a : BitVec W) : (s.latchMar a).s0 = s.s0 := rfl
@[simp] theorem State.Of.latchMar_s1 (s : State.Of W M N) (a : BitVec W) : (s.latchMar a).s1 = s.s1 := rfl
@[simp] theorem State.Of.latchMar_sel (s : State.Of W M N) (a : BitVec W) : (s.latchMar a).sel = s.sel := rfl
@[simp] theorem State.Of.latchMar_upc (s : State.Of W M N) (a : BitVec W) : (s.latchMar a).upc = s.upc := rfl
@[simp] theorem State.Of.latchMar_cuState (s : State.Of W M N) (a : BitVec W) : (s.latchMar a).cuState = s.cuState := rfl
@[simp] theorem State.Of.latchMar_faultCause (s : State.Of W M N) (a : BitVec W) : (s.latchMar a).faultCause = s.faultCause := rfl
@[simp] theorem State.Of.latchMar_faultInfo (s : State.Of W M N) (a : BitVec W) : (s.latchMar a).faultInfo = s.faultInfo := rfl
@[simp] theorem State.Of.latchMar_stopped (s : State.Of W M N) (a : BitVec W) : (s.latchMar a).stopped = s.stopped := rfl
@[simp] theorem State.Of.latchMar_readReg (s : State.Of W M N) (a : BitVec W) (id : BitVec W) : (s.latchMar a).readReg id = s.readReg id := rfl

/-! #### consumeMar -/

@[simp] theorem State.Of.consumeMar_gpr (s : State.Of W M N) : (s.consumeMar).gpr = s.gpr := rfl
@[simp] theorem State.Of.consumeMar_pc (s : State.Of W M N) : (s.consumeMar).pc = s.pc := rfl
@[simp] theorem State.Of.consumeMar_ir (s : State.Of W M N) : (s.consumeMar).ir = s.ir := rfl
@[simp] theorem State.Of.consumeMar_flags (s : State.Of W M N) : (s.consumeMar).flags = s.flags := rfl
@[simp] theorem State.Of.consumeMar_mem (s : State.Of W M N) : (s.consumeMar).mem = s.mem := rfl
@[simp] theorem State.Of.consumeMar_mar (s : State.Of W M N) : (s.consumeMar).mar = s.mar := rfl
@[simp] theorem State.Of.consumeMar_marValid (s : State.Of W M N) : (s.consumeMar).marValid = false := rfl
@[simp] theorem State.Of.consumeMar_sm0 (s : State.Of W M N) : (s.consumeMar).sm0 = s.sm0 := rfl
@[simp] theorem State.Of.consumeMar_sm1 (s : State.Of W M N) : (s.consumeMar).sm1 = s.sm1 := rfl
@[simp] theorem State.Of.consumeMar_extBus (s : State.Of W M N) : (s.consumeMar).extBus = s.extBus := rfl
@[simp] theorem State.Of.consumeMar_intBus (s : State.Of W M N) : (s.consumeMar).intBus = s.intBus := rfl
@[simp] theorem State.Of.consumeMar_s0 (s : State.Of W M N) : (s.consumeMar).s0 = s.s0 := rfl
@[simp] theorem State.Of.consumeMar_s1 (s : State.Of W M N) : (s.consumeMar).s1 = s.s1 := rfl
@[simp] theorem State.Of.consumeMar_sel (s : State.Of W M N) : (s.consumeMar).sel = s.sel := rfl
@[simp] theorem State.Of.consumeMar_upc (s : State.Of W M N) : (s.consumeMar).upc = s.upc := rfl
@[simp] theorem State.Of.consumeMar_cuState (s : State.Of W M N) : (s.consumeMar).cuState = s.cuState := rfl
@[simp] theorem State.Of.consumeMar_faultCause (s : State.Of W M N) : (s.consumeMar).faultCause = s.faultCause := rfl
@[simp] theorem State.Of.consumeMar_faultInfo (s : State.Of W M N) : (s.consumeMar).faultInfo = s.faultInfo := rfl
@[simp] theorem State.Of.consumeMar_stopped (s : State.Of W M N) : (s.consumeMar).stopped = s.stopped := rfl
@[simp] theorem State.Of.consumeMar_readReg (s : State.Of W M N) (id : BitVec W) : (s.consumeMar).readReg id = s.readReg id := rfl

/-! #### setSm0 -/

@[simp] theorem State.Of.setSm0_gpr (s : State.Of W M N) (v : BitVec W) : (s.setSm0 v).gpr = s.gpr := rfl
@[simp] theorem State.Of.setSm0_pc (s : State.Of W M N) (v : BitVec W) : (s.setSm0 v).pc = s.pc := rfl
@[simp] theorem State.Of.setSm0_ir (s : State.Of W M N) (v : BitVec W) : (s.setSm0 v).ir = s.ir := rfl
@[simp] theorem State.Of.setSm0_flags (s : State.Of W M N) (v : BitVec W) : (s.setSm0 v).flags = s.flags := rfl
@[simp] theorem State.Of.setSm0_mem (s : State.Of W M N) (v : BitVec W) : (s.setSm0 v).mem = s.mem := rfl
@[simp] theorem State.Of.setSm0_mar (s : State.Of W M N) (v : BitVec W) : (s.setSm0 v).mar = s.mar := rfl
@[simp] theorem State.Of.setSm0_marValid (s : State.Of W M N) (v : BitVec W) : (s.setSm0 v).marValid = s.marValid := rfl
@[simp] theorem State.Of.setSm0_sm0 (s : State.Of W M N) (v : BitVec W) : (s.setSm0 v).sm0 = v := rfl
@[simp] theorem State.Of.setSm0_sm1 (s : State.Of W M N) (v : BitVec W) : (s.setSm0 v).sm1 = s.sm1 := rfl
@[simp] theorem State.Of.setSm0_extBus (s : State.Of W M N) (v : BitVec W) : (s.setSm0 v).extBus = s.extBus := rfl
@[simp] theorem State.Of.setSm0_intBus (s : State.Of W M N) (v : BitVec W) : (s.setSm0 v).intBus = s.intBus := rfl
@[simp] theorem State.Of.setSm0_s0 (s : State.Of W M N) (v : BitVec W) : (s.setSm0 v).s0 = s.s0 := rfl
@[simp] theorem State.Of.setSm0_s1 (s : State.Of W M N) (v : BitVec W) : (s.setSm0 v).s1 = s.s1 := rfl
@[simp] theorem State.Of.setSm0_sel (s : State.Of W M N) (v : BitVec W) : (s.setSm0 v).sel = s.sel := rfl
@[simp] theorem State.Of.setSm0_upc (s : State.Of W M N) (v : BitVec W) : (s.setSm0 v).upc = s.upc := rfl
@[simp] theorem State.Of.setSm0_cuState (s : State.Of W M N) (v : BitVec W) : (s.setSm0 v).cuState = s.cuState := rfl
@[simp] theorem State.Of.setSm0_faultCause (s : State.Of W M N) (v : BitVec W) : (s.setSm0 v).faultCause = s.faultCause := rfl
@[simp] theorem State.Of.setSm0_faultInfo (s : State.Of W M N) (v : BitVec W) : (s.setSm0 v).faultInfo = s.faultInfo := rfl
@[simp] theorem State.Of.setSm0_stopped (s : State.Of W M N) (v : BitVec W) : (s.setSm0 v).stopped = s.stopped := rfl
@[simp] theorem State.Of.setSm0_readReg (s : State.Of W M N) (v : BitVec W) (id : BitVec W) : (s.setSm0 v).readReg id = s.readReg id := rfl

/-! #### setSm1 -/

@[simp] theorem State.Of.setSm1_gpr (s : State.Of W M N) (v : BitVec W) : (s.setSm1 v).gpr = s.gpr := rfl
@[simp] theorem State.Of.setSm1_pc (s : State.Of W M N) (v : BitVec W) : (s.setSm1 v).pc = s.pc := rfl
@[simp] theorem State.Of.setSm1_ir (s : State.Of W M N) (v : BitVec W) : (s.setSm1 v).ir = s.ir := rfl
@[simp] theorem State.Of.setSm1_flags (s : State.Of W M N) (v : BitVec W) : (s.setSm1 v).flags = s.flags := rfl
@[simp] theorem State.Of.setSm1_mem (s : State.Of W M N) (v : BitVec W) : (s.setSm1 v).mem = s.mem := rfl
@[simp] theorem State.Of.setSm1_mar (s : State.Of W M N) (v : BitVec W) : (s.setSm1 v).mar = s.mar := rfl
@[simp] theorem State.Of.setSm1_marValid (s : State.Of W M N) (v : BitVec W) : (s.setSm1 v).marValid = s.marValid := rfl
@[simp] theorem State.Of.setSm1_sm0 (s : State.Of W M N) (v : BitVec W) : (s.setSm1 v).sm0 = s.sm0 := rfl
@[simp] theorem State.Of.setSm1_sm1 (s : State.Of W M N) (v : BitVec W) : (s.setSm1 v).sm1 = v := rfl
@[simp] theorem State.Of.setSm1_extBus (s : State.Of W M N) (v : BitVec W) : (s.setSm1 v).extBus = s.extBus := rfl
@[simp] theorem State.Of.setSm1_intBus (s : State.Of W M N) (v : BitVec W) : (s.setSm1 v).intBus = s.intBus := rfl
@[simp] theorem State.Of.setSm1_s0 (s : State.Of W M N) (v : BitVec W) : (s.setSm1 v).s0 = s.s0 := rfl
@[simp] theorem State.Of.setSm1_s1 (s : State.Of W M N) (v : BitVec W) : (s.setSm1 v).s1 = s.s1 := rfl
@[simp] theorem State.Of.setSm1_sel (s : State.Of W M N) (v : BitVec W) : (s.setSm1 v).sel = s.sel := rfl
@[simp] theorem State.Of.setSm1_upc (s : State.Of W M N) (v : BitVec W) : (s.setSm1 v).upc = s.upc := rfl
@[simp] theorem State.Of.setSm1_cuState (s : State.Of W M N) (v : BitVec W) : (s.setSm1 v).cuState = s.cuState := rfl
@[simp] theorem State.Of.setSm1_faultCause (s : State.Of W M N) (v : BitVec W) : (s.setSm1 v).faultCause = s.faultCause := rfl
@[simp] theorem State.Of.setSm1_faultInfo (s : State.Of W M N) (v : BitVec W) : (s.setSm1 v).faultInfo = s.faultInfo := rfl
@[simp] theorem State.Of.setSm1_stopped (s : State.Of W M N) (v : BitVec W) : (s.setSm1 v).stopped = s.stopped := rfl
@[simp] theorem State.Of.setSm1_readReg (s : State.Of W M N) (v : BitVec W) (id : BitVec W) : (s.setSm1 v).readReg id = s.readReg id := rfl

/-! #### setS0 -/

@[simp] theorem State.Of.setS0_gpr (s : State.Of W M N) (v : BitVec W) : (s.setS0 v).gpr = s.gpr := rfl
@[simp] theorem State.Of.setS0_pc (s : State.Of W M N) (v : BitVec W) : (s.setS0 v).pc = s.pc := rfl
@[simp] theorem State.Of.setS0_ir (s : State.Of W M N) (v : BitVec W) : (s.setS0 v).ir = s.ir := rfl
@[simp] theorem State.Of.setS0_flags (s : State.Of W M N) (v : BitVec W) : (s.setS0 v).flags = s.flags := rfl
@[simp] theorem State.Of.setS0_mem (s : State.Of W M N) (v : BitVec W) : (s.setS0 v).mem = s.mem := rfl
@[simp] theorem State.Of.setS0_mar (s : State.Of W M N) (v : BitVec W) : (s.setS0 v).mar = s.mar := rfl
@[simp] theorem State.Of.setS0_marValid (s : State.Of W M N) (v : BitVec W) : (s.setS0 v).marValid = s.marValid := rfl
@[simp] theorem State.Of.setS0_sm0 (s : State.Of W M N) (v : BitVec W) : (s.setS0 v).sm0 = s.sm0 := rfl
@[simp] theorem State.Of.setS0_sm1 (s : State.Of W M N) (v : BitVec W) : (s.setS0 v).sm1 = s.sm1 := rfl
@[simp] theorem State.Of.setS0_extBus (s : State.Of W M N) (v : BitVec W) : (s.setS0 v).extBus = s.extBus := rfl
@[simp] theorem State.Of.setS0_intBus (s : State.Of W M N) (v : BitVec W) : (s.setS0 v).intBus = s.intBus := rfl
@[simp] theorem State.Of.setS0_s0 (s : State.Of W M N) (v : BitVec W) : (s.setS0 v).s0 = v := rfl
@[simp] theorem State.Of.setS0_s1 (s : State.Of W M N) (v : BitVec W) : (s.setS0 v).s1 = s.s1 := rfl
@[simp] theorem State.Of.setS0_sel (s : State.Of W M N) (v : BitVec W) : (s.setS0 v).sel = s.sel := rfl
@[simp] theorem State.Of.setS0_upc (s : State.Of W M N) (v : BitVec W) : (s.setS0 v).upc = s.upc := rfl
@[simp] theorem State.Of.setS0_cuState (s : State.Of W M N) (v : BitVec W) : (s.setS0 v).cuState = s.cuState := rfl
@[simp] theorem State.Of.setS0_faultCause (s : State.Of W M N) (v : BitVec W) : (s.setS0 v).faultCause = s.faultCause := rfl
@[simp] theorem State.Of.setS0_faultInfo (s : State.Of W M N) (v : BitVec W) : (s.setS0 v).faultInfo = s.faultInfo := rfl
@[simp] theorem State.Of.setS0_stopped (s : State.Of W M N) (v : BitVec W) : (s.setS0 v).stopped = s.stopped := rfl
@[simp] theorem State.Of.setS0_readReg (s : State.Of W M N) (v : BitVec W) (id : BitVec W) : (s.setS0 v).readReg id = s.readReg id := rfl

/-! #### setS1 -/

@[simp] theorem State.Of.setS1_gpr (s : State.Of W M N) (v : BitVec W) : (s.setS1 v).gpr = s.gpr := rfl
@[simp] theorem State.Of.setS1_pc (s : State.Of W M N) (v : BitVec W) : (s.setS1 v).pc = s.pc := rfl
@[simp] theorem State.Of.setS1_ir (s : State.Of W M N) (v : BitVec W) : (s.setS1 v).ir = s.ir := rfl
@[simp] theorem State.Of.setS1_flags (s : State.Of W M N) (v : BitVec W) : (s.setS1 v).flags = s.flags := rfl
@[simp] theorem State.Of.setS1_mem (s : State.Of W M N) (v : BitVec W) : (s.setS1 v).mem = s.mem := rfl
@[simp] theorem State.Of.setS1_mar (s : State.Of W M N) (v : BitVec W) : (s.setS1 v).mar = s.mar := rfl
@[simp] theorem State.Of.setS1_marValid (s : State.Of W M N) (v : BitVec W) : (s.setS1 v).marValid = s.marValid := rfl
@[simp] theorem State.Of.setS1_sm0 (s : State.Of W M N) (v : BitVec W) : (s.setS1 v).sm0 = s.sm0 := rfl
@[simp] theorem State.Of.setS1_sm1 (s : State.Of W M N) (v : BitVec W) : (s.setS1 v).sm1 = s.sm1 := rfl
@[simp] theorem State.Of.setS1_extBus (s : State.Of W M N) (v : BitVec W) : (s.setS1 v).extBus = s.extBus := rfl
@[simp] theorem State.Of.setS1_intBus (s : State.Of W M N) (v : BitVec W) : (s.setS1 v).intBus = s.intBus := rfl
@[simp] theorem State.Of.setS1_s0 (s : State.Of W M N) (v : BitVec W) : (s.setS1 v).s0 = s.s0 := rfl
@[simp] theorem State.Of.setS1_s1 (s : State.Of W M N) (v : BitVec W) : (s.setS1 v).s1 = v := rfl
@[simp] theorem State.Of.setS1_sel (s : State.Of W M N) (v : BitVec W) : (s.setS1 v).sel = s.sel := rfl
@[simp] theorem State.Of.setS1_upc (s : State.Of W M N) (v : BitVec W) : (s.setS1 v).upc = s.upc := rfl
@[simp] theorem State.Of.setS1_cuState (s : State.Of W M N) (v : BitVec W) : (s.setS1 v).cuState = s.cuState := rfl
@[simp] theorem State.Of.setS1_faultCause (s : State.Of W M N) (v : BitVec W) : (s.setS1 v).faultCause = s.faultCause := rfl
@[simp] theorem State.Of.setS1_faultInfo (s : State.Of W M N) (v : BitVec W) : (s.setS1 v).faultInfo = s.faultInfo := rfl
@[simp] theorem State.Of.setS1_stopped (s : State.Of W M N) (v : BitVec W) : (s.setS1 v).stopped = s.stopped := rfl
@[simp] theorem State.Of.setS1_readReg (s : State.Of W M N) (v : BitVec W) (id : BitVec W) : (s.setS1 v).readReg id = s.readReg id := rfl

/-! #### setSel -/

@[simp] theorem State.Of.setSel_gpr (s : State.Of W M N) (v : BitVec W) : (s.setSel v).gpr = s.gpr := rfl
@[simp] theorem State.Of.setSel_pc (s : State.Of W M N) (v : BitVec W) : (s.setSel v).pc = s.pc := rfl
@[simp] theorem State.Of.setSel_ir (s : State.Of W M N) (v : BitVec W) : (s.setSel v).ir = s.ir := rfl
@[simp] theorem State.Of.setSel_flags (s : State.Of W M N) (v : BitVec W) : (s.setSel v).flags = s.flags := rfl
@[simp] theorem State.Of.setSel_mem (s : State.Of W M N) (v : BitVec W) : (s.setSel v).mem = s.mem := rfl
@[simp] theorem State.Of.setSel_mar (s : State.Of W M N) (v : BitVec W) : (s.setSel v).mar = s.mar := rfl
@[simp] theorem State.Of.setSel_marValid (s : State.Of W M N) (v : BitVec W) : (s.setSel v).marValid = s.marValid := rfl
@[simp] theorem State.Of.setSel_sm0 (s : State.Of W M N) (v : BitVec W) : (s.setSel v).sm0 = s.sm0 := rfl
@[simp] theorem State.Of.setSel_sm1 (s : State.Of W M N) (v : BitVec W) : (s.setSel v).sm1 = s.sm1 := rfl
@[simp] theorem State.Of.setSel_extBus (s : State.Of W M N) (v : BitVec W) : (s.setSel v).extBus = s.extBus := rfl
@[simp] theorem State.Of.setSel_intBus (s : State.Of W M N) (v : BitVec W) : (s.setSel v).intBus = s.intBus := rfl
@[simp] theorem State.Of.setSel_s0 (s : State.Of W M N) (v : BitVec W) : (s.setSel v).s0 = s.s0 := rfl
@[simp] theorem State.Of.setSel_s1 (s : State.Of W M N) (v : BitVec W) : (s.setSel v).s1 = s.s1 := rfl
@[simp] theorem State.Of.setSel_sel (s : State.Of W M N) (v : BitVec W) : (s.setSel v).sel = v := rfl
@[simp] theorem State.Of.setSel_upc (s : State.Of W M N) (v : BitVec W) : (s.setSel v).upc = s.upc := rfl
@[simp] theorem State.Of.setSel_cuState (s : State.Of W M N) (v : BitVec W) : (s.setSel v).cuState = s.cuState := rfl
@[simp] theorem State.Of.setSel_faultCause (s : State.Of W M N) (v : BitVec W) : (s.setSel v).faultCause = s.faultCause := rfl
@[simp] theorem State.Of.setSel_faultInfo (s : State.Of W M N) (v : BitVec W) : (s.setSel v).faultInfo = s.faultInfo := rfl
@[simp] theorem State.Of.setSel_stopped (s : State.Of W M N) (v : BitVec W) : (s.setSel v).stopped = s.stopped := rfl
@[simp] theorem State.Of.setSel_readReg (s : State.Of W M N) (v : BitVec W) (id : BitVec W) : (s.setSel v).readReg id = s.readReg id := rfl

/-! #### seqTo -/

@[simp] theorem State.Of.seqTo_gpr (s : State.Of W M N) (u : MicroAddr) : (s.seqTo u).gpr = s.gpr := rfl
@[simp] theorem State.Of.seqTo_pc (s : State.Of W M N) (u : MicroAddr) : (s.seqTo u).pc = s.pc := rfl
@[simp] theorem State.Of.seqTo_ir (s : State.Of W M N) (u : MicroAddr) : (s.seqTo u).ir = s.ir := rfl
@[simp] theorem State.Of.seqTo_flags (s : State.Of W M N) (u : MicroAddr) : (s.seqTo u).flags = s.flags := rfl
@[simp] theorem State.Of.seqTo_mem (s : State.Of W M N) (u : MicroAddr) : (s.seqTo u).mem = s.mem := rfl
@[simp] theorem State.Of.seqTo_mar (s : State.Of W M N) (u : MicroAddr) : (s.seqTo u).mar = s.mar := rfl
@[simp] theorem State.Of.seqTo_marValid (s : State.Of W M N) (u : MicroAddr) : (s.seqTo u).marValid = s.marValid := rfl
@[simp] theorem State.Of.seqTo_sm0 (s : State.Of W M N) (u : MicroAddr) : (s.seqTo u).sm0 = s.sm0 := rfl
@[simp] theorem State.Of.seqTo_sm1 (s : State.Of W M N) (u : MicroAddr) : (s.seqTo u).sm1 = s.sm1 := rfl
@[simp] theorem State.Of.seqTo_extBus (s : State.Of W M N) (u : MicroAddr) : (s.seqTo u).extBus = s.extBus := rfl
@[simp] theorem State.Of.seqTo_intBus (s : State.Of W M N) (u : MicroAddr) : (s.seqTo u).intBus = s.intBus := rfl
@[simp] theorem State.Of.seqTo_s0 (s : State.Of W M N) (u : MicroAddr) : (s.seqTo u).s0 = s.s0 := rfl
@[simp] theorem State.Of.seqTo_s1 (s : State.Of W M N) (u : MicroAddr) : (s.seqTo u).s1 = s.s1 := rfl
@[simp] theorem State.Of.seqTo_sel (s : State.Of W M N) (u : MicroAddr) : (s.seqTo u).sel = s.sel := rfl
@[simp] theorem State.Of.seqTo_upc (s : State.Of W M N) (u : MicroAddr) : (s.seqTo u).upc = u := rfl
@[simp] theorem State.Of.seqTo_cuState (s : State.Of W M N) (u : MicroAddr) : (s.seqTo u).cuState = phaseOf u := rfl
@[simp] theorem State.Of.seqTo_faultCause (s : State.Of W M N) (u : MicroAddr) : (s.seqTo u).faultCause = s.faultCause := rfl
@[simp] theorem State.Of.seqTo_faultInfo (s : State.Of W M N) (u : MicroAddr) : (s.seqTo u).faultInfo = s.faultInfo := rfl
@[simp] theorem State.Of.seqTo_readReg (s : State.Of W M N) (u : MicroAddr) (id : BitVec W) : (s.seqTo u).readReg id = s.readReg id := rfl

/-! #### halt -/

@[simp] theorem State.Of.halt_gpr (s : State.Of W M N) : (s.halt).gpr = s.gpr := rfl
@[simp] theorem State.Of.halt_pc (s : State.Of W M N) : (s.halt).pc = s.pc := rfl
@[simp] theorem State.Of.halt_ir (s : State.Of W M N) : (s.halt).ir = s.ir := rfl
@[simp] theorem State.Of.halt_flags (s : State.Of W M N) : (s.halt).flags = s.flags := rfl
@[simp] theorem State.Of.halt_mem (s : State.Of W M N) : (s.halt).mem = s.mem := rfl
@[simp] theorem State.Of.halt_mar (s : State.Of W M N) : (s.halt).mar = s.mar := rfl
@[simp] theorem State.Of.halt_marValid (s : State.Of W M N) : (s.halt).marValid = s.marValid := rfl
@[simp] theorem State.Of.halt_sm0 (s : State.Of W M N) : (s.halt).sm0 = s.sm0 := rfl
@[simp] theorem State.Of.halt_sm1 (s : State.Of W M N) : (s.halt).sm1 = s.sm1 := rfl
@[simp] theorem State.Of.halt_extBus (s : State.Of W M N) : (s.halt).extBus = s.extBus := rfl
@[simp] theorem State.Of.halt_intBus (s : State.Of W M N) : (s.halt).intBus = s.intBus := rfl
@[simp] theorem State.Of.halt_s0 (s : State.Of W M N) : (s.halt).s0 = s.s0 := rfl
@[simp] theorem State.Of.halt_s1 (s : State.Of W M N) : (s.halt).s1 = s.s1 := rfl
@[simp] theorem State.Of.halt_sel (s : State.Of W M N) : (s.halt).sel = s.sel := rfl
@[simp] theorem State.Of.halt_upc (s : State.Of W M N) : (s.halt).upc = s.upc := rfl
@[simp] theorem State.Of.halt_cuState (s : State.Of W M N) : (s.halt).cuState = .halt := rfl
@[simp] theorem State.Of.halt_faultCause (s : State.Of W M N) : (s.halt).faultCause = s.faultCause := rfl
@[simp] theorem State.Of.halt_faultInfo (s : State.Of W M N) : (s.halt).faultInfo = s.faultInfo := rfl
@[simp] theorem State.Of.halt_readReg (s : State.Of W M N) (id : BitVec W) : (s.halt).readReg id = s.readReg id := rfl

/-! #### raise -/

@[simp] theorem State.Of.raise_gpr (s : State.Of W M N) (c : FaultCause) (i : BitVec W) : (s.raise c i).gpr = s.gpr := rfl
@[simp] theorem State.Of.raise_pc (s : State.Of W M N) (c : FaultCause) (i : BitVec W) : (s.raise c i).pc = s.pc := rfl
@[simp] theorem State.Of.raise_ir (s : State.Of W M N) (c : FaultCause) (i : BitVec W) : (s.raise c i).ir = s.ir := rfl
@[simp] theorem State.Of.raise_flags (s : State.Of W M N) (c : FaultCause) (i : BitVec W) : (s.raise c i).flags = s.flags := rfl
@[simp] theorem State.Of.raise_mem (s : State.Of W M N) (c : FaultCause) (i : BitVec W) : (s.raise c i).mem = s.mem := rfl
@[simp] theorem State.Of.raise_mar (s : State.Of W M N) (c : FaultCause) (i : BitVec W) : (s.raise c i).mar = s.mar := rfl
@[simp] theorem State.Of.raise_marValid (s : State.Of W M N) (c : FaultCause) (i : BitVec W) : (s.raise c i).marValid = s.marValid := rfl
@[simp] theorem State.Of.raise_sm0 (s : State.Of W M N) (c : FaultCause) (i : BitVec W) : (s.raise c i).sm0 = s.sm0 := rfl
@[simp] theorem State.Of.raise_sm1 (s : State.Of W M N) (c : FaultCause) (i : BitVec W) : (s.raise c i).sm1 = s.sm1 := rfl
@[simp] theorem State.Of.raise_extBus (s : State.Of W M N) (c : FaultCause) (i : BitVec W) : (s.raise c i).extBus = s.extBus := rfl
@[simp] theorem State.Of.raise_intBus (s : State.Of W M N) (c : FaultCause) (i : BitVec W) : (s.raise c i).intBus = s.intBus := rfl
@[simp] theorem State.Of.raise_s0 (s : State.Of W M N) (c : FaultCause) (i : BitVec W) : (s.raise c i).s0 = s.s0 := rfl
@[simp] theorem State.Of.raise_s1 (s : State.Of W M N) (c : FaultCause) (i : BitVec W) : (s.raise c i).s1 = s.s1 := rfl
@[simp] theorem State.Of.raise_sel (s : State.Of W M N) (c : FaultCause) (i : BitVec W) : (s.raise c i).sel = s.sel := rfl
@[simp] theorem State.Of.raise_upc (s : State.Of W M N) (c : FaultCause) (i : BitVec W) : (s.raise c i).upc = s.upc := rfl
@[simp] theorem State.Of.raise_cuState (s : State.Of W M N) (c : FaultCause) (i : BitVec W) : (s.raise c i).cuState = .fault := rfl
@[simp] theorem State.Of.raise_faultCause (s : State.Of W M N) (c : FaultCause) (i : BitVec W) : (s.raise c i).faultCause = c := rfl
@[simp] theorem State.Of.raise_faultInfo (s : State.Of W M N) (c : FaultCause) (i : BitVec W) : (s.raise c i).faultInfo = i := rfl
@[simp] theorem State.Of.raise_readReg (s : State.Of W M N) (c : FaultCause) (i : BitVec W) (id : BitVec W) : (s.raise c i).readReg id = s.readReg id := rfl

/-! #### Stopping -/

@[simp] theorem State.Of.halt_stopped (s : State.Of W M N) : s.halt.stopped = true := rfl
@[simp] theorem State.Of.raise_stopped (s : State.Of W M N) (c : FaultCause) (i : BitVec W) : (s.raise c i).stopped = true := rfl

theorem phaseOf_cases (u : MicroAddr) : phaseOf u = .fetch ∨ phaseOf u = .decode ∨ phaseOf u = .execute := by
  unfold phaseOf; split
  · exact .inl rfl
  · split
    · exact .inr (.inl rfl)
    · exact .inr (.inr rfl)

@[simp] theorem State.Of.seqTo_stopped (s : State.Of W M N) (u : MicroAddr) : (s.seqTo u).stopped = false := by
  rcases phaseOf_cases u with h | h | h <;> simp [State.Of.stopped, h]

theorem State.Of.not_stopped_of_execute {s : State.Of W M N} (h : s.cuState = .execute) : s.stopped = false := by
  simp [State.Of.stopped, h]

/-- UPC alone decides the phase of a running machine: inside a microprogram it is EXECUTE. -/
theorem phaseOf_execute {u : MicroAddr} (h : 5 ≤ u.toNat) : phaseOf u = .execute := by
  unfold phaseOf; rw [if_neg (by omega), if_neg (by omega)]

/-! #### The register file -/

/-- A non-negative Word is its number. -/
theorem toNat_of_nonneg {v : BitVec W} (h : 0 ≤ v.toInt) : (v.toNat : Int) = v.toInt := by
  have := v.isLt
  rw [BitVec.toInt_eq_toNat_cond] at h ⊢
  split at h <;> rename_i hc
  · rw [if_pos hc]
  · omega

/-- A legal register ID as a number (R130). -/
theorem toNat_lt_of_legalReg {id : BitVec W} (h : legalReg N id = true) : id.toNat < nregOf N := by
  simp only [legalReg, Bool.and_eq_true, decide_eq_true_eq] at h
  have := toNat_of_nonneg h.1
  omega

/-- A legal address as a number (R85). -/
theorem toNat_lt_of_legalMem {a : BitVec W} (h : legalMem M a = true) : a.toNat < M := by
  simp only [legalMem, Bool.and_eq_true, decide_eq_true_eq] at h
  have := toNat_of_nonneg h.1
  omega

/-- For a legal MEM_SIZE the signed bounds check is the unsigned one (R6, R85, D24). -/
theorem legalMem_iff_toNat (hM : M ≤ 2 ^ (W - 1)) (hW : 1 ≤ W) (a : BitVec W) :
    legalMem M a = true ↔ a.toNat < M := by
  refine ⟨toNat_lt_of_legalMem, fun h => ?_⟩
  have hp : 2 ^ W = 2 * 2 ^ (W - 1) := by
    rw [← Nat.pow_succ', Nat.succ_eq_add_one, Nat.sub_add_cancel hW]
  simp only [legalMem, Bool.and_eq_true, decide_eq_true_eq]
  rw [BitVec.toInt_eq_toNat_cond, if_pos (by omega)]
  omega

/-- A legal register ID of the default file as a number (R130). -/
theorem legalReg_iff (id : Word) : legalReg Config.ngpr id = true ↔ id.toNat < Config.nreg := by
  simp only [legalReg, Bool.and_eq_true, decide_eq_true_eq]
  rw [show (nregOf Config.ngpr : Nat) = 7 from rfl, Config.nreg_eq, BitVec.toInt_eq_toNat_cond]; split <;> omega

/-- A legal address of the default Memory as a number (R85). -/
theorem legalMem_iff (a : Word) : legalMem Config.memSize a = true ↔ a.toNat < Config.memSize :=
  legalMem_iff_toNat (by decide) (by decide) a

/-- A legal register ID is latched without complaint (R39). -/
theorem not_neg_of_legalReg {id : BitVec W} (h : legalReg N id = true) : ¬ id.toInt < 0 := by
  simp only [legalReg, Bool.and_eq_true, decide_eq_true_eq] at h; omega

/-- What a store into the file can be (R38): one of a general register, PC, IR, FLAGS; nothing at an index that
the file does not have. -/
theorem State.Of.writeFile_cases (s : State.Of W M N) (k : Nat) (v : BitVec W) :
    (k < N ∧ s.writeFile k v = s.setGpr (s.gpr.setIfInBounds k v)) ∨
    (k = idxPCOf N ∧ s.writeFile k v = s.setPc v) ∨
    (k = idxIROf N ∧ s.writeFile k v = s.setIr v) ∨
    (k = idxFLAGSOf N ∧ s.writeFile k v = s.setFlags v) ∨
    (nregOf N ≤ k ∧ s.writeFile k v = s) := by
  unfold State.Of.writeFile
  split
  · exact .inl ⟨‹_›, rfl⟩
  split
  · exact .inr (.inl ⟨‹_›, rfl⟩)
  split
  · exact .inr (.inr (.inl ⟨‹_›, rfl⟩))
  split
  · exact .inr (.inr (.inr (.inl ⟨‹_›, rfl⟩)))
  · refine .inr (.inr (.inr (.inr ⟨?_, rfl⟩)))
    simp only [idxPCOf, idxIROf, idxFLAGSOf, nregOf] at *
    omega

@[simp] theorem State.Of.writeFile_mem (s : State.Of W M N) (k : Nat) (v : BitVec W) : (s.writeFile k v).mem = s.mem := by
  rcases s.writeFile_cases k v with ⟨_, h⟩ | ⟨_, h⟩ | ⟨_, h⟩ | ⟨_, h⟩ | ⟨_, h⟩ <;> rw [h] <;> rfl

/-- A store at an index that the file has reads back (R28, R38). -/
theorem State.Of.readFile_writeFile_same (s : State.Of W M N) {k : Nat} (v : BitVec W) (h : k < nregOf N) :
    (s.writeFile k v).readFile k = v := by
  rcases s.writeFile_cases k v with ⟨h1, e⟩ | ⟨h1, e⟩ | ⟨h1, e⟩ | ⟨h1, e⟩ | ⟨h1, _⟩
  · rw [e, State.Of.readFile, if_pos h1, State.Of.setGpr_gpr, Vector.getElem?_setIfInBounds_self, if_pos h1]
    rfl
  · rw [e]; simp [State.Of.readFile, h1, idxPCOf]
  · rw [e]; simp [State.Of.readFile, h1, idxPCOf, idxIROf]
  · rw [e]; simp [State.Of.readFile, h1, idxPCOf, idxIROf, idxFLAGSOf]
  · omega

/-- A store leaves every other register of the file alone (R28: no aliases). -/
theorem State.Of.readFile_writeFile_other (s : State.Of W M N) {k j : Nat} (v : BitVec W) (hn : j ≠ k) :
    (s.writeFile k v).readFile j = s.readFile j := by
  rcases s.writeFile_cases k v with ⟨h1, e⟩ | ⟨h1, e⟩ | ⟨h1, e⟩ | ⟨h1, e⟩ | ⟨_, e⟩ <;> rw [e]
  · simp only [State.Of.readFile, State.Of.setGpr_gpr, State.Of.setGpr_pc, State.Of.setGpr_ir, State.Of.setGpr_flags]
    rw [Vector.getElem?_setIfInBounds_ne (by omega)]
  all_goals
    simp only [State.Of.readFile, State.Of.setPc, State.Of.setIr, State.Of.setFlags]
    rw [h1] at hn
    simp only [hn, if_false]

/-- What a register store can be (R38): one of a general register, PC, IR, FLAGS; nothing on an ID
that is not legal. -/
theorem State.Of.writeReg_cases (s : State.Of W M N) (id : BitVec W) (v : BitVec W) :
    (id.toNat < N ∧ s.writeReg id v = s.setGpr (s.gpr.setIfInBounds id.toNat v)) ∨
    (id.toNat = idxPCOf N ∧ s.writeReg id v = s.setPc v) ∨
    (id.toNat = idxIROf N ∧ s.writeReg id v = s.setIr v) ∨
    (id.toNat = idxFLAGSOf N ∧ s.writeReg id v = s.setFlags v) ∨
    (legalReg N id = false ∧ s.writeReg id v = s) := by
  rcases s.writeFile_cases id.toNat v with h | h | h | h | ⟨h, e⟩
  · exact .inl h
  · exact .inr (.inl h)
  · exact .inr (.inr (.inl h))
  · exact .inr (.inr (.inr (.inl h)))
  · refine .inr (.inr (.inr (.inr ⟨?_, e⟩)))
    rw [← Bool.not_eq_true]
    intro hl
    have := toNat_lt_of_legalReg hl
    omega

@[simp] theorem State.Of.writeReg_mem (s : State.Of W M N) (id : BitVec W) (v : BitVec W) : (s.writeReg id v).mem = s.mem := by
  rcases s.writeReg_cases id v with ⟨_, h⟩ | ⟨_, h⟩ | ⟨_, h⟩ | ⟨_, h⟩ | ⟨_, h⟩ <;> rw [h] <;> rfl
@[simp] theorem State.Of.writeReg_mar (s : State.Of W M N) (id : BitVec W) (v : BitVec W) : (s.writeReg id v).mar = s.mar := by
  rcases s.writeReg_cases id v with ⟨_, h⟩ | ⟨_, h⟩ | ⟨_, h⟩ | ⟨_, h⟩ | ⟨_, h⟩ <;> rw [h] <;> rfl
@[simp] theorem State.Of.writeReg_marValid (s : State.Of W M N) (id : BitVec W) (v : BitVec W) : (s.writeReg id v).marValid = s.marValid := by
  rcases s.writeReg_cases id v with ⟨_, h⟩ | ⟨_, h⟩ | ⟨_, h⟩ | ⟨_, h⟩ | ⟨_, h⟩ <;> rw [h] <;> rfl
@[simp] theorem State.Of.writeReg_sm0 (s : State.Of W M N) (id : BitVec W) (v : BitVec W) : (s.writeReg id v).sm0 = s.sm0 := by
  rcases s.writeReg_cases id v with ⟨_, h⟩ | ⟨_, h⟩ | ⟨_, h⟩ | ⟨_, h⟩ | ⟨_, h⟩ <;> rw [h] <;> rfl
@[simp] theorem State.Of.writeReg_sm1 (s : State.Of W M N) (id : BitVec W) (v : BitVec W) : (s.writeReg id v).sm1 = s.sm1 := by
  rcases s.writeReg_cases id v with ⟨_, h⟩ | ⟨_, h⟩ | ⟨_, h⟩ | ⟨_, h⟩ | ⟨_, h⟩ <;> rw [h] <;> rfl
@[simp] theorem State.Of.writeReg_extBus (s : State.Of W M N) (id : BitVec W) (v : BitVec W) : (s.writeReg id v).extBus = s.extBus := by
  rcases s.writeReg_cases id v with ⟨_, h⟩ | ⟨_, h⟩ | ⟨_, h⟩ | ⟨_, h⟩ | ⟨_, h⟩ <;> rw [h] <;> rfl
@[simp] theorem State.Of.writeReg_intBus (s : State.Of W M N) (id : BitVec W) (v : BitVec W) : (s.writeReg id v).intBus = s.intBus := by
  rcases s.writeReg_cases id v with ⟨_, h⟩ | ⟨_, h⟩ | ⟨_, h⟩ | ⟨_, h⟩ | ⟨_, h⟩ <;> rw [h] <;> rfl
@[simp] theorem State.Of.writeReg_s0 (s : State.Of W M N) (id : BitVec W) (v : BitVec W) : (s.writeReg id v).s0 = s.s0 := by
  rcases s.writeReg_cases id v with ⟨_, h⟩ | ⟨_, h⟩ | ⟨_, h⟩ | ⟨_, h⟩ | ⟨_, h⟩ <;> rw [h] <;> rfl
@[simp] theorem State.Of.writeReg_s1 (s : State.Of W M N) (id : BitVec W) (v : BitVec W) : (s.writeReg id v).s1 = s.s1 := by
  rcases s.writeReg_cases id v with ⟨_, h⟩ | ⟨_, h⟩ | ⟨_, h⟩ | ⟨_, h⟩ | ⟨_, h⟩ <;> rw [h] <;> rfl
@[simp] theorem State.Of.writeReg_sel (s : State.Of W M N) (id : BitVec W) (v : BitVec W) : (s.writeReg id v).sel = s.sel := by
  rcases s.writeReg_cases id v with ⟨_, h⟩ | ⟨_, h⟩ | ⟨_, h⟩ | ⟨_, h⟩ | ⟨_, h⟩ <;> rw [h] <;> rfl
@[simp] theorem State.Of.writeReg_upc (s : State.Of W M N) (id : BitVec W) (v : BitVec W) : (s.writeReg id v).upc = s.upc := by
  rcases s.writeReg_cases id v with ⟨_, h⟩ | ⟨_, h⟩ | ⟨_, h⟩ | ⟨_, h⟩ | ⟨_, h⟩ <;> rw [h] <;> rfl
@[simp] theorem State.Of.writeReg_cuState (s : State.Of W M N) (id : BitVec W) (v : BitVec W) : (s.writeReg id v).cuState = s.cuState := by
  rcases s.writeReg_cases id v with ⟨_, h⟩ | ⟨_, h⟩ | ⟨_, h⟩ | ⟨_, h⟩ | ⟨_, h⟩ <;> rw [h] <;> rfl
@[simp] theorem State.Of.writeReg_faultCause (s : State.Of W M N) (id : BitVec W) (v : BitVec W) : (s.writeReg id v).faultCause = s.faultCause := by
  rcases s.writeReg_cases id v with ⟨_, h⟩ | ⟨_, h⟩ | ⟨_, h⟩ | ⟨_, h⟩ | ⟨_, h⟩ <;> rw [h] <;> rfl
@[simp] theorem State.Of.writeReg_faultInfo (s : State.Of W M N) (id : BitVec W) (v : BitVec W) : (s.writeReg id v).faultInfo = s.faultInfo := by
  rcases s.writeReg_cases id v with ⟨_, h⟩ | ⟨_, h⟩ | ⟨_, h⟩ | ⟨_, h⟩ | ⟨_, h⟩ <;> rw [h] <;> rfl
@[simp] theorem State.Of.writeReg_stopped (s : State.Of W M N) (id : BitVec W) (v : BitVec W) : (s.writeReg id v).stopped = s.stopped := by
  simp [State.Of.stopped]

/-- A stored register reads back (R28, R38). -/
theorem State.Of.readReg_writeReg_same (s : State.Of W M N) {id : BitVec W} (v : BitVec W) (h : legalReg N id = true) :
    (s.writeReg id v).readReg id = v := s.readFile_writeFile_same v (toNat_lt_of_legalReg h)

/-- A store leaves every other register alone (R28: no aliases). -/
theorem State.Of.readReg_writeReg_other (s : State.Of W M N) {id j : BitVec W} (v : BitVec W) (h : j ≠ id) :
    (s.writeReg id v).readReg j = s.readReg j :=
  s.readFile_writeFile_other v fun e => h (BitVec.eq_of_toNat_eq e)

/-! #### The sequencer's move commutes with every other update -/

@[simp] theorem State.Of.seqTo_putExt (s : State.Of W M N) (x : MicroAddr) (v : BitVec W) : (s.seqTo x).putExt v = (s.putExt v).seqTo x := rfl
@[simp] theorem State.Of.seqTo_putInt (s : State.Of W M N) (x : MicroAddr) (v : BitVec W) : (s.seqTo x).putInt v = (s.putInt v).seqTo x := rfl
@[simp] theorem State.Of.seqTo_setPc (s : State.Of W M N) (x : MicroAddr) (v : BitVec W) : (s.seqTo x).setPc v = (s.setPc v).seqTo x := rfl
@[simp] theorem State.Of.seqTo_setIr (s : State.Of W M N) (x : MicroAddr) (v : BitVec W) : (s.seqTo x).setIr v = (s.setIr v).seqTo x := rfl
@[simp] theorem State.Of.seqTo_setFlags (s : State.Of W M N) (x : MicroAddr) (v : BitVec W) : (s.seqTo x).setFlags v = (s.setFlags v).seqTo x := rfl
@[simp] theorem State.Of.seqTo_setGpr (s : State.Of W M N) (x : MicroAddr) (g : Vector (BitVec W) N) : (s.seqTo x).setGpr g = (s.setGpr g).seqTo x := rfl
@[simp] theorem State.Of.seqTo_setMem (s : State.Of W M N) (x : MicroAddr) (m : Memory W) : (s.seqTo x).setMem m = (s.setMem m).seqTo x := rfl
@[simp] theorem State.Of.seqTo_latchMar (s : State.Of W M N) (x : MicroAddr) (a : BitVec W) : (s.seqTo x).latchMar a = (s.latchMar a).seqTo x := rfl
@[simp] theorem State.Of.seqTo_consumeMar (s : State.Of W M N) (x : MicroAddr) : (s.seqTo x).consumeMar = (s.consumeMar).seqTo x := rfl
@[simp] theorem State.Of.seqTo_setSm0 (s : State.Of W M N) (x : MicroAddr) (v : BitVec W) : (s.seqTo x).setSm0 v = (s.setSm0 v).seqTo x := rfl
@[simp] theorem State.Of.seqTo_setSm1 (s : State.Of W M N) (x : MicroAddr) (v : BitVec W) : (s.seqTo x).setSm1 v = (s.setSm1 v).seqTo x := rfl
@[simp] theorem State.Of.seqTo_setS0 (s : State.Of W M N) (x : MicroAddr) (v : BitVec W) : (s.seqTo x).setS0 v = (s.setS0 v).seqTo x := rfl
@[simp] theorem State.Of.seqTo_setS1 (s : State.Of W M N) (x : MicroAddr) (v : BitVec W) : (s.seqTo x).setS1 v = (s.setS1 v).seqTo x := rfl
@[simp] theorem State.Of.seqTo_setSel (s : State.Of W M N) (x : MicroAddr) (v : BitVec W) : (s.seqTo x).setSel v = (s.setSel v).seqTo x := rfl
@[simp] theorem State.Of.seqTo_seqTo (s : State.Of W M N) (x y : MicroAddr) : (s.seqTo x).seqTo y = s.seqTo y := rfl
@[simp] theorem State.Of.seqTo_writeReg (s : State.Of W M N) (x : MicroAddr) (id : BitVec W) (v : BitVec W) :
    (s.seqTo x).writeReg id v = (s.writeReg id v).seqTo x := by
  unfold State.Of.writeReg State.Of.writeFile
  simp only [State.Of.seqTo_setGpr, State.Of.seqTo_setPc, State.Of.seqTo_setIr, State.Of.seqTo_setFlags, State.Of.seqTo_gpr]
  repeat' split
  all_goals rfl

/-! #### A register store commutes with the updates of elements outside the file -/

@[simp] theorem State.Of.putExt_writeReg (s : State.Of W M N) (x : BitVec W) (id : BitVec W) (v : BitVec W) :
    (s.putExt x).writeReg id v = (s.writeReg id v).putExt x := by
  unfold State.Of.writeReg State.Of.writeFile; repeat' split
  all_goals rfl
@[simp] theorem State.Of.putInt_writeReg (s : State.Of W M N) (x : BitVec W) (id : BitVec W) (v : BitVec W) :
    (s.putInt x).writeReg id v = (s.writeReg id v).putInt x := by
  unfold State.Of.writeReg State.Of.writeFile; repeat' split
  all_goals rfl
@[simp] theorem State.Of.setMem_writeReg (s : State.Of W M N) (m : Memory W) (id : BitVec W) (v : BitVec W) :
    (s.setMem m).writeReg id v = (s.writeReg id v).setMem m := by
  unfold State.Of.writeReg State.Of.writeFile; repeat' split
  all_goals rfl
@[simp] theorem State.Of.latchMar_writeReg (s : State.Of W M N) (a : BitVec W) (id : BitVec W) (v : BitVec W) :
    (s.latchMar a).writeReg id v = (s.writeReg id v).latchMar a := by
  unfold State.Of.writeReg State.Of.writeFile; repeat' split
  all_goals rfl
@[simp] theorem State.Of.consumeMar_writeReg (s : State.Of W M N) (id : BitVec W) (v : BitVec W) :
    (s.consumeMar).writeReg id v = (s.writeReg id v).consumeMar := by
  unfold State.Of.writeReg State.Of.writeFile; repeat' split
  all_goals rfl
@[simp] theorem State.Of.setSm0_writeReg (s : State.Of W M N) (x : BitVec W) (id : BitVec W) (v : BitVec W) :
    (s.setSm0 x).writeReg id v = (s.writeReg id v).setSm0 x := by
  unfold State.Of.writeReg State.Of.writeFile; repeat' split
  all_goals rfl
@[simp] theorem State.Of.setSm1_writeReg (s : State.Of W M N) (x : BitVec W) (id : BitVec W) (v : BitVec W) :
    (s.setSm1 x).writeReg id v = (s.writeReg id v).setSm1 x := by
  unfold State.Of.writeReg State.Of.writeFile; repeat' split
  all_goals rfl
@[simp] theorem State.Of.setS0_writeReg (s : State.Of W M N) (x : BitVec W) (id : BitVec W) (v : BitVec W) :
    (s.setS0 x).writeReg id v = (s.writeReg id v).setS0 x := by
  unfold State.Of.writeReg State.Of.writeFile; repeat' split
  all_goals rfl
@[simp] theorem State.Of.setS1_writeReg (s : State.Of W M N) (x : BitVec W) (id : BitVec W) (v : BitVec W) :
    (s.setS1 x).writeReg id v = (s.writeReg id v).setS1 x := by
  unfold State.Of.writeReg State.Of.writeFile; repeat' split
  all_goals rfl
@[simp] theorem State.Of.setSel_writeReg (s : State.Of W M N) (x : BitVec W) (id : BitVec W) (v : BitVec W) :
    (s.setSel x).writeReg id v = (s.writeReg id v).setSel x := by
  unfold State.Of.writeReg State.Of.writeFile; repeat' split
  all_goals rfl

/-! #### What a register store does to each register -/

theorem State.Of.writeReg_gpr (s : State.Of W M N) (id : BitVec W) (v : BitVec W) : (s.writeReg id v).gpr =
    if id.toNat < N then s.gpr.setIfInBounds id.toNat v else s.gpr := by
  unfold State.Of.writeReg State.Of.writeFile; repeat' split
  all_goals rfl

theorem State.Of.writeReg_pc (s : State.Of W M N) (id : BitVec W) (v : BitVec W) : (s.writeReg id v).pc =
    if id.toNat = idxPCOf N then v else s.pc := by
  unfold State.Of.writeReg State.Of.writeFile; repeat' split
  all_goals first | rfl | (simp only [idxPCOf] at *; omega)

theorem State.Of.writeReg_ir (s : State.Of W M N) (id : BitVec W) (v : BitVec W) : (s.writeReg id v).ir =
    if id.toNat = idxIROf N then v else s.ir := by
  unfold State.Of.writeReg State.Of.writeFile; repeat' split
  all_goals first | rfl | (simp only [idxPCOf, idxIROf] at *; omega)

theorem State.Of.writeReg_flags (s : State.Of W M N) (id : BitVec W) (v : BitVec W) : (s.writeReg id v).flags =
    if id.toNat = idxFLAGSOf N then v else s.flags := by
  unfold State.Of.writeReg State.Of.writeFile; repeat' split
  all_goals first | rfl | (simp only [idxPCOf, idxIROf, idxFLAGSOf] at *; omega)

/-- A register read depends on the four elements of the file alone (R38). -/
theorem State.Of.readReg_congr {s t : State.Of W M N} (id : BitVec W) (hg : s.gpr = t.gpr) (hp : s.pc = t.pc)
    (hi : s.ir = t.ir) (hf : s.flags = t.flags) : s.readReg id = t.readReg id := by
  simp [State.Of.readReg, State.Of.readFile, hg, hp, hi, hf]

end Sys2Proof.Machine
end

