-- ==== Sys2Proof/Laws/Memory.lean ====
section
/-! SUPPORT. The Memory array: a read returns the last write (R95, R98), and every operation keeps the
canonical form. -/

namespace Sys2Proof.Machine

variable {W M N : Nat}

@[simp] theorem Memory.read_nil (a : Nat) : Memory.read (W := W) [] a = 0 := rfl

/-- A cell reads what was last written to it (R98). -/
theorem Memory.read_write_same (m : Memory W) (a : Nat) (v : BitVec W) (h : m.wf M) : (m.write a v).read a = v := by
  induction m with
  | nil =>
    simp only [Memory.write]; split
    · simp [*, Memory.unlisted]
    · simp [Memory.read]
  | cons p m ih =>
    obtain ⟨b, u⟩ := p
    have hm : Memory.wf m M := ⟨h.1.of_cons, fun q hq => h.2 q (List.mem_cons_of_mem _ hq)⟩
    have above : ∀ k : Nat, k ≤ b → Memory.read m k = 0 := by
      intro k hk
      have hall := (List.pairwise_cons.1 h.1).1
      clear ih hm h
      induction m with
      | nil => rfl
      | cons q m ih =>
        obtain ⟨c, w⟩ := q
        have hc := hall (c, w) (List.mem_cons_self ..)
        rw [Memory.read, if_neg (by simp at hc; omega)]
        exact ih (fun r hr => hall r (List.mem_cons_of_mem _ hr))
    simp only [Memory.write]
    split
    · rename_i hab
      split
      · rename_i hv
        rw [Memory.read, if_neg (by omega), above a (by omega), hv]; rfl
      · rw [Memory.read, if_pos rfl]
    split
    · rename_i hab
      split
      · rename_i hv
        rw [above a (by omega), hv]; rfl
      · rw [Memory.read, if_pos rfl]
    · rw [Memory.read, if_neg (by assumption)]
      exact ih hm

/-- A write leaves every other cell alone (R95). -/
theorem Memory.read_write_other (m : Memory W) {a b : Nat} (v : BitVec W) (hab : b ≠ a) :
    (m.write a v).read b = m.read b := by
  induction m with
  | nil =>
    simp only [Memory.write]; split
    · rfl
    · exact if_neg hab
  | cons p m ih =>
    obtain ⟨c, u⟩ := p
    simp only [Memory.write]
    split
    · split
      · rfl
      · exact if_neg hab
    split
    · rename_i hac
      split
      · exact (if_neg (by omega)).symm
      · exact (if_neg hab).trans (if_neg (by omega)).symm
    · show (if b = c then u else Memory.read (Memory.write m a v) b) = if b = c then u else Memory.read m b
      rw [ih]

/-- The entries after a write: the old ones, and the new one if its value is listed. -/
theorem Memory.mem_write {m : Memory W} {a : Nat} {v : BitVec W} {p : Nat × BitVec W} (h : p ∈ m.write a v) :
    p ∈ m ∨ (p = (a, v) ∧ v ≠ Memory.unlisted) := by
  induction m with
  | nil =>
    simp only [Memory.write] at h; split at h
    · cases h
    · exact .inr ⟨by simpa using h, ‹_›⟩
  | cons q m ih =>
    obtain ⟨b, u⟩ := q
    simp only [Memory.write] at h
    split at h
    · split at h
      · exact .inl h
      · rcases List.mem_cons.1 h with h | h
        · exact .inr ⟨h, ‹_›⟩
        · exact .inl h
    split at h
    · split at h
      · exact .inl (List.mem_cons_of_mem _ h)
      · rcases List.mem_cons.1 h with h | h
        · exact .inr ⟨h, ‹_›⟩
        · exact .inl (List.mem_cons_of_mem _ h)
    · rcases List.mem_cons.1 h with h | h
      · exact .inl (h ▸ List.mem_cons_self ..)
      · exact (ih h).imp (List.mem_cons_of_mem _) id

/-- A write to a cell of Memory keeps the canonical form. -/
theorem Memory.wf_write {m : Memory W} {a : Nat} (v : BitVec W) (h : m.wf M) (ha : a < M) : (m.write a v).wf M := by
  refine ⟨?_, fun p hp => ?_⟩
  · induction m with
    | nil =>
      simp only [Memory.write]; split <;> simp
    | cons q m ih =>
      obtain ⟨b, u⟩ := q
      obtain ⟨hq, hp⟩ := List.pairwise_cons.1 h.1
      have hm : Memory.wf m M := ⟨hp, fun q hq => h.2 q (List.mem_cons_of_mem _ hq)⟩
      simp only [Memory.write]
      split
      · rename_i hab
        split
        · exact h.1
        · refine List.pairwise_cons.2 ⟨fun r hr => ?_, h.1⟩
          rcases List.mem_cons.1 hr with rfl | hr
          · exact hab
          · exact Nat.lt_trans hab (hq r hr)
      split
      · rename_i hab
        split
        · exact hp
        · exact List.pairwise_cons.2 ⟨fun r hr => hab ▸ hq r hr, hp⟩
      · refine List.pairwise_cons.2 ⟨fun r hr => ?_, ih hm⟩
        rcases Memory.mem_write hr with hr | ⟨rfl, _⟩
        · exact hq r hr
        · show b < a; omega
  · rcases Memory.mem_write hp with hp | ⟨rfl, hv⟩
    · exact h.2 p hp
    · exact ⟨hv, ha⟩

theorem Memory.wf_nil : Memory.wf (W := W) [] M := ⟨.nil, fun _ h => nomatch h⟩

theorem State.Of.reset_wf : (State.Of.reset : State.Of W M N).mem.wf M := Memory.wf_nil

/-- The data phase of a write keeps the canonical form when the latched address is a cell (R82). -/
theorem memWrite_wf {s t : State.Of W M N} (h : s.mem.wf M) (hm : s.marValid = true → legalMem M s.mar = true)
    (ht : memWrite s = .done t) : t.mem.wf M := by
  unfold memWrite at ht
  split at ht
  · rename_i hv
    injection ht with ht
    subst ht
    exact Memory.wf_write _ h (toNat_lt_of_legalMem (hm hv))
  · cases ht

/-- The loader keeps the canonical form (R91). -/
theorem loadWord_wf {a : Int} {v : BitVec W} {s t : State.Of W M N} (h : s.mem.wf M) (ht : loadWord a v s = .ok t) : t.mem.wf M := by
  unfold loadWord at ht
  split at ht
  · injection ht with ht
    subst ht
    exact Memory.wf_write _ h (by omega)
  · cases ht

/-- A load at the port keeps the canonical form (R91). -/
theorem loadAtEdge_wf {a : Int} {v : BitVec W} {b : Block W M N} (h : b.core.mem.wf M) :
    (loadAtEdge a v b).core.mem.wf M := by
  unfold loadAtEdge
  split
  · exact loadWord_wf h ‹_›
  · exact h

/-- A preset touches no cell. -/
theorem presetAtPort_mem (run : Bool) (k : Nat) (v : BitVec W) (b : Block W M N) :
    (presetAtPort run k v b).core.mem = b.core.mem := by
  unfold presetAtPort presetReg
  split
  · split
    · rename_i h
      split at h
      · cases h; exact State.Of.writeFile_mem _ _ _
      · cases h
    · rfl
  · rfl

/-- Placing Words inside Memory keeps the canonical form. -/
theorem placeWords_wf (ws : List (BitVec W)) (m : Memory W) (a : Nat) (h : m.wf M) (ha : a + ws.length ≤ M) :
    (placeWords m a ws).wf M := by
  induction ws generalizing m a with
  | nil => exact h
  | cons w ws ih =>
    rw [List.length_cons] at ha
    exact ih _ _ (Memory.wf_write _ h (by omega)) (by omega)

theorem placeAddr_le (s : State) : (placeAddr s).toNat + 3 ≤ Config.memSize := by
  unfold placeAddr; split
  · assumption
  · decide

theorem withFetchWord_wf (s : State) (nbits w : Nat) (h : s.mem.wf Config.memSize) :
    (s.withFetchWord nbits w).mem.wf Config.memSize :=
  placeWords_wf _ _ _ h (placeAddr_le s)

end Sys2Proof.Machine
end

