-- ==== Sys2Proof/Laws/MicroOps.lean ====
section
/-! SUPPORT. What each micro-operation can do, said once (R154 to R184), and how lists of items run. -/

namespace Sys2Proof.Machine

variable {W M N : Nat}

/-! ### The effects that cannot raise -/

@[simp] theorem effect_endOp (s : State.Of W M N) : MicroOp.endOp.effect s = .goto 0 := rfl
@[simp] theorem effect_pcRdExt (s : State.Of W M N) : MicroOp.pcRdExt.effect s = .done (s.putExt s.pc) := rfl
@[simp] theorem effect_pcStExt (s : State.Of W M N) : MicroOp.pcStExt.effect s = .done (s.setPc s.extBus) := rfl
@[simp] theorem effect_pcRdInt (s : State.Of W M N) : MicroOp.pcRdInt.effect s = .done (s.putInt s.pc) := rfl
@[simp] theorem effect_pcStInt (s : State.Of W M N) : MicroOp.pcStInt.effect s = .done (s.setPc s.intBus) := rfl
@[simp] theorem effect_irRdExt (s : State.Of W M N) : MicroOp.irRdExt.effect s = .done (s.putExt s.ir) := rfl
@[simp] theorem effect_irStExt (s : State.Of W M N) : MicroOp.irStExt.effect s = .done (s.setIr s.extBus) := rfl
@[simp] theorem effect_irRdInt (s : State.Of W M N) : MicroOp.irRdInt.effect s = .done (s.putInt s.ir) := rfl
@[simp] theorem effect_irStInt (s : State.Of W M N) : MicroOp.irStInt.effect s = .done (s.setIr s.intBus) := rfl
@[simp] theorem effect_smSt0 (s : State.Of W M N) : MicroOp.smSt0.effect s = .done (s.setSm0 s.extBus) := rfl
@[simp] theorem effect_smSt1 (s : State.Of W M N) : MicroOp.smSt1.effect s = .done (s.setSm1 s.extBus) := rfl
@[simp] theorem effect_aluLd0 (s : State.Of W M N) : MicroOp.aluLd0.effect s = .done (s.setS0 s.intBus) := rfl
@[simp] theorem effect_aluLd1 (s : State.Of W M N) : MicroOp.aluLd1.effect s = .done (s.setS1 s.intBus) := rfl
@[simp] theorem effect_aluEm0 (s : State.Of W M N) : MicroOp.aluEm0.effect s = .done (s.putInt s.s0) := rfl
@[simp] theorem effect_aluEm1 (s : State.Of W M N) : MicroOp.aluEm1.effect s = .done (s.putInt s.s1) := rfl
@[simp] theorem effect_aluAdd (s : State.Of W M N) : MicroOp.aluAdd.effect s = .done (s.setS1 (s.s0 + s.s1)) := rfl
@[simp] theorem effect_aluSub (s : State.Of W M N) : MicroOp.aluSub.effect s = .done (s.setS1 (s.s0 - s.s1)) := rfl
@[simp] theorem effect_aluInc (s : State.Of W M N) : MicroOp.aluInc.effect s = .done (s.setS1 (s.s1 + 1)) := rfl
@[simp] theorem effect_flgClr (s : State.Of W M N) :
    MicroOp.flgClr.effect s = .done (s.setFlags (flagsClear s.flags)) := rfl
@[simp] theorem effect_flgUpd (s : State.Of W M N) :
    MicroOp.flgUpd.effect s = .done (s.setFlags (flagsUpdate s.flags s.intBus)) := rfl

/-- `SM_SEL_Z` (R174): the cell that ZERO indexes. -/
@[simp] theorem effect_smSelZ (s : State.Of W M N) :
    MicroOp.smSelZ.effect s = .done (s.putExt (if s.flags.getLsbD flagZERO then s.sm1 else s.sm0)) := by
  show smSelect (wordBit s.flags flagZERO) s = _
  cases h : s.flags.getLsbD flagZERO <;> simp [smSelect, wordBit, h]

/-- `SM_SEL_N` (R175): the cell that NEGATIVE indexes. -/
@[simp] theorem effect_smSelN (s : State.Of W M N) :
    MicroOp.smSelN.effect s = .done (s.putExt (if s.flags.getLsbD flagNEGATIVE then s.sm1 else s.sm0)) := by
  show smSelect (wordBit s.flags flagNEGATIVE) s = _
  cases h : s.flags.getLsbD flagNEGATIVE <;> simp [smSelect, wordBit, h]

/-! ### The effects that check -/

@[simp] theorem effect_decode (s : State.Of W M N) : MicroOp.decode.effect s = decodeDispatch s := rfl

theorem effect_rfRdExt (s : State.Of W M N) : MicroOp.rfRdExt.effect s =
    if legalReg N s.sel then .done (s.putExt (s.readReg s.sel)) else .raise .outOfBoundsReg s.sel := rfl
theorem effect_rfStExt (s : State.Of W M N) : MicroOp.rfStExt.effect s =
    if legalReg N s.sel then .done (s.writeReg s.sel s.extBus) else .raise .outOfBoundsReg s.sel := rfl
theorem effect_rfRdInt (s : State.Of W M N) : MicroOp.rfRdInt.effect s =
    if legalReg N s.sel then .done (s.putInt (s.readReg s.sel)) else .raise .outOfBoundsReg s.sel := rfl
theorem effect_rfStInt (s : State.Of W M N) : MicroOp.rfStInt.effect s =
    if legalReg N s.sel then .done (s.writeReg s.sel s.intBus) else .raise .outOfBoundsReg s.sel := rfl
theorem effect_selLatch (s : State.Of W M N) : MicroOp.selLatch.effect s =
    if s.extBus.toInt < 0 then .raise .outOfBoundsReg s.extBus else .done (s.setSel s.extBus) := rfl
theorem effect_memReq (s : State.Of W M N) : MicroOp.memReq.effect s =
    if legalMem M s.extBus then .done (s.latchMar s.extBus) else .raise .outOfBoundsMem s.extBus := rfl
theorem effect_memRead (s : State.Of W M N) : MicroOp.memRead.effect s =
    if s.marValid then .done (s.consumeMar.putExt (s.mem.read s.mar.toNat)) else .raise .noRequest 0 := rfl
theorem effect_memWrite (s : State.Of W M N) : MicroOp.memWrite.effect s =
    if s.marValid then .done (s.consumeMar.setMem (s.mem.write s.mar.toNat s.extBus)) else .raise .noRequest 0 := rfl

@[simp] theorem item_effect_op (m : MicroOp) (s : State.Of W M N) : (Item.op m).effect s = m.effect s := rfl

theorem item_effect_word (w : BitVec W) (s : State.Of W M N) : (Item.word w).effect s =
    if s.marValid then .done (s.consumeMar.putExt w) else .raise .noRequest 0 := rfl

@[simp] theorem apply_done (s t : State.Of W M N) : s.apply (.done t) = t.seqTo (t.upc + 1) := rfl
@[simp] theorem apply_goto (s : State.Of W M N) (u : MicroAddr) : s.apply (.goto u) = s.seqTo u := rfl
@[simp] theorem apply_halt (s : State.Of W M N) : s.apply .halt = s.halt := rfl
@[simp] theorem apply_raise (s : State.Of W M N) (c : FaultCause) (i : BitVec W) : s.apply (.raise c i) = s.raise c i := rfl

/-! ### Lists of items -/

@[simp] theorem runItems_nil (s : State.Of W M N) : runItems [] s = s := rfl

/-- A stopped machine runs nothing (R151). -/
theorem runItems_stopped (l : List (Item W)) {s : State.Of W M N} (h : s.stopped = true) : runItems l s = s := by
  cases l with
  | nil => rfl
  | cons it rest => rw [runItems, h, if_pos rfl]

theorem runItems_cons (it : Item W) (l : List (Item W)) {s : State.Of W M N} (h : s.stopped = false) :
    runItems (it :: l) s = runItems l (s.apply (it.effect s)) := by
  rw [runItems, h]; rfl

/-- Microprograms are lists of sequences: one runs after the other. -/
theorem runItems_append (l₁ l₂ : List (Item W)) (s : State.Of W M N) :
    runItems (l₁ ++ l₂) s = runItems l₂ (runItems l₁ s) := by
  induction l₁ generalizing s with
  | nil => rfl
  | cons it rest ih =>
    cases h : s.stopped with
    | true => rw [List.cons_append, runItems_stopped _ h, runItems_stopped _ h, runItems_stopped _ h]
    | false => rw [List.cons_append, runItems_cons _ _ h, runItems_cons _ _ h, ih]

@[simp] theorem ops_nil : ops (W := W) [] = [] := rfl
@[simp] theorem ops_cons (m : MicroOp) (l : List MicroOp) : ops (W := W) (m :: l) = .op m :: ops l := rfl

end Sys2Proof.Machine
end

