-- ==== Sys2Proof/Laws/PerInstr.lean ====
section
/-! SUPPORT. What holds of each instruction as syntax, constructor by constructor. -/

namespace Sys2Proof.Laws

/-- The Words of an instruction (R120, R121): its opcode word first, and as many operand words as its
format has. -/
def EncodedShape.Statement (i : Instr) : Prop :=
  ∃ operands : List Word, encode i = i.opcode.word :: operands ∧ operands.length = i.opcode.format.operands

theorem EncodedShape.addRegReg (a b : Word) : EncodedShape.Statement (.addRegReg a b) := ⟨[a, b], rfl, rfl⟩
theorem EncodedShape.addMemReg (a b : Word) : EncodedShape.Statement (.addMemReg a b) := ⟨[a, b], rfl, rfl⟩
theorem EncodedShape.addRegMem (a b : Word) : EncodedShape.Statement (.addRegMem a b) := ⟨[a, b], rfl, rfl⟩
theorem EncodedShape.addImmReg (a b : Word) : EncodedShape.Statement (.addImmReg a b) := ⟨[a, b], rfl, rfl⟩
theorem EncodedShape.subRegReg (a b : Word) : EncodedShape.Statement (.subRegReg a b) := ⟨[a, b], rfl, rfl⟩
theorem EncodedShape.subMemReg (a b : Word) : EncodedShape.Statement (.subMemReg a b) := ⟨[a, b], rfl, rfl⟩
theorem EncodedShape.subRegMem (a b : Word) : EncodedShape.Statement (.subRegMem a b) := ⟨[a, b], rfl, rfl⟩
theorem EncodedShape.subImmReg (a b : Word) : EncodedShape.Statement (.subImmReg a b) := ⟨[a, b], rfl, rfl⟩
theorem EncodedShape.moveMemReg (a b : Word) : EncodedShape.Statement (.moveMemReg a b) := ⟨[a, b], rfl, rfl⟩
theorem EncodedShape.moveRegMem (a b : Word) : EncodedShape.Statement (.moveRegMem a b) := ⟨[a, b], rfl, rfl⟩
theorem EncodedShape.moveRegReg (a b : Word) : EncodedShape.Statement (.moveRegReg a b) := ⟨[a, b], rfl, rfl⟩
theorem EncodedShape.moveImmReg (a b : Word) : EncodedShape.Statement (.moveImmReg a b) := ⟨[a, b], rfl, rfl⟩
theorem EncodedShape.incReg (a : Word) : EncodedShape.Statement (.incReg a) := ⟨[a], rfl, rfl⟩
theorem EncodedShape.jmp (a : Word) : EncodedShape.Statement (.jmp a) := ⟨[a], rfl, rfl⟩
theorem EncodedShape.jn (a : Word) : EncodedShape.Statement (.jn a) := ⟨[a], rfl, rfl⟩
theorem EncodedShape.jz (a : Word) : EncodedShape.Statement (.jz a) := ⟨[a], rfl, rfl⟩
theorem EncodedShape.reserved8 : EncodedShape.Statement (.reserved8) := ⟨[], rfl, rfl⟩
theorem EncodedShape.reserved9 : EncodedShape.Statement (.reserved9) := ⟨[], rfl, rfl⟩
theorem EncodedShape.reserved10 : EncodedShape.Statement (.reserved10) := ⟨[], rfl, rfl⟩
theorem EncodedShape.jeq : EncodedShape.Statement (.jeq) := ⟨[], rfl, rfl⟩
theorem EncodedShape.jneq : EncodedShape.Statement (.jneq) := ⟨[], rfl, rfl⟩
theorem EncodedShape.jgt : EncodedShape.Statement (.jgt) := ⟨[], rfl, rfl⟩
theorem EncodedShape.jlw : EncodedShape.Statement (.jlw) := ⟨[], rfl, rfl⟩

end Sys2Proof.Laws
end

