-- ==== Sys2Proof/Laws/Sequences.lean ====
section
/-! SUPPORT. What each shared sequence can do, said once: FETCH and DECODE, PCADV, RDPC, OPF, DEREF,
ARITH (R190 to R196), for a machine inside a microprogram. -/

namespace Sys2Proof.Machine

variable {W M N : Nat}

/-- The machine runs inside a microprogram with room for `n` more control words after UPC = `u`. -/
structure State.Of.inBody (s : State.Of W M N) (u n : Nat) : Prop where
  upc : s.upc.toNat = u
  low : 5 ≤ u
  high : u + n < 512
  execute : s.cuState = .execute

theorem State.Of.inBody.running {s : State.Of W M N} {u n : Nat} (h : s.inBody u n) : s.stopped = false :=
  State.Of.not_stopped_of_execute h.execute

/-- Fewer control words to go. -/
theorem State.Of.inBody.mono {s : State.Of W M N} {u n m : Nat} (h : s.inBody u n) (hm : m ≤ n) : s.inBody u m :=
  ⟨h.upc, h.low, by have := h.high; omega, h.execute⟩

/-- A move of the sequencer inside the microprogram stays inside it. -/
theorem State.Of.inBody_seqTo (s : State.Of W M N) {a : MicroAddr} {u n : Nat} (ha : a.toNat = u) (h5 : 5 ≤ u)
    (h : u + n < 512) : (s.seqTo a).inBody u n :=
  ⟨ha, h5, h, phaseOf_execute (by omega)⟩

theorem State.Of.inBody.next_upc {s : State.Of W M N} {u n : Nat} (h : s.inBody u n) (k : Nat) (hk : k ≤ n) :
    (s.upc + BitVec.ofNat 9 k).toNat = u + k := by
  have h1 := h.upc; have h2 := h.high
  rw [BitVec.toNat_add, BitVec.toNat_ofNat, h1]; omega

/-- One item that is done moves UPC by one and stays in the microprogram. -/
theorem State.Of.inBody.done {s t : State.Of W M N} {u n : Nat} (h : s.inBody u (n + 1)) (ht : t.upc = s.upc) :
    (s.apply (.done t)).inBody (u + 1) n :=
  State.Of.inBody_seqTo t (by rw [ht]; exact h.next_upc 1 (by omega)) (by have := h.low; omega)
    (by have := h.high; omega)

/-! ### The dispatch table on the words of the opcode table -/

theorem dispatch_word (hW : 8 ≤ W) (o : Opcode) : dispatch (o.word : BitVec W) = opcodeDispatch o := by
  rw [dispatch, opcodeOf_word hW, Option.bind_some]

theorem dispatch_none_of_opcodeOf {w : BitVec W} (h : opcodeOf w = none) : dispatch w = none := by
  simp [dispatch, h]

/-! ### FETCH and DECODE -/

/-- FETCH (R190) of an opcode word `w` at a legal PC. -/
theorem run_fetch (w : BitVec W) (s : State.Of W M N) (hpc : legalMem M s.pc = true) :
    runItems (fetchItems w) (s.seqTo 0) =
      ((((s.latchMar s.pc).consumeMar).putExt w).setIr w).seqTo 4 := by
  simp [fetchItems, runItems, effect_memReq, item_effect_word, hpc]
  rfl

/-- FETCH at a PC outside Memory (R190, R314 a): the request raises, IR keeps its value. -/
theorem run_fetch_fault (w : BitVec W) (s : State.Of W M N) (hpc : legalMem M s.pc = false) :
    runItems (fetchItems w) (s.seqTo 0) =
      ((s.putExt s.pc).seqTo 1).raise .outOfBoundsMem s.pc := by
  simp [fetchItems, runItems, effect_memReq, hpc]

/-- An instruction whose FETCH faults. -/
theorem runInstr_fetch_fault (w : BitVec W) (body : List (Item W)) (s : State.Of W M N) (hpc : legalMem M s.pc = false) :
    runInstr w body s = ((s.putExt s.pc).seqTo 1).raise .outOfBoundsMem s.pc := by
  rw [runInstr, runItems_append, runItems_append, run_fetch_fault w s hpc,
    runItems_stopped _ (State.Of.raise_stopped _ _ _), runItems_stopped _ (State.Of.raise_stopped _ _ _)]

/-- The state in which the microprogram at `u` starts (R190, R155): IR and EXT hold the opcode word. -/
def startOf (w : BitVec W) (u : MicroAddr) (s : State.Of W M N) : State.Of W M N :=
  ((((s.latchMar s.pc).consumeMar).putExt w).setIr w).seqTo u

/-- FETCH and DECODE of a registered opcode (R155), then its microprogram. -/
theorem runInstr_dispatched (w : BitVec W) (u : MicroAddr) (body : List (Item W)) (s : State.Of W M N)
    (hpc : legalMem M s.pc = true) (hw : dispatch w = some u) :
    runInstr w body s = runItems body (startOf w u s) := by
  rw [runInstr, runItems_append, runItems_append, run_fetch w s hpc]
  congr 1
  simp [runItems, decodeDispatch, hw]
  rfl

/-- FETCH and DECODE of a word without a microprogram: HALT (R311). -/
theorem runInstr_halts (w : BitVec W) (body : List (Item W)) (s : State.Of W M N)
    (hpc : legalMem M s.pc = true) (hw : dispatch w = none) :
    runInstr w body s = (startOf w 4 s).halt := by
  rw [runInstr, runItems_append, runItems_append, run_fetch w s hpc]
  have : runItems (ops [.decode]) (((((s.latchMar s.pc).consumeMar).putExt w).setIr w).seqTo 4) =
      (startOf w 4 s).halt := by
    simp [runItems, decodeDispatch, hw, startOf]
  rw [this, runItems_stopped _ (State.Of.halt_stopped _)]

/-! ### PCADV, RDPC, OPF -/

/-- PCADV (R193): `pc <- wrap(pc + 1)`; S1 and INT end up equal to the new PC. -/
theorem run_pcAdv {s : State.Of W M N} {u n : Nat} (h : s.inBody u (n + 5)) :
    runItems pcAdv s = (((s.putInt (s.pc + 1)).setS1 (s.pc + 1)).setPc (s.pc + 1)).seqTo (s.upc + 5) := by
  rw [pcAdv]
  simp only [ops_cons, ops_nil]
  rw [runItems_cons _ _ h.running]
  simp [runItems, BitVec.add_assoc]
  rfl

/-- RDPC (R192) of a Word `w` at a legal PC: EXT <- w, MAR <- pc. -/
theorem run_rdpc (w : BitVec W) {s : State.Of W M N} {u n : Nat} (h : s.inBody u (n + 3)) (hpc : legalMem M s.pc = true) :
    runItems (rdpc w) s = (((s.latchMar s.pc).consumeMar).putExt w).seqTo (s.upc + 3) := by
  rw [rdpc]
  simp only [ops_cons, ops_nil, List.cons_append, List.nil_append]
  rw [runItems_cons _ _ h.running]
  simp [runItems, effect_memReq, item_effect_word, hpc, BitVec.add_assoc]
  rfl

/-- RDPC at a PC outside Memory: the request raises (R192, R314 b). -/
theorem run_rdpc_fault (w : BitVec W) {s : State.Of W M N} {u n : Nat} (h : s.inBody u (n + 3)) (hpc : legalMem M s.pc = false) :
    runItems (rdpc w) s = ((s.putExt s.pc).seqTo (s.upc + 1)).raise .outOfBoundsMem s.pc := by
  rw [rdpc]
  simp only [ops_cons, ops_nil, List.cons_append, List.nil_append]
  rw [runItems_cons _ _ h.running]
  simp [runItems, effect_memReq, hpc]

/-- The state after OPF of the operand word `w` (R194). -/
def afterOpf (w : BitVec W) (s : State.Of W M N) : State.Of W M N :=
  ((((((s.putInt (s.pc + 1)).setS1 (s.pc + 1)).setPc (s.pc + 1)).latchMar (s.pc + 1)).consumeMar).putExt w).seqTo
    (s.upc + 8)

/-- OPF (R194) of an operand word that lies in Memory. -/
theorem run_opf (w : BitVec W) {s : State.Of W M N} {u n : Nat} (h : s.inBody u (n + 8)) (hpc : legalMem M (s.pc + 1) = true) :
    runItems (opf w) s = afterOpf w s ∧ (afterOpf w s).inBody (u + 8) n := by
  have hu := h.next_upc 8 (by omega)
  have hl := h.low
  have hh := h.high
  refine ⟨?_, State.Of.inBody_seqTo _ hu (by omega) (by omega)⟩
  have hin : ((((s.putInt (s.pc + 1)).setS1 (s.pc + 1)).setPc (s.pc + 1)).seqTo (s.upc + 5)).inBody (u + 5) (n + 3) :=
    State.Of.inBody_seqTo _ (h.next_upc 5 (by omega)) (by omega) (by omega)
  rw [opf, runItems_append, run_pcAdv (n := n + 3) (h.mono (by omega)), run_rdpc w hin (by simpa using hpc)]
  have e : s.upc + 5 + 3 = s.upc + 8 := by bv_omega
  simp only [State.Of.seqTo_upc, e, afterOpf]
  rfl

/-- OPF of an operand word outside Memory (R314 b): PC is advanced, nothing else of the architecture. -/
theorem run_opf_fault (w : BitVec W) {s : State.Of W M N} {u n : Nat} (h : s.inBody u (n + 8))
    (hpc : legalMem M (s.pc + 1) = false) :
    runItems (opf w) s =
      (((((s.putInt (s.pc + 1)).setS1 (s.pc + 1)).setPc (s.pc + 1)).putExt (s.pc + 1)).seqTo (s.upc + 6)).raise
        .outOfBoundsMem (s.pc + 1) := by
  have hl := h.low
  have hh := h.high
  have hin : ((((s.putInt (s.pc + 1)).setS1 (s.pc + 1)).setPc (s.pc + 1)).seqTo (s.upc + 5)).inBody (u + 5) (n + 3) :=
    State.Of.inBody_seqTo _ (h.next_upc 5 (by omega)) (by omega) (by omega)
  rw [opf, runItems_append, run_pcAdv (n := n + 3) (h.mono (by omega)), run_rdpc_fault w hin (by simpa using hpc)]
  have e : s.upc + 5 + 1 = s.upc + 6 := by bv_omega
  simp only [State.Of.seqTo_upc, BitVec.add_assoc]
  rfl

/-! ### DEREF and ARITH -/

/-- DEREF (R195) of a legal address on EXT: EXT <- cells[EXT], MAR <- the address. -/
theorem run_deref {s : State.Of W M N} {u n : Nat} (h : s.inBody u (n + 2)) (ha : legalMem M s.extBus = true) :
    runItems deref s =
      (((s.latchMar s.extBus).consumeMar).putExt (s.mem.read s.extBus.toNat)).seqTo (s.upc + 2) := by
  rw [deref]
  simp only [ops_cons, ops_nil]
  rw [runItems_cons _ _ h.running]
  simp [runItems, effect_memReq, effect_memRead, ha, BitVec.add_assoc]

/-- DEREF of an address outside Memory (R314 c): nothing changes but the recorded fault. -/
theorem run_deref_fault {s : State.Of W M N} (hs : s.stopped = false) (ha : legalMem M s.extBus = false) :
    runItems deref s = s.raise .outOfBoundsMem s.extBus := by
  rw [deref]
  simp only [ops_cons, ops_nil]
  rw [runItems_cons _ _ hs]
  simp [runItems, effect_memReq, ha]

/-- The state after ARITH with the result `r` (R196): S1 and INT hold it, ZERO and NEGATIVE tell of it. -/
def afterArith (r : BitVec W) (s : State.Of W M N) : State.Of W M N :=
  (((s.setS1 r).putInt r).setFlags (flagsUpdate (flagsClear s.flags) r)).seqTo (s.upc + 4)

/-- ARITH(op) (R196) for an `op` whose effect is S1 <- r, whatever FLAGS holds. -/
theorem run_arith {op : MicroOp} {r : BitVec W} {s : State.Of W M N} {u n : Nat} (h : s.inBody u (n + 4))
    (hop : op.effect ((s.setFlags (flagsClear s.flags)).seqTo (s.upc + 1)) =
      .done (((s.setFlags (flagsClear s.flags)).seqTo (s.upc + 1)).setS1 r)) :
    runItems (arith op) s = afterArith r s := by
  rw [arith]
  simp only [ops_cons, ops_nil]
  rw [runItems_cons _ _ h.running]
  simp only [item_effect_op, effect_flgClr, apply_done]
  rw [runItems_cons _ _ (State.Of.seqTo_stopped _ _)]
  simp only [State.Of.setFlags_upc, item_effect_op, hop, apply_done]
  simp [runItems, BitVec.add_assoc, afterArith]
  rfl

theorem run_arith_add {s : State.Of W M N} {u n : Nat} (h : s.inBody u (n + 4)) :
    runItems (arith .aluAdd) s = afterArith (s.s0 + s.s1) s := run_arith h rfl

theorem run_arith_sub {s : State.Of W M N} {u n : Nat} (h : s.inBody u (n + 4)) :
    runItems (arith .aluSub) s = afterArith (s.s0 - s.s1) s := run_arith h rfl

theorem run_arith_inc {s : State.Of W M N} {u n : Nat} (h : s.inBody u (n + 4)) :
    runItems (arith .aluInc) s = afterArith (s.s1 + 1) s := run_arith h rfl

end Sys2Proof.Machine
end

