-- ==== Sys2Proof/Tests/Slice0.lean ====
section
/-! SUPPORT. Tests, small and on fixed values: the WellFormed checks, words written out from the opcode
map (R125), one step of each instruction against the examples of spec 41 to 43 and 60, and for every statement
with hypotheses values that meet them. -/

namespace Sys2Proof.Tests

open Sys2Proof Sys2Proof.Machine

/-! ### WellFormed refuses each illegal operand (R130) -/

theorem test_wf_legal : (Instr.addRegReg 0 6).wellFormed = true := by decide
theorem test_wf_addRegReg_first : (Instr.addRegReg 7 0).wellFormed = false := by decide
theorem test_wf_addRegReg_second : (Instr.addRegReg 0 (-1)).wellFormed = false := by decide
theorem test_wf_addMemReg_mem : (Instr.addMemReg 128 0).wellFormed = false := by decide
theorem test_wf_addMemReg_reg : (Instr.addMemReg 127 7).wellFormed = false := by decide
theorem test_wf_addRegMem_reg : (Instr.addRegMem 7 0).wellFormed = false := by decide
theorem test_wf_addRegMem_mem : (Instr.addRegMem 0 (-1)).wellFormed = false := by decide
theorem test_wf_addImmReg : (Instr.addImmReg 5 7).wellFormed = false := by decide
theorem test_wf_subRegReg_first : (Instr.subRegReg (-1) 0).wellFormed = false := by decide
theorem test_wf_subRegReg_second : (Instr.subRegReg 0 7).wellFormed = false := by decide
theorem test_wf_subMemReg_mem : (Instr.subMemReg (-1) 0).wellFormed = false := by decide
theorem test_wf_subMemReg_reg : (Instr.subMemReg 0 7).wellFormed = false := by decide
theorem test_wf_subRegMem_reg : (Instr.subRegMem 7 0).wellFormed = false := by decide
theorem test_wf_subRegMem_mem : (Instr.subRegMem 0 128).wellFormed = false := by decide
theorem test_wf_subImmReg : (Instr.subImmReg 0 7).wellFormed = false := by decide
theorem test_wf_moveMemReg_mem : (Instr.moveMemReg 128 0).wellFormed = false := by decide
theorem test_wf_moveMemReg_reg : (Instr.moveMemReg 0 (-1)).wellFormed = false := by decide
theorem test_wf_moveRegMem_reg : (Instr.moveRegMem 7 0).wellFormed = false := by decide
theorem test_wf_moveRegMem_mem : (Instr.moveRegMem 0 128).wellFormed = false := by decide
theorem test_wf_moveRegReg_first : (Instr.moveRegReg 7 0).wellFormed = false := by decide
theorem test_wf_moveRegReg_second : (Instr.moveRegReg 0 7).wellFormed = false := by decide
theorem test_wf_moveImmReg : (Instr.moveImmReg 0 7).wellFormed = false := by decide
theorem test_wf_incReg : (Instr.incReg 7).wellFormed = false := by decide
theorem test_wf_jmp_unchecked : (Instr.jmp (-5)).wellFormed = true := by decide

/-! ### Words of the opcode map (R125, R126), written out -/

theorem test_decode_addRegReg : decode [0, 1, 2] = .ok (.addRegReg 1 2, []) := rfl
theorem test_decode_addMemReg : decode [1, 50, 2] = .ok (.addMemReg 50 2, []) := rfl
theorem test_decode_addRegMem : decode [2, 1, 50] = .ok (.addRegMem 1 50, []) := rfl
theorem test_decode_addImmReg : decode [3, 5, 0] = .ok (.addImmReg 5 0, []) := rfl
theorem test_decode_subRegReg : decode [4, 0, 1] = .ok (.subRegReg 0 1, []) := rfl
theorem test_decode_subMemReg : decode [5, 50, 0] = .ok (.subMemReg 50 0, []) := rfl
theorem test_decode_subRegMem : decode [6, 0, 50] = .ok (.subRegMem 0 50, []) := rfl
theorem test_decode_subImmReg : decode [7, -1, 0] = .ok (.subImmReg (-1) 0, []) := rfl
theorem test_decode_reserved8 : decode [8, 1] = .ok (.reserved8, [1]) := rfl
theorem test_decode_reserved9 : decode [9] = .ok (.reserved9, []) := rfl
theorem test_decode_reserved10 : decode [10] = .ok (.reserved10, []) := rfl
theorem test_decode_moveMemReg : decode [11, 50, 2] = .ok (.moveMemReg 50 2, []) := rfl
theorem test_decode_moveRegMem : decode [12, 1, 50] = .ok (.moveRegMem 1 50, []) := rfl
theorem test_decode_moveRegReg : decode [13, 1, 2] = .ok (.moveRegReg 1 2, []) := rfl
theorem test_decode_moveImmReg : decode [14, 77, 2] = .ok (.moveImmReg 77 2, []) := rfl
theorem test_decode_incReg : decode [15, 2, 9] = .ok (.incReg 2, [9]) := rfl
theorem test_decode_jmp : decode [16, 60] = .ok (.jmp 60, []) := rfl
theorem test_decode_jn : decode [17, 60] = .ok (.jn 60, []) := rfl
theorem test_decode_jz : decode [18, 0] = .ok (.jz 0, []) := rfl
theorem test_decode_jeq : decode [19] = .ok (.jeq, []) := rfl
theorem test_decode_jneq : decode [20] = .ok (.jneq, []) := rfl
theorem test_decode_jgt : decode [21] = .ok (.jgt, []) := rfl
theorem test_decode_jlw : decode [22] = .ok (.jlw, []) := rfl
/-- "the word 3 is `addImmReg`, the word 3 + 2^8 is not" (R122). -/
theorem test_decode_whole_word : decode [259, 5, 0] = .error (.unregistered 259) := rfl
theorem test_decode_negative : decode [-1] = .error (.unregistered (-1)) := rfl
theorem test_decode_truncated : decode [3, 5] = .error (.truncated .addImmReg) := rfl
/-- The first Word is the low one of a table word; the operand Words the table gives no bits are 0. -/
theorem test_table_word : decodeTableWord 32 14 = some (.moveImmReg 0 0) := rfl
theorem test_table_operands : decodeTableWord 96 (3 + 5 * 2 ^ 32 + 2 * 2 ^ 64) = some (.addImmReg 5 2) := by decide

/-! ### One step against the examples of the rules -/

/-- A state at an instruction boundary: R0 to R3, PC, FLAGS and the listed cells; all else as after reset. -/
def st (r0 r1 r2 r3 pc flags : Word) (mem : Memory 32) : State :=
  { State.reset with gpr := #v[r0, r1, r2, r3], pc := pc, flags := flags, mem := mem }

/-- The next state of an outcome. -/
def nextOf (o : Host.Outcome State Fault Refusal) : Option State :=
  match o with
  | .next t => some t
  | .fault _ => none
  | .refused _ => none

/-- A register of the file, PC, IR and FLAGS after one step. -/
def after (id : RegId) (s : State) : Option (Word × Word × Word × Word) :=
  (nextOf (step s)).map fun t => (t.readReg id, t.pc, t.ir, t.flags)

/-- A cell, PC, IR and FLAGS after one step. -/
def afterMem (a : Nat) (s : State) : Option (Word × Word × Word × Word) :=
  (nextOf (step s)).map fun t => (t.mem.read a, t.pc, t.ir, t.flags)

/-- How the machine stands after one step: CU_STATE, FAULT_CAUSE, FAULT_INFO, PC. -/
def stops (s : State) : Option (CuState × FaultCause × Word × Word) :=
  (nextOf (step s)).map fun t => (t.cuState, t.faultCause, t.faultInfo, t.pc)

-- R221 example; a bad second register leaves PC = a+2.
theorem test_addRegReg :
    after 1 (st 0 2000 3000 0 10 3 [(11, 1), (12, 2)]) = some (5000, 13, 1, 0) := by decide
theorem test_addRegReg_bad :
    stops (st 0 2000 3000 0 10 0 [(11, 1), (12, 7)]) = some (.fault, .outOfBoundsReg, 7, 12) := by decide
-- R222 example, and its corner case on the operand word itself.
theorem test_addMemReg :
    after 2 (st 0 0 3000 0 10 0 [(10, 1), (11, 50), (12, 2), (50, 777)]) = some (3777, 13, 777, 0) := by decide
theorem test_addMemReg_own : after 0 (st 0 0 0 0 0 0 [(0, 1), (1, 1)]) = some (1, 3, 1, 0) := by decide
-- R223 example, and its corner case on the address word.
theorem test_addRegMem :
    afterMem 50 (st 0 2000 0 0 10 0 [(10, 2), (11, 1), (12, 50), (50, 777)]) = some (2777, 13, 2777, 0) := by decide
theorem test_addRegMem_own : afterMem 2 (st 10 0 0 0 0 0 [(0, 2), (2, 2)]) = some (12, 3, 12, 0) := by decide
-- R224 example, and B = PC.
theorem test_addImmReg : after 0 (st 10 0 0 0 0 0 [(0, 3), (1, 5)]) = some (15, 3, 5, 0) := by decide
theorem test_addImmReg_pc : after 4 (st 0 0 0 0 0 0 [(0, 3), (1, 5), (2, 4)]) = some (8, 8, 5, 0) := by decide
-- R225 example, and A = IR.
theorem test_subRegReg : after 0 (st 5 5 0 0 0 0 [(0, 4), (2, 1)]) = some (0, 3, 0, 1) := by decide
theorem test_subRegReg_ir : after 5 (st 2 0 0 0 0 0 [(0, 4), (1, 5)]) = some (3, 3, 3, 0) := by decide
-- R226 example.
theorem test_subMemReg : after 0 (st 10 0 0 0 0 0 [(0, 5), (1, 50), (50, 3)]) = some (-7, 3, 3, 2) := by decide
-- R227 example.
theorem test_subRegMem : afterMem 50 (st 10 0 0 0 0 0 [(0, 6), (2, 50), (50, 3)]) = some (7, 3, 7, 0) := by decide
-- R228 example, and the negation of the most negative Word.
theorem test_subImmReg : after 0 (st 10 0 0 0 0 0 [(0, 7), (1, 3)]) = some (-7, 3, 3, 2) := by decide
theorem test_subImmReg_min :
    after 0 (st 0x80000000 0 0 0 0 0 [(0, 7)]) = some (0x80000000, 3, 0, 2) := by decide
-- R229 example, and A = FLAGS.
theorem test_incReg : after 2 (st 0 0 3000 0 10 0 [(10, 15), (11, 2)]) = some (3001, 12, 15, 0) := by decide
theorem test_incReg_flags : after 6 (st 0 0 0 0 0 3 [(0, 15), (1, 6)]) = some (4, 2, 15, 4) := by decide
-- R251 example.
theorem test_moveMemReg :
    after 2 (st 0 0 0 0 10 3 [(10, 11), (11, 50), (12, 2), (50, 777)]) = some (777, 13, 777, 3) := by decide
-- R252 example, and both operands bad: the address is checked first.
theorem test_moveRegMem :
    afterMem 50 (st 0 2000 0 0 10 1 [(10, 12), (11, 1), (12, 50)]) = some (2000, 13, 12, 1) := by decide
theorem test_moveRegMem_bad :
    stops (st 0 0 0 0 10 0 [(10, 12), (11, 7), (12, 128)]) = some (.fault, .outOfBoundsMem, 128, 12) := by decide
-- R253 example.
theorem test_moveRegReg :
    after 2 (st 0 2000 3000 0 10 2 [(10, 13), (11, 1), (12, 2)]) = some (2000, 13, 13, 2) := by decide
-- R254 example, and the move into FLAGS.
theorem test_moveImmReg : after 2 (st 0 0 0 0 10 1 [(10, 14), (11, 77), (12, 2)]) = some (77, 13, 77, 1) := by decide
theorem test_moveImmReg_flags : after 6 (st 0 0 0 0 0 0 [(0, 14), (1, 3), (2, 6)]) = some (3, 3, 3, 3) := by decide
-- R270 example, and an unchecked target.
theorem test_jmp : after 4 (st 0 0 0 0 10 3 [(10, 16), (11, 60)]) = some (60, 60, 16, 3) := by decide
theorem test_jmp_negative : stops (st 0 0 0 0 0 0 [(0, 16), (1, -5)]) = some (.fetch, .none, 0, -5) := by decide
-- R271 examples.
theorem test_jn_taken : after 4 (st 0 0 0 0 10 2 [(10, 17), (11, 60)]) = some (60, 60, 17, 2) := by decide
theorem test_jn_not_taken :
    (nextOf (step (st 0 0 0 0 10 1 [(10, 17), (11, 60)]))).map (fun t => (t.pc, t.sm0, t.sm1)) =
      some (12, 12, 60) := by decide
-- R272: FLAGS = 4 is not taken, FLAGS = 5 is.
theorem test_jz_not_taken : after 4 (st 0 0 0 0 0 4 [(0, 18), (1, 60)]) = some (2, 2, 18, 4) := by decide
theorem test_jz_taken : after 4 (st 0 0 0 0 0 5 [(0, 18), (1, 60)]) = some (60, 60, 18, 5) := by decide
-- R126, R127, R311: halting words.
theorem test_reserved8 : stops (st 0 0 0 0 10 0 [(10, 8)]) = some (.halt, .none, 0, 10) := by decide
theorem test_reserved9 : stops (st 0 0 0 0 10 0 [(10, 9)]) = some (.halt, .none, 0, 10) := by decide
theorem test_reserved10 : stops (st 0 0 0 0 10 0 [(10, 10)]) = some (.halt, .none, 0, 10) := by decide
theorem test_jeq : stops (st 0 0 0 0 10 0 [(10, 19)]) = some (.halt, .none, 0, 10) := by decide
theorem test_jneq : stops (st 0 0 0 0 10 0 [(10, 20)]) = some (.halt, .none, 0, 10) := by decide
theorem test_jgt : stops (st 0 0 0 0 10 0 [(10, 21)]) = some (.halt, .none, 0, 10) := by decide
theorem test_jlw : stops (st 0 0 0 0 127 0 [(127, 22)]) = some (.halt, .none, 0, 127) := by decide
theorem test_unregistered : stops (st 0 0 0 0 10 0 [(10, -1)]) = some (.halt, .none, 0, 10) := by decide
-- R314 (a), (b): FETCH and the second operand fetch past the end of Memory (R344: PC = 128, a = 126).
theorem test_fetch_past_end : stops (st 0 0 0 0 128 0 []) = some (.fault, .outOfBoundsMem, 128, 128) := by decide
theorem test_operand_past_end : stops (st 0 0 0 0 126 0 []) = some (.fault, .outOfBoundsMem, 128, 128) := by decide

/-! ### Other values of the parameters (R5 to R7) and the ports -/

theorem test_legal_default : Config.Legal Config.wordBits Config.memSize Config.ngpr :=
  ⟨by decide, by decide, by decide, by decide⟩
theorem test_legal_small : Config.Legal 8 16 2 := ⟨by decide, by decide, by decide, by decide⟩
/-- "every valid address is a non-negative Word": 128 cells are the most that 8-bit Words can name (R6). -/
theorem test_legal_memory_bound : Config.Legal 8 128 2 ∧ ¬ Config.Legal 8 129 2 :=
  ⟨⟨by decide, by decide, by decide, by decide⟩, fun h => absurd h.memSize_le (by decide)⟩

/-- A machine of 8-bit Words, 16 cells and two general registers (PC, IR and FLAGS are then 2, 3 and 4). -/
def small (r0 r1 pc : BitVec 8) (mem : Memory 8) : State.Of 8 16 2 :=
  { (State.Of.reset : State.Of 8 16 2) with gpr := #v[r0, r1], pc := pc, mem := mem }

/-- A register of the file, CU_STATE, FAULT_INFO, PC and FLAGS after one step of the small machine. -/
def afterSmall (id : BitVec 8) (s : State.Of 8 16 2) : Option (BitVec 8 × CuState × BitVec 8 × BitVec 8 × BitVec 8) :=
  match stepRow s with
  | .next t => some (t.readReg id, t.cuState, t.faultInfo, t.pc, t.flags)
  | .fault _ => none
  | .refused _ => none

-- R9: wrap(100 + 100) is 200 - 2^8, negative.
theorem test_small_wrap : afterSmall 0 (small 100 0 0 [(0, 3), (1, 100)]) = some (-56, .fetch, 0, 3, 2) := by decide
-- R7: with NGPR = 2, register 2 is PC (one trailing advance) and register 5 is none.
theorem test_small_pc : afterSmall 2 (small 0 0 0 [(0, 14), (1, 9), (2, 2)]) = some (10, .fetch, 0, 10, 0) := by decide
theorem test_small_no_register : afterSmall 0 (small 1 0 0 [(0, 15), (1, 5)]) = some (1, .fault, 5, 1, 0) := by decide
-- R6: with MEM_SIZE = 16, address 16 is none.
theorem test_small_fetch_past_end : afterSmall 0 (small 0 0 16 []) = some (0, .fault, 16, 16, 0) := by decide

/-- The inputs of an edge of the small machine, with a load of 7 asked for at an address. -/
def edge (run loadEn : Bool) (a : Int) : Inputs 8 := ⟨false, run, loadEn, a, 7⟩
/-- The small machine before its run. -/
def before : Block 8 16 2 := Block.reset

-- R346: a load before the run is done; in a paused run, and at the edge that runs, it is ignored.
theorem test_load_before_run : (clockEdge (edge false true 15) before).core.mem.read 15 = 7 := by decide
theorem test_load_paused :
    clockEdge (edge false true 15) (clockEdge (edge true true 15) before) = clockEdge (edge true true 15) before ∧
      (clockEdge (edge true true 15) before).core.mem = [] := by decide
-- R343, R346: a preset before the run is done, FLAGS by its index; while `run` is 1 it is ignored.
theorem test_preset_before_run : (presetAtPort false 4 1 before).core.flags = 1 := by decide
theorem test_preset_running : presetAtPort true 4 1 before = before := by decide
-- R102 and log 19: the observer is refused a cell and a register that do not exist.
theorem test_observe_outside : observeCell 16 before.core = none ∧ observeReg 5 before.core = none := by decide
/-- A machine with more registers than 8-bit Words have register IDs (R7 allows it), before its run. -/
def wide : Block 8 16 200 := ⟨{ (State.Of.reset : State.Of 8 16 200) with ir := 9 }, false⟩
-- R102, R343: IR is at index 201 there, the last of the file is FLAGS at 202.
theorem test_wide_observe : observeReg 201 wide.core = some 9 ∧ observeReg 203 wide.core = none := by decide
theorem test_wide_preset : (presetAtPort false 202 3 wide).core.flags = 3 := rfl

/-! ### Values that meet the hypotheses of the statements -/

/-- The last place where three Words fit, R0 = 5. -/
def w125 (m : Memory 32) : State := st 5 0 0 0 125 0 m
/-- The last place where two Words fit. -/
def w126 (m : Memory 32) : State := st 5 0 0 0 126 0 m

theorem w125_fits (m : Memory 32) : (w125 m).fits3 :=
  ⟨show legalMem Config.memSize (125 : Word) = true by decide,
    show legalMem Config.memSize (125 + 1 : Word) = true by decide,
    show legalMem Config.memSize (125 + 2 : Word) = true by decide⟩
theorem w126_fits (m : Memory 32) : (w126 m).fits2 :=
  ⟨show legalMem Config.memSize (126 : Word) = true by decide,
    show legalMem Config.memSize (126 + 1 : Word) = true by decide⟩

theorem test_witness_EncodeDecodeRoundTrip : decode [18, -1, 9] = .ok (.jz (-1), [9]) := rfl
theorem test_witness_StepRunsDecodedInstruction :
    (w125 [(125, 3), (126, -1), (127, 6)]).ready ∧ (w125 [(125, 3), (126, -1), (127, 6)]).holdsInstr (.addImmReg (-1) 6) := by
  unfold State.Of.ready State.holdsInstr State.Of.holdsWords; decide
theorem test_witness_FetchWordRunsNext :
    (st 0 0 0 0 127 0 [(127, 1)]).mem.wf Config.memSize ∧ decodeTableWord 32 18 = some (.jz 0) := ⟨by decide, rfl⟩
theorem test_witness_StepRefinesMicroprogramRom :
    Config.Legal Config.wordBits Config.memSize Config.ngpr ∧
      (w125 []).ready :=
  ⟨test_legal_default, ⟨rfl, rfl⟩⟩
theorem test_witness_StepIsPseudocode :
    Config.Legal Config.wordBits Config.memSize Config.ngpr ∧
      (st 0 0 0 0 (-1) 0 []).ready :=
  ⟨test_legal_default, ⟨rfl, rfl⟩⟩
theorem test_witness_CompletedInstructionStepCount :
    (w126 [(126, 15)]).ready ∧ (w126 [(126, 15)]).holdsInstr (.incReg 0) ∧
      ∃ t, exec (.incReg 0) (w126 [(126, 15)]) = .next t ∧ t.cuState ≠ .fault :=
  ⟨⟨rfl, rfl⟩, by unfold State.holdsInstr State.Of.holdsWords; decide, ⟨_, rfl, by decide⟩⟩
theorem rom_nonempty : (0 : MicroAddr).toNat < rom.length := by
  simp [rom, romFrom0]

theorem test_witness_StepKeepsInv :
    Config.Legal Config.wordBits Config.memSize Config.ngpr ∧
      (w125 [(125, 3), (127, 6)]).Inv ∧ ∃ t, step (w125 [(125, 3), (127, 6)]) = .next t :=
  ⟨test_legal_default,
    ⟨⟨by decide, by decide, rom_nonempty, by decide, fun _ => ⟨rfl, rfl⟩, by decide, by decide, by decide⟩,
    ⟨_, rfl⟩⟩⟩
theorem test_witness_HiddenStateNotObservable :
    Config.Legal Config.wordBits Config.memSize Config.ngpr ∧
      (w125 []).ready ∧ ({ w125 [] with extBus := -1, s0 := 7, sel := 3, marValid := true, sm0 := 1 } : State).ready ∧
      archEq (w125 []) { w125 [] with extBus := -1, s0 := 7, sel := 3, marValid := true, sm0 := 1 } :=
  ⟨test_legal_default, ⟨⟨rfl, rfl⟩, ⟨rfl, rfl⟩, ⟨rfl, rfl, rfl, rfl, rfl, rfl, rfl, rfl⟩⟩⟩
theorem test_witness_StoppedStatesAreTerminal :
    Config.Legal Config.wordBits Config.memSize Config.ngpr ∧
      (State.reset.raise .outOfBoundsMem 128).stopped = true ∧ State.reset.halt.stopped = true :=
  ⟨test_legal_default, by decide⟩
theorem test_witness_SequencerMicroOps :
    Config.Legal Config.wordBits Config.memSize Config.ngpr ∧
      ((18 : Word).toInt, (454 : MicroAddr)) ∈ dispatchTable ∧ ¬ registered (8 : Word) ∧ ¬ registered (-1 : Word) :=
  ⟨test_legal_default, by unfold registered; decide⟩
theorem test_witness_RegisterFileMicroOps :
    Config.Legal Config.wordBits Config.memSize Config.ngpr ∧
      (-1 : Word).toInt < 0 ∧ 0 ≤ (0 : Word).toInt ∧ Config.nreg ≤ (7 : Word).toInt ∧
      0 ≤ (6 : Word).toInt ∧ (6 : Word).toInt < Config.nreg :=
  ⟨test_legal_default, by decide⟩
theorem test_witness_MemoryMicroOps :
    Config.Legal Config.wordBits Config.memSize Config.ngpr ∧
      (-1 : Word).toInt < 0 ∧ Config.memSize ≤ (128 : Word).toInt ∧ 0 ≤ (127 : Word).toInt ∧
      (127 : Word).toInt < Config.memSize ∧ State.reset.marValid = false ∧ (State.reset.latchMar 127).marValid = true :=
  ⟨test_legal_default, by decide⟩
theorem test_witness_FetchSequence :
    Config.Legal Config.wordBits Config.memSize Config.ngpr ∧
      (st 0 0 0 0 127 0 []).ready ∧ legalMem Config.memSize (st 0 0 0 0 127 0 []).pc = true ∧
      (st 0 0 0 0 128 0 []).ready ∧ legalMem Config.memSize (st 0 0 0 0 128 0 []).pc = false :=
  ⟨test_legal_default, ⟨⟨rfl, rfl⟩, by decide, ⟨rfl, rfl⟩, by decide⟩⟩

/-- A running state at a ROM address, with a Word in PC and on EXT. -/
def atRom (u : MicroAddr) (w : Word) : State := { State.reset with upc := u, cuState := .execute, pc := w, extBus := w }

theorem test_witness_SharedSequencesInRom_pcadv :
    Config.Legal Config.wordBits Config.memSize Config.ngpr ∧
      (atRom 463 0).atCodes [4, 23, 28, 25, 5] :=
  ⟨test_legal_default, by unfold State.Of.atCodes; decide⟩
theorem test_witness_SharedSequencesInRom_rdpc :
    Config.Legal Config.wordBits Config.memSize Config.ngpr ∧
      (atRom 10 127).atCodes [2, 15, 16] ∧ legalMem Config.memSize (atRom 10 127).pc = true ∧
      (atRom 10 128).atCodes [2, 15, 16] ∧ legalMem Config.memSize (atRom 10 128).pc = false :=
  ⟨test_legal_default, by unfold State.Of.atCodes; decide⟩
theorem test_witness_SharedSequencesInRom_deref :
    Config.Legal Config.wordBits Config.memSize Config.ngpr ∧
      (atRom 49 127).atCodes [15, 16] ∧ legalMem Config.memSize (atRom 49 127).extBus = true ∧
      (atRom 49 (-1)).atCodes [15, 16] ∧ legalMem Config.memSize (atRom 49 (-1)).extBus = false :=
  ⟨test_legal_default, by unfold State.Of.atCodes; decide⟩
theorem test_witness_SharedSequencesInRom_arith :
    Config.Legal Config.wordBits Config.memSize Config.ngpr ∧
      (atRom 30 0).atCodes [29, 26, 25, 30] ∧ (atRom 175 0).atCodes [29, 27, 25, 30] ∧
      (atRom 414 0).atCodes [29, 28, 25, 30] :=
  ⟨test_legal_default, by unfold State.Of.atCodes; decide⟩
theorem test_witness_PhaseFollowsUpc :
    Config.Legal Config.wordBits Config.memSize Config.ngpr ∧
      ({ State.reset with upc := 4, cuState := .decode, ir := 8 } : State).phased ∧
      ({ State.reset with upc := 4, cuState := .decode, ir := 8 } : State).stopped = false ∧
      (microStep ({ State.reset with upc := 4, cuState := .decode, ir := 8 } : State)).cuState = .halt :=
  ⟨test_legal_default, by unfold State.Of.phased; decide⟩
theorem test_witness_MicroStepStaysInRom :
    Config.Legal Config.wordBits Config.memSize Config.ngpr ∧
      (atRom 472 0).stopped = false ∧ (atRom 472 0).upc.toNat < 473 ∧ 473 ≤ (atRom 473 0).upc.toNat ∧
      (microStep (atRom 49 128)).cuState = .fault :=
  ⟨test_legal_default, by decide⟩
theorem test_witness_FaultEntry :
    Config.Legal Config.wordBits Config.memSize Config.ngpr ∧
      (atRom 49 (-1)).stopped = false ∧ (microStep (atRom 49 (-1))).faultCause = .outOfBoundsMem ∧
      (microStep (atRom 49 (-1))).cuState = .fault ∧
      (microStep (atRom 14 (-1))).faultCause = .outOfBoundsReg :=
  ⟨test_legal_default, by decide⟩

theorem test_witness_AddRegRegRule :
    (w125 []).fits3 ∧ legalReg Config.ngpr (0 : Word) = true ∧ legalReg Config.ngpr (6 : Word) = true :=
  ⟨w125_fits _, by decide⟩
theorem test_witness_AddMemRegRule :
    (w125 []).fits3 ∧ legalMem Config.memSize (127 : Word) = true ∧ legalReg Config.ngpr (6 : Word) = true :=
  ⟨w125_fits _, by decide⟩
theorem test_witness_AddRegMemRule :
    (w125 []).fits3 ∧ legalReg Config.ngpr (6 : Word) = true ∧ legalMem Config.memSize (127 : Word) = true :=
  ⟨w125_fits _, by decide⟩
theorem test_witness_AddImmRegRule :
    (w125 []).fits3 ∧ legalReg Config.ngpr (6 : Word) = true :=
  ⟨w125_fits _, by decide⟩
theorem test_witness_SubRegRegRule :
    (w125 []).fits3 ∧ legalReg Config.ngpr (6 : Word) = true ∧ legalReg Config.ngpr (0 : Word) = true :=
  ⟨w125_fits _, by decide⟩
theorem test_witness_SubMemRegRule :
    (w125 []).fits3 ∧ legalMem Config.memSize (0 : Word) = true ∧ legalReg Config.ngpr (6 : Word) = true :=
  ⟨w125_fits _, by decide⟩
theorem test_witness_SubRegMemRule :
    (w125 []).fits3 ∧ legalReg Config.ngpr (6 : Word) = true ∧ legalMem Config.memSize (0 : Word) = true :=
  ⟨w125_fits _, by decide⟩
theorem test_witness_SubImmRegRule :
    (w125 []).fits3 ∧ legalReg Config.ngpr (0 : Word) = true :=
  ⟨w125_fits _, by decide⟩
theorem test_witness_IncRegRule : (w126 []).fits2 ∧ legalReg Config.ngpr (6 : Word) = true := ⟨w126_fits _, by decide⟩
theorem test_witness_MoveMemRegRule :
    (w125 []).fits3 ∧ legalMem Config.memSize (127 : Word) = true ∧ legalReg Config.ngpr (4 : Word) = true :=
  ⟨w125_fits _, by decide⟩
theorem test_witness_MoveRegMemRule :
    (w125 []).fits3 ∧ legalReg Config.ngpr (4 : Word) = true ∧ Config.nreg ≤ (7 : Word).toInt ∧
      legalMem Config.memSize (127 : Word) = true := ⟨w125_fits _, by decide⟩
theorem test_witness_MoveRegRegRule :
    (w125 []).fits3 ∧ legalReg Config.ngpr (5 : Word) = true ∧ legalReg Config.ngpr (6 : Word) = true :=
  ⟨w125_fits _, by decide⟩
theorem test_witness_MoveImmRegRule :
    (w125 []).fits3 ∧ legalReg Config.ngpr (4 : Word) = true ∧ legalReg Config.ngpr (5 : Word) = true :=
  ⟨w125_fits _, by decide⟩
theorem test_witness_JmpRule : (w126 []).fits2 := w126_fits _
theorem test_witness_JnRule :
    (w126 []).fits2 ∧ ∃ u, exec (.jn 0) (st 0 0 0 0 127 0 []) = .next u ∧ u.cuState = .fault :=
  ⟨w126_fits _, ⟨_, rfl, by decide⟩⟩
theorem test_witness_JzRule :
    (w126 []).fits2 ∧ ∃ u, exec (.jz 0) (st 0 0 0 0 127 0 []) = .next u ∧ u.cuState = .fault :=
  ⟨w126_fits _, ⟨_, rfl, by decide⟩⟩
theorem test_witness_ReservedOpcodesHalt : legalMem Config.memSize (st 0 0 0 0 127 0 []).pc = true := by decide
theorem test_witness_UnregisteredWordHalts :
    (st 0 0 0 0 127 0 [(127, 19)]).ready ∧ legalMem Config.memSize (st 0 0 0 0 127 0 [(127, 19)]).pc = true ∧
      ¬ registered ((st 0 0 0 0 127 0 [(127, 19)]).mem.read (st 0 0 0 0 127 0 [(127, 19)]).pc.toNat) := by
  unfold State.Of.ready registered; decide
theorem test_witness_FetchOutsideMemoryFaults :
    legalMem Config.memSize (st 0 0 0 0 128 0 []).pc = false ∧ (st 0 0 0 0 128 0 []).ready ∧
      legalMem Config.memSize (st 0 0 0 0 (-1) 0 []).pc = false :=
  ⟨by decide, ⟨rfl, rfl⟩, by decide⟩
/-- With a destination that is a general register, PC and a cell. -/
theorem test_witness_FlagsReflectResult :
    (w125 []).mem.wf Config.memSize ∧ isArithmetic (.incReg 0) = true ∧ destReg (.incReg 0) ≠ some 6 ∧
      (∃ t, exec (.incReg 0) (w125 []) = .next t ∧ t.cuState = .fetch) ∧
      (∃ t, exec (.addImmReg 1 4) (w125 []) = .next t ∧ t.cuState = .fetch) ∧
      (∃ t, exec (.addRegMem 0 127) (w125 []) = .next t ∧ t.cuState = .fetch) :=
  ⟨by decide, rfl, by decide, ⟨_, rfl, by decide⟩, ⟨_, rfl, by decide⟩, ⟨_, rfl, by decide⟩⟩
theorem test_witness_FlagsFrame :
    (∃ t, exec (.moveImmReg 3 5) (w125 []) = .next t) ∧ destReg (.moveImmReg 3 5) ≠ some 6 ∧
      isArithmetic (.moveImmReg 3 5) = false := ⟨⟨_, rfl⟩, by decide, rfl⟩
theorem test_witness_GeneralRegisterFrame :
    (∃ t, exec (.incReg 0) (w125 []) = .next t) ∧ destReg (.incReg 0) ≠ some (BitVec.ofNat 32 3) := ⟨⟨_, rfl⟩, by decide⟩
theorem test_witness_HiddenElementsFrame :
    (∃ t, exec (.incReg 6) (w126 []) = .next t ∧ t.cuState ≠ .fault) ∧
      (∃ t, exec (.jmp 0) (w126 []) = .next t ∧ t.cuState ≠ .fault) ∧ isJump (.jmp 0) = true :=
  ⟨⟨_, rfl, by decide⟩, ⟨_, rfl, by decide⟩, rfl⟩
theorem test_witness_MemoryFrame :
    (∃ t, exec (.moveRegMem 0 127) (w125 []) = .next t) ∧
      ∀ d, destMem (.moveRegMem 0 127) = some d → (126 : Nat) ≠ d.toNat :=
  ⟨⟨_, rfl⟩, fun d h => by cases h; decide⟩
theorem test_witness_PcAfterNonJump :
    isJump (.incReg 3) = false ∧ destReg (.incReg 3) ≠ some 4 ∧
      ∃ t, exec (.incReg 3) (w126 []) = .next t ∧ t.cuState = .fetch := ⟨rfl, by decide, ⟨_, rfl, by decide⟩⟩
theorem test_witness_FaultCommitsNothing :
    ∃ t, exec (.moveRegReg 0 7) (w125 []) = .next t ∧ t.cuState = .fault := ⟨_, rfl, by decide⟩
theorem test_witness_StoreIsSeenByNextFetch :
    (st 0 0 0 0 124 0 []).mem.wf Config.memSize ∧ (st 0 0 0 0 124 0 []).fits3 ∧ legalReg Config.ngpr (6 : Word) = true ∧
      legalMem Config.memSize ((st 0 0 0 0 124 0 []).pc + 3) = true ∧
      ∃ t, exec (.moveRegMem 6 ((st 0 0 0 0 124 0 []).pc + 3)) (st 0 0 0 0 124 0 []) = .next t :=
  ⟨by decide, ⟨by decide, by decide, by decide⟩, by decide, by decide, ⟨_, rfl⟩⟩
theorem test_witness_JumpTargetFaultsAtNextFetch :
    (w126 [(126, 16), (127, 128)]).ready ∧ (w126 [(126, 16), (127, 128)]).holdsInstr (.jmp 128) ∧
      legalMem Config.memSize (128 : Word) = false := by
  unfold State.Of.ready State.holdsInstr State.Of.holdsWords; decide
theorem test_witness_LoaderPort :
    Config.Legal 8 16 2 ∧ (0 : Int) ≤ 15 ∧ (15 : Int) < (16 : Nat) ∧ (-1 : Int) < 0 ∧ ((16 : Nat) : Int) ≤ 16 :=
  ⟨test_legal_small, by decide⟩
/-- Each clause at a boundary: the last cell, one past it, a run that has begun, inside an instruction. -/
theorem test_witness_ClockEdgeInputs :
    Config.Legal 8 16 2 ∧ (edge true true 0).rst = false ∧ (edge true true 0).run = true ∧
      ((edge false true 15).run = false ∧ (edge false true 15).loadEn = true ∧ before.started = false ∧
        before.core.upc = 0 ∧ 0 ≤ (edge false true 15).loadAddr ∧ (edge false true 15).loadAddr < (16 : Nat)) ∧
      ((16 : Nat) : Int) ≤ (edge false true 16).loadAddr ∧ (edge false false 0).loadEn = false ∧
      (clockEdge (edge true false 0) before).started = true ∧ (clockEdge (edge true false 0) before).core.upc ≠ 0 ∧ 2 + 3 ≤ 5 := ⟨test_legal_small, by decide⟩
theorem test_witness_ResetFromAnyState :
    Config.Legal 8 16 2 ∧ (Inputs.mk true true true (-1) (0 : BitVec 8)).rst = true := ⟨test_legal_small, rfl⟩
theorem test_witness_RegisterFileIndexMap :
    Config.Legal 8 16 2 ∧ (1 : BitVec 8).toNat = (1 : Fin 2) ∧ (2 : BitVec 8).toNat = 2 ∧
      (3 : BitVec 8).toNat = 2 + 1 ∧ (4 : BitVec 8).toNat = 2 + 2 := ⟨test_legal_small, by decide⟩
theorem test_witness_DispatchTableIsTheSpecs : 8 ≤ 8 ∧ ((18 : BitVec 8).toInt, (454 : MicroAddr)) ∈ dispatchTable := by
  decide
theorem test_witness_RomHoldsMicroprograms : opcodeDispatch (Instr.jz 0).opcode = some 454 := rfl

end Sys2Proof.Tests
end

/-! PROOFS. The register file by its indices (spec 00 and 10): one equation per kind of register for a read and
for a store, and the statement about the index map. -/

namespace Sys2Proof.Machine

variable {W M N : Nat}

/-! #### What the file reads at each index (R38) -/

theorem State.Of.readFile_gpr (s : State.Of W M N) (k : Fin N) : s.readFile k = s.gpr[k] := by
  rw [State.Of.readFile, if_pos k.isLt, Vector.getElem?_eq_getElem k.isLt]
  rfl

@[simp] theorem State.Of.readFile_idxPC (s : State.Of W M N) : s.readFile (idxPCOf N) = s.pc := by
  simp [State.Of.readFile, idxPCOf]

@[simp] theorem State.Of.readFile_idxIR (s : State.Of W M N) : s.readFile (idxIROf N) = s.ir := by
  simp [State.Of.readFile, idxPCOf, idxIROf]

@[simp] theorem State.Of.readFile_idxFLAGS (s : State.Of W M N) : s.readFile (idxFLAGSOf N) = s.flags := by
  simp [State.Of.readFile, idxPCOf, idxIROf, idxFLAGSOf]

/-! #### What a store into the file is at each index (R38) -/

theorem State.Of.writeFile_gpr (s : State.Of W M N) (k : Fin N) (v : BitVec W) :
    s.writeFile k v = s.setGpr (s.gpr.set k v) := by
  have hset : s.gpr.setIfInBounds k v = s.gpr.set k v := by
    ext i hi : 1
    rw [Vector.getElem_setIfInBounds, Vector.getElem_set]
  rw [State.Of.writeFile, if_pos k.isLt, hset]

@[simp] theorem State.Of.writeFile_idxPC (s : State.Of W M N) (v : BitVec W) :
    s.writeFile (idxPCOf N) v = s.setPc v := by
  simp [State.Of.writeFile, idxPCOf]

@[simp] theorem State.Of.writeFile_idxIR (s : State.Of W M N) (v : BitVec W) :
    s.writeFile (idxIROf N) v = s.setIr v := by
  simp [State.Of.writeFile, idxPCOf, idxIROf]

@[simp] theorem State.Of.writeFile_idxFLAGS (s : State.Of W M N) (v : BitVec W) :
    s.writeFile (idxFLAGSOf N) v = s.setFlags v := by
  simp [State.Of.writeFile, idxPCOf, idxIROf, idxFLAGSOf]

/-! #### A register ID is the index of its register (R38) -/

theorem State.Of.readReg_of_toNat (s : State.Of W M N) {id : BitVec W} {k : Nat} (h : id.toNat = k) :
    s.readReg id = s.readFile k := by
  rw [State.Of.readReg, h]

theorem State.Of.writeReg_of_toNat (s : State.Of W M N) {id : BitVec W} {k : Nat} (h : id.toNat = k) (v : BitVec W) :
    s.writeReg id v = s.writeFile k v := by
  rw [State.Of.writeReg, h]

/-- Settles O18, by the equations of the file at each kind of index. -/
theorem registerFileIndexMap : Obligations.RegisterFileIndexMap := by
  refine ⟨⟨Config.nreg_eq, Config.idxPC_eq, Config.idxIR_eq, Config.idxFLAGS_eq⟩,
    fun W M N _ => ⟨rfl, fun s id v => ⟨fun k hk => ?gpr, fun hpc => ?pc, fun hir => ?ir, fun hflags => ?flags⟩⟩⟩
  case gpr =>
    exact ⟨(s.readReg_of_toNat hk).trans (s.readFile_gpr k), (s.writeReg_of_toNat hk v).trans (s.writeFile_gpr k v)⟩
  case pc =>
    exact ⟨(s.readReg_of_toNat hpc).trans s.readFile_idxPC, (s.writeReg_of_toNat hpc v).trans (s.writeFile_idxPC v)⟩
  case ir =>
    exact ⟨(s.readReg_of_toNat hir).trans s.readFile_idxIR, (s.writeReg_of_toNat hir v).trans (s.writeFile_idxIR v)⟩
  case flags =>
    exact ⟨(s.readReg_of_toNat hflags).trans s.readFile_idxFLAGS,
      (s.writeReg_of_toNat hflags v).trans (s.writeFile_idxFLAGS v)⟩

end Sys2Proof.Machine

/-! PROOFS. Every instruction is one list of items (spec 40 section 4): FETCH, DECODE and its microprogram. -/

namespace Sys2Proof.Machine

variable {W M N : Nat}

/-- Every row runs FETCH of its opcode word, DECODE and its microprogram (R200); a halting row has none. -/
theorem execRow_eq_runInstr (o : Opcode) (a b : BitVec W) (s : State.Of W M N) :
    execRow o a b s = .next (runInstr o.word (programOfRow o a b) s) := by
  cases o <;> rfl

theorem exec_eq_runInstr (i : Instr) (s : State) : exec i s = .next (runInstr i.opcode.word (programOf i) s) :=
  (exec_eq_execRow i s).trans (execRow_eq_runInstr _ _ _ s)

/-- The items of an instruction from its boundary (R200). -/
def instrItems (w : BitVec W) (body : List (Item W)) : List (Item W) := fetchItems w ++ ops [.decode] ++ body

theorem runInstr_eq_runItems (w : BitVec W) (body : List (Item W)) (s : State.Of W M N) :
    runInstr w body s = runItems (instrItems w body) (s.seqTo 0) := rfl

theorem stepRow_of_ready {s : State.Of W M N} (hs : s.ready) : stepRow s = runRowAtPc s := by
  obtain ⟨hupc, hcu⟩ := hs
  simp [stepRow, State.Of.stopped, State.Of.atBoundary, hupc, hcu]

end Sys2Proof.Machine

/-! PROOFS. Noninterference (R51, R293): no microprogram reads a hidden element before it has written it. The
proof is an analysis of the microprograms: it keeps the set of hidden elements that two runs share. -/

namespace Sys2Proof.Machine

variable {W M N : Nat}

/-! #### The hidden elements that two runs share -/

/-- Which hidden elements (R51) two runs share; `req` is the memory request, MAR with MAR_VALID. -/
structure Shared where
  ext : Bool
  int : Bool
  s0 : Bool
  s1 : Bool
  sel : Bool
  req : Bool
  sm0 : Bool
  sm1 : Bool

/-- No hidden element is shared: all that is known at an instruction boundary. -/
def Shared.nothing : Shared := ⟨false, false, false, false, false, false, false, false⟩

/-- The hidden elements that an item lets reach the architectural state, or a fault, are shared. -/
def Shared.suffices (k : Shared) : Item W → Bool
  | .word _ => k.req
  | .op .memRead => k.req
  | .op .memWrite => k.req && k.ext
  | .op .memReq => k.ext
  | .op .selLatch => k.ext
  | .op .pcStExt => k.ext
  | .op .irStExt => k.ext
  | .op .pcStInt => k.int
  | .op .irStInt => k.int
  | .op .flgUpd => k.int
  | .op .rfRdExt => k.sel
  | .op .rfRdInt => k.sel
  | .op .rfStExt => k.sel && k.ext
  | .op .rfStInt => k.sel && k.int
  | .op _ => true

/-- The hidden elements that two runs share after an item: the one it writes if they share its sources. -/
def Shared.after (k : Shared) : Item W → Shared
  | .word _ => { k with ext := true }
  | .op .memRead => { k with ext := true }
  | .op .pcRdExt => { k with ext := true }
  | .op .irRdExt => { k with ext := true }
  | .op .rfRdExt => { k with ext := true }
  | .op .smSelZ => { k with ext := k.sm0 && k.sm1 }
  | .op .smSelN => { k with ext := k.sm0 && k.sm1 }
  | .op .pcRdInt => { k with int := true }
  | .op .irRdInt => { k with int := true }
  | .op .rfRdInt => { k with int := true }
  | .op .aluEm0 => { k with int := k.s0 }
  | .op .aluEm1 => { k with int := k.s1 }
  | .op .aluLd0 => { k with s0 := k.int }
  | .op .aluLd1 => { k with s1 := k.int }
  | .op .aluAdd => { k with s1 := k.s0 && k.s1 }
  | .op .aluSub => { k with s1 := k.s0 && k.s1 }
  | .op .selLatch => { k with sel := true }
  | .op .memReq => { k with req := true }
  | .op .smSt0 => { k with sm0 := k.ext }
  | .op .smSt1 => { k with sm1 := k.ext }
  | .op _ => k

/-- No item of the list lets a hidden element that is not shared reach the architectural state. -/
def Shared.covers : Shared → List (Item W) → Bool
  | _, [] => true
  | k, it :: rest => k.suffices it && (k.after it).covers rest

/-- Every microprogram writes the hidden elements it uses before it uses them (R293). -/
theorem covers_instrItems (o : Opcode) (a b : BitVec W) :
    Shared.nothing.covers (instrItems o.word (programOfRow o a b)) = true := by
  cases o <;> rfl

theorem covers_instrItems_nil (w : BitVec W) : Shared.nothing.covers (instrItems w []) = true := rfl

/-! #### Two runs that agree -/

/-- Two states agree on the architectural state (R51), on UPC and on the hidden elements in `k`. -/
structure AgreeOn (k : Shared) (s t : State.Of W M N) : Prop where
  gpr : s.gpr = t.gpr
  pc : s.pc = t.pc
  ir : s.ir = t.ir
  flags : s.flags = t.flags
  mem : s.mem = t.mem
  cuState : s.cuState = t.cuState
  faultCause : s.faultCause = t.faultCause
  faultInfo : s.faultInfo = t.faultInfo
  upc : s.upc = t.upc
  ext : k.ext = true → s.extBus = t.extBus
  int : k.int = true → s.intBus = t.intBus
  s0 : k.s0 = true → s.s0 = t.s0
  s1 : k.s1 = true → s.s1 = t.s1
  sel : k.sel = true → s.sel = t.sel
  mar : k.req = true → s.mar = t.mar
  marValid : k.req = true → s.marValid = t.marValid
  sm0 : k.sm0 = true → s.sm0 = t.sm0
  sm1 : k.sm1 = true → s.sm1 = t.sm1

variable {k : Shared} {s t : State.Of W M N}

theorem AgreeOn.archEq (h : AgreeOn k s t) : archEq s t :=
  ⟨h.gpr, h.pc, h.ir, h.flags, h.mem, h.cuState, h.faultCause, h.faultInfo⟩

theorem AgreeOn.seqTo {u v : MicroAddr} (h : AgreeOn k s t) (huv : u = v) : AgreeOn k (s.seqTo u) (t.seqTo v) :=
  { h with cuState := congrArg phaseOf huv, upc := huv }

theorem agreeOn_nothing_seqTo (h : Machine.archEq s t) (u : MicroAddr) :
    AgreeOn .nothing (s.seqTo u) (t.seqTo u) := by
  obtain ⟨hgpr, hpc, hir, hflags, hmem, hcu, hcause, hinfo⟩ := h
  exact ⟨hgpr, hpc, hir, hflags, hmem, rfl, hcause, hinfo, rfl, nofun, nofun, nofun, nofun, nofun, nofun, nofun,
    nofun, nofun⟩

theorem stopped_eq_of_archEq (h : archEq s t) : s.stopped = t.stopped := by
  obtain ⟨-, -, -, -, -, hcu, -, -⟩ := h
  rw [State.Of.stopped, State.Of.stopped, hcu]

theorem AgreeOn.stopped (h : AgreeOn k s t) : s.stopped = t.stopped := stopped_eq_of_archEq h.archEq

theorem AgreeOn.readReg (h : AgreeOn k s t) (id : BitVec W) : s.readReg id = t.readReg id :=
  State.Of.readReg_congr id h.gpr h.pc h.ir h.flags

/-! #### One rule per state operation -/

theorem AgreeOn.setPc (h : AgreeOn k s t) {v v' : BitVec W} (hv : v = v') : AgreeOn k (s.setPc v) (t.setPc v') :=
  { h with pc := hv }

theorem AgreeOn.setIr (h : AgreeOn k s t) {v v' : BitVec W} (hv : v = v') : AgreeOn k (s.setIr v) (t.setIr v') :=
  { h with ir := hv }

theorem AgreeOn.setFlags (h : AgreeOn k s t) {v v' : BitVec W} (hv : v = v') :
    AgreeOn k (s.setFlags v) (t.setFlags v') :=
  { h with flags := hv }

theorem AgreeOn.setMem (h : AgreeOn k s t) {m m' : Memory W} (hm : m = m') : AgreeOn k (s.setMem m) (t.setMem m') :=
  { h with mem := hm }

theorem AgreeOn.putExt (h : AgreeOn k s t) {v v' : BitVec W} {b : Bool} (hv : b = true → v = v') :
    AgreeOn { k with ext := b } (s.putExt v) (t.putExt v') :=
  { h with ext := hv }

theorem AgreeOn.putInt (h : AgreeOn k s t) {v v' : BitVec W} {b : Bool} (hv : b = true → v = v') :
    AgreeOn { k with int := b } (s.putInt v) (t.putInt v') :=
  { h with int := hv }

theorem AgreeOn.setS0 (h : AgreeOn k s t) {v v' : BitVec W} {b : Bool} (hv : b = true → v = v') :
    AgreeOn { k with s0 := b } (s.setS0 v) (t.setS0 v') :=
  { h with s0 := hv }

theorem AgreeOn.setS1 (h : AgreeOn k s t) {v v' : BitVec W} {b : Bool} (hv : b = true → v = v') :
    AgreeOn { k with s1 := b } (s.setS1 v) (t.setS1 v') :=
  { h with s1 := hv }

theorem AgreeOn.setSm0 (h : AgreeOn k s t) {v v' : BitVec W} {b : Bool} (hv : b = true → v = v') :
    AgreeOn { k with sm0 := b } (s.setSm0 v) (t.setSm0 v') :=
  { h with sm0 := hv }

theorem AgreeOn.setSm1 (h : AgreeOn k s t) {v v' : BitVec W} {b : Bool} (hv : b = true → v = v') :
    AgreeOn { k with sm1 := b } (s.setSm1 v) (t.setSm1 v') :=
  { h with sm1 := hv }

theorem AgreeOn.setSel (h : AgreeOn k s t) {v v' : BitVec W} (hv : v = v') :
    AgreeOn { k with sel := true } (s.setSel v) (t.setSel v') :=
  { h with sel := fun _ => hv }

theorem AgreeOn.latchMar (h : AgreeOn k s t) {v v' : BitVec W} (hv : v = v') :
    AgreeOn { k with req := true } (s.latchMar v) (t.latchMar v') :=
  { h with mar := fun _ => hv, marValid := fun _ => rfl }

theorem AgreeOn.consumeMar (h : AgreeOn k s t) : AgreeOn k s.consumeMar t.consumeMar :=
  { h with marValid := fun _ => rfl }

/-- The same store into the register file is the same update of general registers, PC, IR or FLAGS (R38). -/
theorem AgreeOn.writeReg (h : AgreeOn k s t) {d d' v v' : BitVec W} (hd : d = d') (hv : v = v') :
    AgreeOn k (s.writeReg d v) (t.writeReg d' v') := by
  subst hd hv
  unfold State.Of.writeReg State.Of.writeFile
  repeat' split
  · exact { h with gpr := congrArg (·.setIfInBounds d.toNat v) h.gpr }
  · exact h.setPc rfl
  · exact h.setIr rfl
  · exact h.setFlags rfl
  · exact h

/-! #### Every item keeps two runs in agreement -/

/-- Two runs after an item: they agree on `k`, or both have stopped in the same architectural state. -/
def AgreeAfter (k : Shared) (s t : State.Of W M N) : Prop := AgreeOn k s t ∨ s.stopped = true ∧ archEq s t

theorem AgreeOn.done {s' t' : State.Of W M N} (h : AgreeOn k s' t') :
    AgreeAfter k (s.apply (.done s')) (t.apply (.done t')) := .inl (h.seqTo (congrArg (· + 1) h.upc))

theorem AgreeOn.raise (h : AgreeOn k s t) {k' : Shared} {c : FaultCause} {x x' : BitVec W} (hx : x = x') :
    AgreeAfter k' (s.apply (.raise c x)) (t.apply (.raise c x')) :=
  .inr ⟨rfl, h.gpr, h.pc, h.ir, h.flags, h.mem, rfl, rfl, hx⟩

/-- An item that checks a value on which the two runs agree takes the same way in both. -/
theorem agreeAfter_ite {k' : Shared} {c : Bool} {e₁ e₂ e₁' e₂' : Effect W M N}
    (h₁ : AgreeAfter k' (s.apply e₁) (t.apply e₁')) (h₂ : AgreeAfter k' (s.apply e₂) (t.apply e₂')) :
    AgreeAfter k' (s.apply (if c then e₁ else e₂)) (t.apply (if c then e₁' else e₂')) := by
  cases c
  · exact h₂
  · exact h₁

/-- DECODE looks at IR alone (R155). -/
theorem AgreeOn.decode (h : AgreeOn k s t) :
    AgreeAfter k (s.apply (decodeDispatch s)) (t.apply (decodeDispatch t)) := by
  rw [decodeDispatch, decodeDispatch, h.ir]
  cases dispatch t.ir with
  | some u => exact .inl (h.seqTo rfl)
  | none => exact .inl { h with cuState := rfl }

/-- The cell that a flag selects is the same where both cells are (R174, R175). -/
theorem AgreeOn.smCell (h : AgreeOn k s t) (i : Nat) (hk : (k.sm0 && k.sm1) = true) :
    (if s.flags.getLsbD i then s.sm1 else s.sm0) = if t.flags.getLsbD i then t.sm1 else t.sm0 := by
  obtain ⟨h0, h1⟩ := Bool.and_eq_true_iff.mp hk
  rw [h.flags, h.sm0 h0, h.sm1 h1]

theorem AgreeOn.apply (it : Item W) (h : AgreeOn k s t) (hk : k.suffices it = true) :
    AgreeAfter (k.after it) (s.apply (it.effect s)) (t.apply (it.effect t)) := by
  cases it with
  | word w =>
    rw [item_effect_word, item_effect_word, h.marValid hk]
    exact agreeAfter_ite (h.consumeMar.putExt fun _ => rfl).done (h.raise rfl)
  | op m =>
    simp only [item_effect_op]
    cases m with
    | endOp => exact .inl (h.seqTo rfl)
    | decode => exact h.decode
    | pcRdExt => exact (h.putExt fun _ => h.pc).done
    | pcStExt => exact (h.setPc (h.ext hk)).done
    | pcRdInt => exact (h.putInt fun _ => h.pc).done
    | pcStInt => exact (h.setPc (h.int hk)).done
    | irRdExt => exact (h.putExt fun _ => h.ir).done
    | irStExt => exact (h.setIr (h.ext hk)).done
    | irRdInt => exact (h.putInt fun _ => h.ir).done
    | irStInt => exact (h.setIr (h.int hk)).done
    | rfRdExt =>
      rw [effect_rfRdExt, effect_rfRdExt, h.sel hk]
      exact agreeAfter_ite (h.putExt fun _ => h.readReg t.sel).done (h.raise rfl)
    | rfStExt =>
      obtain ⟨hsel, hext⟩ := Bool.and_eq_true_iff.mp hk
      rw [effect_rfStExt, effect_rfStExt, h.sel hsel]
      exact agreeAfter_ite (h.writeReg rfl (h.ext hext)).done (h.raise rfl)
    | rfRdInt =>
      rw [effect_rfRdInt, effect_rfRdInt, h.sel hk]
      exact agreeAfter_ite (h.putInt fun _ => h.readReg t.sel).done (h.raise rfl)
    | rfStInt =>
      obtain ⟨hsel, hint⟩ := Bool.and_eq_true_iff.mp hk
      rw [effect_rfStInt, effect_rfStInt, h.sel hsel]
      exact agreeAfter_ite (h.writeReg rfl (h.int hint)).done (h.raise rfl)
    | selLatch =>
      rw [effect_selLatch, effect_selLatch, h.ext hk]
      split
      · exact h.raise rfl
      · exact (h.setSel rfl).done
    | memReq =>
      rw [effect_memReq, effect_memReq, h.ext hk]
      exact agreeAfter_ite (h.latchMar rfl).done (h.raise rfl)
    | memRead =>
      rw [effect_memRead, effect_memRead, h.marValid hk, h.mar hk, h.mem]
      exact agreeAfter_ite (h.consumeMar.putExt fun _ => rfl).done (h.raise rfl)
    | memWrite =>
      obtain ⟨hreq, hext⟩ := Bool.and_eq_true_iff.mp hk
      rw [effect_memWrite, effect_memWrite, h.marValid hreq, h.mar hreq, h.mem, h.ext hext]
      exact agreeAfter_ite (h.consumeMar.setMem rfl).done (h.raise rfl)
    | smSt0 => exact (h.setSm0 h.ext).done
    | smSt1 => exact (h.setSm1 h.ext).done
    | smSelZ =>
      rw [effect_smSelZ, effect_smSelZ]
      exact (h.putExt (h.smCell flagZERO)).done
    | smSelN =>
      rw [effect_smSelN, effect_smSelN]
      exact (h.putExt (h.smCell flagNEGATIVE)).done
    | aluLd0 => exact (h.setS0 h.int).done
    | aluLd1 => exact (h.setS1 h.int).done
    | aluEm0 => exact (h.putInt h.s0).done
    | aluEm1 => exact (h.putInt h.s1).done
    | aluAdd =>
      refine (h.setS1 fun hb => ?_).done
      obtain ⟨h0, h1⟩ := Bool.and_eq_true_iff.mp hb
      rw [h.s0 h0, h.s1 h1]
    | aluSub =>
      refine (h.setS1 fun hb => ?_).done
      obtain ⟨h0, h1⟩ := Bool.and_eq_true_iff.mp hb
      rw [h.s0 h0, h.s1 h1]
    | aluInc => exact (h.setS1 fun hb => congrArg (· + 1) (h.s1 hb)).done
    | flgClr => exact (h.setFlags (congrArg flagsClear h.flags)).done
    | flgUpd => exact (h.setFlags (congrArg₂ flagsUpdate h.flags (h.int hk))).done

/-! #### Whole lists, and the step -/

/-- A list that the shared elements cover ends in the same architectural state. -/
theorem AgreeOn.runItems (l : List (Item W)) (h : AgreeOn k s t) (hk : k.covers l = true) :
    Machine.archEq (runItems l s) (runItems l t) := by
  induction l generalizing k s t with
  | nil => exact h.archEq
  | cons it rest ih =>
    obtain ⟨hit, hrest⟩ := Bool.and_eq_true_iff.mp hk
    cases hs : s.stopped with
    | true => rw [runItems_stopped _ hs, runItems_stopped _ (h.stopped ▸ hs)]; exact h.archEq
    | false =>
      rw [runItems_cons _ _ hs, runItems_cons _ _ (h.stopped ▸ hs)]
      rcases h.apply it hit with hrun | ⟨hstop, harch⟩
      · exact ih hrun hrest
      · rw [runItems_stopped _ hstop, runItems_stopped _ ((stopped_eq_of_archEq harch).symm.trans hstop)]
        exact harch

theorem runInstr_archEq {w : BitVec W} {body : List (Item W)} (h : archEq s t)
    (hk : Shared.nothing.covers (instrItems w body) = true) :
    archEq (runInstr w body s) (runInstr w body t) :=
  (agreeOn_nothing_seqTo h 0).runItems (instrItems w body) hk

/-- At a boundary the step is one instruction: the Words that it decodes are architectural state. -/
theorem stepRow_archEq (hs : s.ready) (ht : t.ready) (h : archEq s t) :
    ∃ s' t', stepRow s = .next s' ∧ stepRow t = .next t' ∧ archEq s' t' := by
  have hcode : s.codeWords = t.codeWords := by
    obtain ⟨-, hpc, -, -, hmem, -⟩ := h
    rw [State.Of.codeWords, State.Of.codeWords, hpc, hmem]
  have hword : s.mem.read s.pc.toNat = t.mem.read t.pc.toNat := (List.cons.inj hcode).1
  rw [stepRow_of_ready hs, stepRow_of_ready ht, runRowAtPc, runRowAtPc, hcode, hword]
  cases decodeWords t.codeWords with
  | error e => exact ⟨_, _, rfl, rfl, runInstr_archEq h (covers_instrItems_nil _)⟩
  | ok d =>
    obtain ⟨o, a, b, rest⟩ := d
    exact ⟨_, _, execRow_eq_runInstr o a b s, execRow_eq_runInstr o a b t, runInstr_archEq h (covers_instrItems o a b)⟩

/-- Settles O12: the step of the default machine is `stepRow`, whose every instruction writes the hidden elements
before it uses them. -/
theorem hiddenStateNotObservable : Obligations.HiddenStateNotObservable := by
  refine ⟨fun s s' hs hs' h => ?_, fun W M N _ s s' hs hs' h => stepRow_archEq hs hs' h⟩
  rw [step_eq_stepRow, step_eq_stepRow]
  exact stepRow_archEq hs hs' h

end Sys2Proof.Machine

/-! PROOFS. Reset and the ports (spec 10 R50, R55; spec 20 R102; spec 60 R312). -/

namespace Sys2Proof.Machine

variable {W M N : Nat}

/-- The reset state satisfies the invariant (R55, R341): it runs, at UPC = 0, with Memory empty. -/
theorem State.Of.inv_reset : (State.Of.reset : State.Of W M N).Inv where
  memory := State.Of.reset_wf
  selector := BitVec.toInt_zero.ge
  rom := by simp [State.Of.reset, rom, romFrom0]
  request := nofun
  running := fun _ => ⟨rfl, rfl⟩
  noFault := fun _ => ⟨rfl, rfl⟩
  halted := nofun
  faulted := nofun

/-- Settles O10, for every value of the parameters at once. -/
theorem invHoldsAtReset : Obligations.InvHoldsAtReset :=
  ⟨State.Of.inv_reset, fun _ _ _ _ => State.Of.inv_reset⟩

/-- Settles O15: only the two collections, the general registers and Memory, are more than one field. -/
theorem resetStateValues : Obligations.ResetStateValues := by
  refine ⟨rfl, fun W M N _ r hr => ?_⟩
  subst hr
  have hgpr : ∀ k : Fin N, (State.Of.reset : State.Of W M N).gpr[k] = 0 := fun k => Vector.getElem_replicate k.isLt
  exact ⟨hgpr, rfl, rfl, rfl, Memory.read_nil, rfl, rfl, rfl, rfl, rfl, rfl, rfl, rfl, rfl, rfl, rfl⟩

/-- The observer sees the register at every index of the file (R102). -/
theorem observeReg_of_lt (s : State.Of W M N) {k : Nat} (hk : k < nregOf N) : observeReg k s = some (s.readFile k) :=
  if_pos hk

/-- The observer is refused an index outside the file (log 19). -/
theorem observeReg_of_ge (s : State.Of W M N) {k : Nat} (hk : nregOf N ≤ k) : observeReg k s = none :=
  if_neg (Nat.not_lt.mpr hk)

theorem outputs_halted_iff (s : State.Of W M N) : (outputs s).halted = true ↔ s.cuState = .halt := beq_iff_eq

theorem outputs_faulted_iff (s : State.Of W M N) : (outputs s).faulted = true ↔ s.cuState = .fault := beq_iff_eq

/-- Settles O60: the register file is observed through the equations of `readFile` at each kind of index. -/
theorem statusAndObservationPorts : Obligations.StatusAndObservationPorts := by
  refine ⟨rfl, rfl, fun W M N _ s => ⟨rfl, rfl, rfl, outputs_halted_iff s, outputs_faulted_iff s, rfl, rfl,
    fun k => ?gpr, ?pc, ?ir, ?flags, fun k hk => observeReg_of_ge s hk, rfl, fun a => rfl⟩⟩
  case gpr => rw [observeReg_of_lt s (Nat.lt_add_right 3 k.isLt), s.readFile_gpr k]
  case pc => rw [observeReg_of_lt s (Nat.lt_add_of_pos_right (by decide))]; exact congrArg some s.readFile_idxPC
  case ir => rw [observeReg_of_lt s (Nat.add_lt_add_left (by decide) N)]; exact congrArg some s.readFile_idxIR
  case flags => rw [observeReg_of_lt s (Nat.add_lt_add_left (by decide) N)]; exact congrArg some s.readFile_idxFLAGS

end Sys2Proof.Machine

/-! PROOFS. What an item can change, said once (R154 to R184), and the element that each item writes. -/

namespace Sys2Proof.Machine

variable {W M N : Nat}

/-- The element that an item writes; `flow` where it moves the sequencer alone (R154, R155). -/
inductive Element where
  | flow | pc | ir | file | flags | mem | ext | int | s0 | s1 | sel | mar | sm
  deriving DecidableEq

/-- The element that each item writes. -/
def Item.target : Item W → Element
  | .word _ => .ext
  | .op .endOp => .flow
  | .op .decode => .flow
  | .op .pcRdExt => .ext
  | .op .pcStExt => .pc
  | .op .pcRdInt => .int
  | .op .pcStInt => .pc
  | .op .irRdExt => .ext
  | .op .irStExt => .ir
  | .op .irRdInt => .int
  | .op .irStInt => .ir
  | .op .rfRdExt => .ext
  | .op .rfStExt => .file
  | .op .rfRdInt => .int
  | .op .rfStInt => .file
  | .op .selLatch => .sel
  | .op .memReq => .mar
  | .op .memRead => .ext
  | .op .memWrite => .mem
  | .op .smSt0 => .sm
  | .op .smSt1 => .sm
  | .op .smSelZ => .ext
  | .op .smSelN => .ext
  | .op .aluLd0 => .s0
  | .op .aluLd1 => .s1
  | .op .aluEm0 => .int
  | .op .aluEm1 => .int
  | .op .aluAdd => .s1
  | .op .aluSub => .s1
  | .op .aluInc => .s1
  | .op .flgClr => .flags
  | .op .flgUpd => .flags

/-- The state `t` is `s` with one element written: a store into the file goes to the register in SEL, an update of
FLAGS keeps the bits from 2 up, and a data phase consumes the request. -/
inductive Writes (s : State.Of W M N) : Element → State.Of W M N → Prop
  | pc (v : BitVec W) : Writes s .pc (s.setPc v)
  | ir (v : BitVec W) : Writes s .ir (s.setIr v)
  | file (v : BitVec W) : Writes s .file (s.writeReg s.sel v)
  | flags (f : BitVec W) (hf : ∀ j, 2 ≤ j → f.getLsbD j = s.flags.getLsbD j) : Writes s .flags (s.setFlags f)
  | mem (m : Memory W) : Writes s .mem (s.consumeMar.setMem m)
  | ext (v : BitVec W) : Writes s .ext (s.putExt v)
  | deliver (v : BitVec W) : Writes s .ext (s.consumeMar.putExt v)
  | int (v : BitVec W) : Writes s .int (s.putInt v)
  | s0 (v : BitVec W) : Writes s .s0 (s.setS0 v)
  | s1 (v : BitVec W) : Writes s .s1 (s.setS1 v)
  | sel (v : BitVec W) : Writes s .sel (s.setSel v)
  | mar (a : BitVec W) : Writes s .mar (s.latchMar a)
  | sm0 (v : BitVec W) : Writes s .sm (s.setSm0 v)
  | sm1 (v : BitVec W) : Writes s .sm (s.setSm1 v)

/-- What an item can answer (R152): it has written its target, or it moves the sequencer, or it raises; DECODE alone
can halt. -/
inductive Item.Answers (s : State.Of W M N) : Item W → Effect W M N → Prop
  | done {it : Item W} {t : State.Of W M N} (h : Writes s it.target t) : Answers s it (.done t)
  | goto (it : Item W) (u : MicroAddr) : Answers s it (.goto u)
  | halt : Answers s (.op .decode) .halt
  | raise (it : Item W) (c : FaultCause) (x : BitVec W) : Answers s it (.raise c x)

/-- Bits W-1..2 of FLAGS are plain storage: a clear leaves them alone (R35, R183). -/
theorem flagsClear_other (f : BitVec W) {j : Nat} (hj : 2 ≤ j) : (flagsClear f).getLsbD j = f.getLsbD j := by
  rw [flagsClear, getLsbD_withBits, if_neg (by unfold flagNEGATIVE; omega), if_neg (by unfold flagZERO; omega)]

/-- An item that checks answers one way or raises. -/
theorem Item.Answers.ite {it : Item W} {s t : State.Of W M N} (h : Writes s it.target t) (c : Bool) (f : FaultCause)
    (x : BitVec W) : it.Answers s (if c then .done t else .raise f x) := by
  cases c
  · exact .raise it f x
  · exact .done h

theorem Item.answers (it : Item W) (s : State.Of W M N) : it.Answers s (it.effect s) := by
  cases it with
  | word w => exact .ite (.deliver w) _ _ _
  | op m =>
    cases m with
    | endOp => exact .goto _ _
    | decode =>
      rw [item_effect_op, effect_decode, decodeDispatch]
      cases dispatch s.ir with
      | some u => exact .goto _ u
      | none => exact .halt
    | pcRdExt => exact .done (.ext _)
    | pcStExt => exact .done (.pc _)
    | pcRdInt => exact .done (.int _)
    | pcStInt => exact .done (.pc _)
    | irRdExt => exact .done (.ext _)
    | irStExt => exact .done (.ir _)
    | irRdInt => exact .done (.int _)
    | irStInt => exact .done (.ir _)
    | rfRdExt => exact .ite (.ext _) _ _ _
    | rfStExt => exact .ite (.file _) _ _ _
    | rfRdInt => exact .ite (.int _) _ _ _
    | rfStInt => exact .ite (.file _) _ _ _
    | selLatch =>
      rw [item_effect_op, effect_selLatch]
      split
      · exact .raise _ _ _
      · exact .done (.sel _)
    | memReq => exact .ite (.mar _) _ _ _
    | memRead => exact .ite (.deliver _) _ _ _
    | memWrite => exact .ite (.mem _) _ _ _
    | smSt0 => exact .done (.sm0 _)
    | smSt1 => exact .done (.sm1 _)
    | smSelZ => rw [item_effect_op, effect_smSelZ]; exact .done (.ext _)
    | smSelN => rw [item_effect_op, effect_smSelN]; exact .done (.ext _)
    | aluLd0 => exact .done (.s0 _)
    | aluLd1 => exact .done (.s1 _)
    | aluEm0 => exact .done (.int _)
    | aluEm1 => exact .done (.int _)
    | aluAdd => exact .done (.s1 _)
    | aluSub => exact .done (.s1 _)
    | aluInc => exact .done (.s1 _)
    | flgClr => exact .done (.flags _ fun _ hj => flagsClear_other _ hj)
    | flgUpd => exact .done (.flags _ fun _ hj => flagsUpdate_other _ _ hj)

/-! #### Invariants of a list of items -/

/-- A property that every item of the list keeps holds after the list. -/
theorem runItems_invariant {P : State.Of W M N → Prop} (l : List (Item W))
    (hP : ∀ it ∈ l, ∀ s, s.stopped = false → P s → P (s.apply (it.effect s))) {s : State.Of W M N} (hs : P s) :
    P (runItems l s) := by
  induction l generalizing s with
  | nil => exact hs
  | cons it rest ih =>
    cases hstop : s.stopped with
    | true => rwa [runItems_stopped _ hstop]
    | false =>
      rw [runItems_cons _ _ hstop]
      exact ih (fun it' hit' => hP it' (.tail _ hit')) (hP it (.head _) s hstop hs)

theorem phaseOf_ne_halt (u : MicroAddr) : phaseOf u ≠ .halt := by
  rcases phaseOf_cases u with h | h | h <;> rw [h] <;> decide

/-- Only DECODE halts: without it no item leads into HALT. -/
theorem apply_ne_halt {it : Item W} (hit : it ≠ .op .decode) (s : State.Of W M N) :
    (s.apply (it.effect s)).cuState ≠ .halt := by
  have h := it.answers s
  generalize it.effect s = e at h ⊢
  cases h with
  | done h => exact phaseOf_ne_halt _
  | goto it u => exact phaseOf_ne_halt u
  | halt => exact absurd rfl hit
  | raise it c x => nofun

theorem runItems_ne_halt {l : List (Item W)} (hl : .op .decode ∉ l) {s : State.Of W M N} (hs : s.cuState ≠ .halt) :
    (runItems l s).cuState ≠ .halt :=
  runItems_invariant (P := fun s => s.cuState ≠ .halt) l
    (fun _ hit s _ _ => apply_ne_halt (fun he => hl (he ▸ hit)) s) hs

/-! #### Frames: what an item leaves alone -/

theorem Writes.sm_eq {s t : State.Of W M N} {e : Element} (h : Writes s e t) (he : e ≠ .sm) :
    (t.sm0, t.sm1) = (s.sm0, s.sm1) := by
  cases h with
  | sm0 v => exact absurd rfl he
  | sm1 v => exact absurd rfl he
  | file v => rw [State.Of.writeReg_sm0, State.Of.writeReg_sm1]
  | _ => rfl

theorem Writes.sel_eq {s t : State.Of W M N} {e : Element} (h : Writes s e t) (he : e ≠ .sel) : t.sel = s.sel := by
  cases h with
  | sel v => exact absurd rfl he
  | file v => exact s.writeReg_sel s.sel v
  | _ => rfl

theorem Writes.s0_eq {s t : State.Of W M N} {e : Element} (h : Writes s e t) (he : e ≠ .s0) : t.s0 = s.s0 := by
  cases h with
  | s0 v => exact absurd rfl he
  | file v => exact s.writeReg_s0 s.sel v
  | _ => rfl

/-- No item that is done touches the fault registers (R313). -/
theorem Writes.fault_eq {s t : State.Of W M N} {e : Element} (h : Writes s e t) :
    t.faultCause = s.faultCause ∧ t.faultInfo = s.faultInfo := by
  cases h with
  | file v => exact ⟨s.writeReg_faultCause s.sel v, s.writeReg_faultInfo s.sel v⟩
  | _ => exact ⟨rfl, rfl⟩

/-- Apart from the register in SEL and from the flag bits 0 and 1, no item changes a bit of FLAGS (R35). -/
theorem Writes.flags_bit {s t : State.Of W M N} {e : Element} {j : Nat} (h : Writes s e t)
    (hfile : e = .file → s.sel.toNat ≠ idxFLAGSOf N) (hflags : e = .flags → 2 ≤ j) :
    t.flags.getLsbD j = s.flags.getLsbD j := by
  cases h with
  | file v => rw [State.Of.writeReg_flags, if_neg (hfile rfl)]
  | flags f hf => exact hf j (hflags rfl)
  | _ => rfl

/-- A view of the state that does not show UPC, CU_STATE and the fault registers. -/
structure IgnoresStatus {α : Type} (f : State.Of W M N → α) : Prop where
  seqTo : ∀ s u, f (s.seqTo u) = f s
  halt : ∀ s, f s.halt = f s
  raise : ∀ s c x, f (s.raise c x) = f s

theorem IgnoresStatus.apply {α : Type} {f : State.Of W M N → α} (hf : IgnoresStatus f) {it : Item W}
    {s : State.Of W M N} (hdone : ∀ t, Writes s it.target t → f t = f s) : f (s.apply (it.effect s)) = f s := by
  have h := it.answers s
  generalize it.effect s = e at h ⊢
  cases h with
  | done h => exact (hf.seqTo _ _).trans (hdone _ h)
  | goto it u => exact hf.seqTo s u
  | halt => exact hf.halt s
  | raise it c x => exact hf.raise s c x

/-! #### Frames of whole instructions -/

/-- The items of an instruction of the default machine, from its boundary on. -/
def itemsOf (i : Instr) : List (Item 32) := instrItems i.opcode.word (programOf i)

theorem exec_eq_runItems (i : Instr) (s : State) : exec i s = .next (runItems (itemsOf i) (s.seqTo 0)) :=
  exec_eq_runInstr i s

theorem eq_runItems_of_exec {i : Instr} {s t : State} (h : exec i s = .next t) :
    t = runItems (itemsOf i) (s.seqTo 0) :=
  (Host.Outcome.next.inj ((exec_eq_runItems i s).symm.trans h)).symm

/-- The instruction has an item that writes the element. -/
def writesTo (i : Instr) (e : Element) : Bool := (itemsOf i).any (·.target == e)

theorem target_ne_of_writesTo {i : Instr} {e : Element} (hi : writesTo i e = false) {it : Item 32}
    (hit : it ∈ itemsOf i) : it.target ≠ e :=
  fun he => List.any_eq_false.mp hi it hit (beq_iff_eq.mpr he)

/-- An instruction without an item for an element leaves every view of it alone. -/
theorem exec_keeps {α : Type} {f : State → α} {i : Instr} {s t : State} (hf : IgnoresStatus f) (e : Element)
    (hw : ∀ {s t : State} {e'}, Writes s e' t → e' ≠ e → f t = f s) (hi : writesTo i e = false)
    (h : exec i s = .next t) : f t = f s := by
  rw [eq_runItems_of_exec h]
  exact runItems_invariant (P := fun x => f x = f s) (itemsOf i)
    (fun it hit x _ hx => (hf.apply fun _ hwr => hw hwr (target_ne_of_writesTo hi hit)).trans hx) (hf.seqTo s 0)

theorem exec_sm_eq {i : Instr} {s t : State} (hi : writesTo i .sm = false) (h : exec i s = .next t) :
    t.sm0 = s.sm0 ∧ t.sm1 = s.sm1 :=
  Prod.mk.inj
    (exec_keeps (f := fun x => (x.sm0, x.sm1)) ⟨fun _ _ => rfl, fun _ => rfl, fun _ _ _ => rfl⟩ .sm Writes.sm_eq hi h)

theorem exec_sel_eq {i : Instr} {s t : State} (hi : writesTo i .sel = false) (h : exec i s = .next t) :
    t.sel = s.sel :=
  exec_keeps (f := (·.sel)) ⟨fun _ _ => rfl, fun _ => rfl, fun _ _ _ => rfl⟩ .sel Writes.sel_eq hi h

theorem exec_s0_eq {i : Instr} {s t : State} (hi : writesTo i .s0 = false) (h : exec i s = .next t) :
    t.s0 = s.s0 :=
  exec_keeps (f := (·.s0)) ⟨fun _ _ => rfl, fun _ => rfl, fun _ _ _ => rfl⟩ .s0 Writes.s0_eq hi h

/-- The fault registers change only on the way into FAULT (R313). -/
theorem exec_fault_eq {i : Instr} {s t : State} (h : exec i s = .next t) (ht : t.cuState ≠ .fault) :
    t.faultCause = s.faultCause ∧ t.faultInfo = s.faultInfo := by
  have hinv : t.cuState = .fault ∨ t.faultCause = s.faultCause ∧ t.faultInfo = s.faultInfo := by
    rw [eq_runItems_of_exec h]
    refine runItems_invariant
      (P := fun x => x.cuState = .fault ∨ x.faultCause = s.faultCause ∧ x.faultInfo = s.faultInfo)
      (itemsOf i) (fun it _ x hrun hx => ?_) (.inr ⟨rfl, rfl⟩)
    have hx := hx.resolve_left fun hc => by simp [State.Of.stopped, hc] at hrun
    have ha := it.answers x
    generalize it.effect x = e at ha ⊢
    cases ha with
    | done hw =>
      obtain ⟨hcause, hinfo⟩ := hw.fault_eq
      exact .inr ⟨hcause.trans hx.1, hinfo.trans hx.2⟩
    | goto it u => exact .inr hx
    | halt => exact .inr hx
    | raise it c y => exact .inl rfl
  exact hinv.resolve_left ht

/-- Only `jn` and `jz` have an item for StatusMemory (R271, R272). -/
theorem writesTo_sm {i : Instr} (hn : ∀ x, i ≠ .jn x) (hz : ∀ x, i ≠ .jz x) : writesTo i .sm = false := by
  cases i with
  | jn x => exact absurd rfl (hn x)
  | jz x => exact absurd rfl (hz x)
  | _ => rfl

/-- No jump has an item for SEL or S0 (R270 to R272). -/
theorem writesTo_of_isJump {i : Instr} (h : isJump i = true) : writesTo i .sel = false ∧ writesTo i .s0 = false := by
  cases i with
  | jmp x => exact ⟨rfl, rfl⟩
  | jn x => exact ⟨rfl, rfl⟩
  | jz x => exact ⟨rfl, rfl⟩
  | _ => nomatch h

end Sys2Proof.Machine

/-! PROOFS. The values that a microprogram puts into PC, IR, the buses and SEL, where they follow from the
instruction alone: which register it stores into (R125), what PC is at its end (R197), and that no request stays
pending (R82). -/

namespace Sys2Proof.Machine

variable {W M N : Nat}

/-- What is known of some elements while the items of an instruction run; `req` is MAR_VALID. -/
structure Values (W : Nat) where
  pc : Option (BitVec W)
  ir : Option (BitVec W)
  ext : Option (BitVec W)
  int : Option (BitVec W)
  s1 : Option (BitVec W)
  sel : Option (BitVec W)
  req : Option Bool

/-- PC and the request are known, and nothing else. -/
def Values.atPc (pc : BitVec W) (req : Option Bool) : Values W := ⟨some pc, none, none, none, none, none, req⟩

/-- What is known of PC after a store into the register in SEL: it is the same unless that register is PC. -/
def Values.pcAfterStore (N : Nat) (v : Values W) : Option (BitVec W) :=
  v.sel.bind fun d => if d.toNat = idxPCOf N then none else v.pc

/-- What is known after an item, in a file with N general registers. -/
def Values.after (N : Nat) (v : Values W) : Item W → Values W
  | .word w => { v with ext := some w, req := some false }
  | .op .pcRdExt => { v with ext := v.pc }
  | .op .pcStExt => { v with pc := v.ext }
  | .op .pcRdInt => { v with int := v.pc }
  | .op .pcStInt => { v with pc := v.int }
  | .op .irRdExt => { v with ext := v.ir }
  | .op .irStExt => { v with ir := v.ext }
  | .op .irRdInt => { v with int := v.ir }
  | .op .irStInt => { v with ir := v.int }
  | .op .rfRdExt => { v with ext := none }
  | .op .rfStExt => { v with pc := v.pcAfterStore N, ir := none }
  | .op .rfRdInt => { v with int := none }
  | .op .rfStInt => { v with pc := v.pcAfterStore N, ir := none }
  | .op .selLatch => { v with sel := v.ext }
  | .op .memReq => { v with req := some true }
  | .op .memRead => { v with ext := none, req := some false }
  | .op .memWrite => { v with req := some false }
  | .op .smSelZ => { v with ext := none }
  | .op .smSelN => { v with ext := none }
  | .op .aluLd1 => { v with s1 := v.int }
  | .op .aluEm0 => { v with int := none }
  | .op .aluEm1 => { v with int := v.s1 }
  | .op .aluAdd => { v with s1 := none }
  | .op .aluSub => { v with s1 := none }
  | .op .aluInc => { v with s1 := v.s1.map (· + 1) }
  | .op _ => v

/-- What is known after a list of items. -/
def Values.afterItems (N : Nat) (v : Values W) (l : List (Item W)) : Values W := l.foldl (Values.after N) v

/-- The state has the known values. -/
structure Values.Describes (v : Values W) (s : State.Of W M N) : Prop where
  pc : ∀ x ∈ v.pc, s.pc = x
  ir : ∀ x ∈ v.ir, s.ir = x
  ext : ∀ x ∈ v.ext, s.extBus = x
  int : ∀ x ∈ v.int, s.intBus = x
  s1 : ∀ x ∈ v.s1, s.s1 = x
  sel : ∀ x ∈ v.sel, s.sel = x
  req : ∀ x ∈ v.req, s.marValid = x

variable {v : Values W} {s : State.Of W M N}

theorem Values.describes_atPc {req : Option Bool} (h : ∀ x ∈ req, s.marValid = x) :
    (Values.atPc s.pc req).Describes s :=
  ⟨fun _ hx => Option.some.inj hx, nofun, nofun, nofun, nofun, nofun, h⟩

theorem Values.Describes.writeReg (h : v.Describes s) (x : BitVec W) :
    { v with pc := v.pcAfterStore N, ir := none : Values W }.Describes (s.writeReg s.sel x) where
  pc y hy := by
    obtain ⟨d, hd, hy⟩ := Option.mem_bind_iff.mp hy
    rw [State.Of.writeReg_pc, h.sel d hd]
    split at hy
    · nomatch hy
    · rw [if_neg ‹_›, h.pc y hy]
  ir := nofun
  ext := by simpa using h.ext
  int := by simpa using h.int
  s1 := by simpa using h.s1
  sel := by simpa using h.sel
  req := by simpa using h.req

theorem Values.Describes.aluInc (h : v.Describes s) : ∀ x ∈ v.s1.map (· + 1), s.s1 + 1 = x := by
  rintro _ hx
  obtain ⟨y, hy, rfl⟩ := Option.mem_map.mp hx
  rw [h.s1 y hy]

/-- An item that checks and does not stop the machine has passed its check. -/
theorem describes_apply_ite {t : State.Of W M N} {c : Bool} {f : FaultCause} {x : BitVec W}
    (h : (s.apply (if c then .done t else .raise f x)).stopped = false) (ht : v.Describes t) :
    v.Describes (s.apply (if c then .done t else .raise f x)) := by
  cases c
  · nomatch h
  · exact { ht with }

/-- The known values stay true as long as the machine runs. -/
theorem Values.Describes.apply (it : Item W) (h : v.Describes s)
    (hrun : (s.apply (it.effect s)).stopped = false) : (v.after N it).Describes (s.apply (it.effect s)) := by
  have hdelivered : ∀ x ∈ some false, false = x := fun _ hx => Option.some.inj hx
  cases it with
  | word w =>
    exact describes_apply_ite hrun { h with ext := fun _ hx => Option.some.inj hx, req := hdelivered }
  | op m =>
    cases m with
    | endOp => exact { h with }
    | decode =>
      rw [item_effect_op, effect_decode, decodeDispatch]
      cases dispatch s.ir <;> exact { h with }
    | pcRdExt => exact { h with ext := h.pc }
    | pcStExt => exact { h with pc := h.ext }
    | pcRdInt => exact { h with int := h.pc }
    | pcStInt => exact { h with pc := h.int }
    | irRdExt => exact { h with ext := h.ir }
    | irStExt => exact { h with ir := h.ext }
    | irRdInt => exact { h with int := h.ir }
    | irStInt => exact { h with ir := h.int }
    | rfRdExt => exact describes_apply_ite hrun { h with ext := nofun }
    | rfStExt => exact describes_apply_ite hrun (h.writeReg s.extBus)
    | rfRdInt => exact describes_apply_ite hrun { h with int := nofun }
    | rfStInt => exact describes_apply_ite hrun (h.writeReg s.intBus)
    | selLatch =>
      rw [item_effect_op, effect_selLatch] at hrun ⊢
      split at hrun
      · nomatch hrun
      · rw [if_neg ‹_›]
        exact { h with sel := h.ext }
    | memReq => exact describes_apply_ite hrun { h with req := fun _ hx => Option.some.inj hx }
    | memRead => exact describes_apply_ite hrun { h with ext := nofun, req := hdelivered }
    | memWrite => exact describes_apply_ite hrun { h with req := hdelivered }
    | smSt0 => exact { h with }
    | smSt1 => exact { h with }
    | smSelZ =>
      rw [item_effect_op, effect_smSelZ]
      exact { h with ext := nofun }
    | smSelN =>
      rw [item_effect_op, effect_smSelN]
      exact { h with ext := nofun }
    | aluLd0 => exact { h with }
    | aluLd1 => exact { h with s1 := h.int }
    | aluEm0 => exact { h with int := nofun }
    | aluEm1 => exact { h with int := h.s1 }
    | aluAdd => exact { h with s1 := nofun }
    | aluSub => exact { h with s1 := nofun }
    | aluInc => exact { h with s1 := h.aluInc }
    | flgClr => exact { h with }
    | flgUpd => exact { h with }

theorem Values.Describes.runItems (l : List (Item W)) (h : v.Describes s)
    (hrun : (runItems l s).stopped = false) : (v.afterItems N l).Describes (runItems l s) := by
  induction l generalizing v s with
  | nil => exact h
  | cons it rest ih =>
    cases hs : s.stopped with
    | true => rw [runItems_stopped _ hs, hs] at hrun; nomatch hrun
    | false =>
      rw [runItems_cons _ _ hs] at hrun ⊢
      cases hstop : (s.apply (it.effect s)).stopped with
      | true => rw [runItems_stopped _ hstop, hstop] at hrun; nomatch hrun
      | false => exact ih (h.apply it hstop) hrun

/-! #### The register that an instruction stores into -/

/-- What is known of SEL at each register store of a list of items. -/
def Values.storeTargets (N : Nat) : Values W → List (Item W) → List (Option (BitVec W))
  | _, [] => []
  | v, it :: rest =>
    if it.target = .file then v.sel :: (v.after N it).storeTargets N rest else (v.after N it).storeTargets N rest

/-- Whatever is known at its boundary, an instruction stores into its destination register and into no other. -/
theorem storeTargets_itemsOf (i : Instr) (v : Values 32) :
    v.storeTargets Config.ngpr (itemsOf i) = (destReg i).toList.map some := by
  cases i <;> rfl

theorem runItems_flags_bit {l : List (Item W)} {j : Nat} (hv : v.Describes s)
    (hstore : ∀ d ∈ v.storeTargets N l, ∃ x, d = some x ∧ x.toNat ≠ idxFLAGSOf N)
    (hflags : ∀ it ∈ l, it.target = .flags → 2 ≤ j) :
    (runItems l s).flags.getLsbD j = s.flags.getLsbD j := by
  induction l generalizing v s with
  | nil => rfl
  | cons it rest ih =>
    cases hs : s.stopped with
    | true => rw [runItems_stopped _ hs]
    | false =>
      have hfile : it.target = .file → s.sel.toNat ≠ idxFLAGSOf N := by
        intro hit
        rw [Values.storeTargets, if_pos hit] at hstore
        obtain ⟨x, hx, hne⟩ := hstore _ (.head _)
        rwa [hv.sel x hx]
      have hrest : ∀ d ∈ (v.after N it).storeTargets N rest, ∃ x, d = some x ∧ x.toNat ≠ idxFLAGSOf N := by
        intro d hd
        refine hstore d ?_
        rw [Values.storeTargets]
        split
        · exact .tail _ hd
        · exact hd
      have hit : (s.apply (it.effect s)).flags.getLsbD j = s.flags.getLsbD j :=
        IgnoresStatus.apply (f := (·.flags.getLsbD j)) ⟨fun _ _ => rfl, fun _ => rfl, fun _ _ _ => rfl⟩
          fun _ hw => hw.flags_bit hfile (hflags it (.head _))
      rw [runItems_cons _ _ hs, ← hit]
      cases hstop : (s.apply (it.effect s)).stopped with
      | true => rw [runItems_stopped _ hstop]
      | false => exact ih (hv.apply it hstop) hrest fun it' hit' => hflags it' (.tail _ hit')

/-- The arithmetic instructions are the ones with an item for the flag bits (R36). -/
theorem writesTo_flags (i : Instr) : writesTo i .flags = isArithmetic i := by
  cases i <;> rfl

/-- An instruction whose destination is not FLAGS leaves bit `j` of FLAGS alone if that is not one of the two flag
bits or if the instruction is not arithmetic (R35, R36). -/
theorem exec_flags_bit {i : Instr} {s t : State} {j : Nat} (h : exec i s = .next t) (hd : destReg i ≠ some 6)
    (hj : isArithmetic i = true → 2 ≤ j) : t.flags.getLsbD j = s.flags.getLsbD j := by
  rw [eq_runItems_of_exec h]
  refine runItems_flags_bit (v := Values.atPc (s.seqTo 0).pc none) (Values.describes_atPc nofun)
    (fun d hmem => ?_) fun it hit he => hj ?_
  · rw [storeTargets_itemsOf] at hmem
    obtain ⟨x, hx, rfl⟩ := List.mem_map.mp hmem
    refine ⟨x, rfl, fun hn => hd ?_⟩
    rw [Option.mem_toList.mp hx, BitVec.eq_of_toNat_eq (y := 6) hn]
  · rw [← writesTo_flags]
    exact List.any_eq_true.mpr ⟨it, hit, beq_iff_eq.mpr he⟩

/-- Settles O49, bit by bit: an item that writes FLAGS is a register store, which goes to the destination, or belongs
to ARITH, which keeps the bits from 2 up. -/
theorem flagsFrame : Obligations.FlagsFrame := by
  intro i s t h hd
  refine ⟨fun j hj => exec_flags_bit h hd fun _ => hj, fun hna => BitVec.eq_of_getLsbD_eq fun j _ => ?_⟩
  exact exec_flags_bit h hd fun ha => nomatch hna.symm.trans ha

/-! #### The end of an instruction -/

/-- The three ways of an instruction (R190, R155): its FETCH faults; it is a halting word; its microprogram runs. -/
theorem exec_cases {i : Instr} {s t : State} (h : exec i s = .next t) :
    t = ((s.putExt s.pc).seqTo 1).raise .outOfBoundsMem s.pc ∨
    t = (startOf i.opcode.word 4 s).halt ∨
    ∃ u, opcodeDispatch i.opcode = some u ∧ t = runItems (programOf i) (startOf i.opcode.word u s) := by
  obtain rfl := Host.Outcome.next.inj ((exec_eq_runInstr i s).symm.trans h)
  cases hpc : legalMem Config.memSize s.pc with
  | false => exact .inl (runInstr_fetch_fault _ _ s hpc)
  | true =>
    have hw := dispatch_word (W := 32) (by decide) i.opcode
    cases hu : opcodeDispatch i.opcode with
    | none => exact .inr (.inl (runInstr_halts _ _ s hpc (hw.trans hu)))
    | some u => exact .inr (.inr ⟨u, rfl, runInstr_dispatched _ u _ s hpc (hw.trans hu)⟩)

/-- What is known at the start of a microprogram, with PC at the opcode word `pc` (R190). -/
theorem describes_startOf (w : BitVec W) (u : MicroAddr) (s : State.Of W M N) :
    (Values.atPc s.pc (some false)).Describes (startOf w u s) :=
  Values.describes_atPc (s := startOf w u s) fun _ hx => Option.some.inj hx

/-- A microprogram leaves no request pending (R82). -/
theorem req_afterItems (i : Instr) (pc : Word) :
    ((Values.atPc pc (some false)).afterItems Config.ngpr (programOf i)).req = some false := by
  cases i <;> rfl

theorem decode_notMem_programOf (i : Instr) : .op .decode ∉ programOf i := by
  have hall : (programOf i).all (fun it => decide (it ≠ .op .decode)) = true := by cases i <;> rfl
  exact fun hmem => of_decide_eq_true (List.all_eq_true.mp hall _ hmem) rfl

/-- No instruction that does not fault leaves a request pending (R82). -/
theorem exec_marValid {i : Instr} {s t : State} (h : exec i s = .next t) (ht : t.cuState ≠ .fault) :
    t.marValid = false := by
  rcases exec_cases h with rfl | rfl | ⟨u, hu, rfl⟩
  · exact absurd rfl ht
  · rfl
  · have hhalt := runItems_ne_halt (s := startOf i.opcode.word u s) (decode_notMem_programOf i) (phaseOf_ne_halt u)
    have hrun : (runItems (programOf i) (startOf i.opcode.word u s)).stopped = false := by
      simp [State.Of.stopped, hhalt, ht]
    exact ((describes_startOf _ u s).runItems _ hrun).req _ (req_afterItems i s.pc)

/-- Settles O51: SM, SEL and S0 by the items that write them, the fault registers by an invariant of every item, and
MAR_VALID by the values known at the end of a microprogram. -/
theorem hiddenElementsFrame : Obligations.HiddenElementsFrame := by
  intro i s t h
  refine ⟨fun hn hz => exec_sm_eq (writesTo_sm hn hz) h, fun hj => ?_, ?_, fun ht => ?_⟩
  · obtain ⟨hsel, hs0⟩ := writesTo_of_isJump hj
    exact ⟨exec_sel_eq hsel h, exec_s0_eq hs0 h⟩
  · rintro (⟨a, rfl⟩ | ⟨a, b, rfl⟩ | ⟨a, b, rfl⟩ | ⟨a, b, rfl⟩) <;> exact exec_s0_eq rfl h
  · obtain ⟨hcause, hinfo⟩ := exec_fault_eq h ht
    exact ⟨hcause, hinfo, exec_marValid h ht⟩

/-- PC at the end of a microprogram that is no jump (R197): it has moved once for each operand Word, the register
store has left it alone unless PC is the destination, and it has moved once more. -/
theorem pc_afterItems {i : Instr} {u : MicroAddr} (hu : opcodeDispatch i.opcode = some u) (hj : isJump i = false)
    (pc : Word) :
    ((Values.atPc pc (some false)).afterItems Config.ngpr (programOf i)).pc =
      ((destReg i).elim (some ((· + 1)^[i.opcode.format.operands] pc)) fun d =>
        if d.toNat = idxPCOf Config.ngpr then none else some ((· + 1)^[i.opcode.format.operands] pc)).map (· + 1) := by
  cases i with
  | jmp x => nomatch hj
  | jn x => nomatch hj
  | jz x => nomatch hj
  | reserved8 => nomatch hu
  | reserved9 => nomatch hu
  | reserved10 => nomatch hu
  | jeq => nomatch hu
  | jneq => nomatch hu
  | jgt => nomatch hu
  | jlw => nomatch hu
  | _ => rfl

theorem iterate_add_one (k : Nat) (x : BitVec W) : (· + 1)^[k] x = x + BitVec.ofNat W k := by
  rw [add_right_iterate, nsmul_one]; rfl

/-- Where the destination is not PC, that is the opcode address plus 1 plus the operand count (R31). -/
theorem pc_afterItems_of_ne {i : Instr} {u : MicroAddr} (hu : opcodeDispatch i.opcode = some u)
    (hj : isJump i = false) (hd : destReg i ≠ some 4) (pc : Word) :
    ((Values.atPc pc (some false)).afterItems Config.ngpr (programOf i)).pc =
      some (pc + 1 + BitVec.ofNat 32 i.opcode.format.operands) := by
  have hsum (k : Nat) : some ((· + 1)^[k] pc + 1) = some (pc + 1 + BitVec.ofNat 32 k) := by
    rw [iterate_add_one, add_right_comm]
  rw [pc_afterItems hu hj]
  cases hdest : destReg i with
  | none => exact hsum _
  | some d =>
    have hne : d.toNat ≠ idxPCOf Config.ngpr := fun hn => hd (hdest.trans (congrArg some (BitVec.eq_of_toNat_eq hn)))
    rw [Option.elim_some, if_neg hne]
    exact hsum _

/-- Settles O53: an instruction that completes has run its microprogram to the end, where PC is known. -/
theorem pcAfterNonJump : Obligations.PcAfterNonJump := by
  intro i s t hj hd h ht
  rcases exec_cases h with rfl | rfl | ⟨u, hu, rfl⟩
  · nomatch ht
  · nomatch ht
  · have hrun : (runItems (programOf i) (startOf i.opcode.word u s)).stopped = false := by
      rw [State.Of.stopped, ht]; rfl
    exact ((describes_startOf _ u s).runItems _ hrun).pc _ (pc_afterItems_of_ne hu hj hd s.pc)

end Sys2Proof.Machine

/-! PROOFS. The invariant of the machine (R80, R39, R311 to R318): the part of it that holds inside a microprogram,
which every item keeps, and the step. -/

namespace Sys2Proof.Machine

variable {W M N : Nat} {v : Values W} {s t : State.Of W M N} {n : Nat}

/-! #### The part of the invariant that holds inside a microprogram -/

/-- What holds inside a microprogram, also once it has raised; the ROM has room for `n` control words after UPC. -/
structure State.Of.Sound (s : State.Of W M N) (n : Nat) : Prop where
  memory : s.mem.wf M
  selector : 0 ≤ s.sel.toInt
  request : s.marValid = true → legalMem M s.mar = true
  rom : s.upc.toNat + n < rom.length
  notHalted : s.cuState ≠ .halt
  noFault : s.cuState ≠ .fault → s.faultCause = .none ∧ s.faultInfo = 0
  faulted : s.cuState = .fault → s.faultCause = .outOfBoundsMem ∨ s.faultCause = .outOfBoundsReg

theorem rom_length : rom.length = 473 := by
  simp only [rom, List.length_append]
  rfl

theorem State.Of.Sound.mono {m : Nat} (h : s.Sound n) (hm : m ≤ n) : s.Sound m :=
  { h with rom := by have := h.rom; omega }

theorem phaseOf_ne_fault (u : MicroAddr) : phaseOf u ≠ .fault := by
  rcases phaseOf_cases u with h | h | h <;> rw [h] <;> decide

theorem ne_fault_of_running (hrun : s.stopped = false) : s.cuState ≠ .fault := by
  intro hc
  simp [State.Of.stopped, hc] at hrun

/-- A move of the sequencer: the machine runs, so it has recorded no fault. -/
theorem State.Of.Sound.seqTo {m : Nat} {u : MicroAddr} (h : s.Sound n) (hs : s.cuState ≠ .fault)
    (hu : u.toNat + m < Machine.rom.length) : (s.seqTo u).Sound m :=
  { h with
    rom := hu
    notHalted := phaseOf_ne_halt u
    noFault := fun _ => h.noFault hs
    faulted := fun hc => absurd hc (phaseOf_ne_fault u) }

theorem State.Of.Sound.done (h : t.Sound (n + 1)) (ht : t.cuState ≠ .fault) : (s.apply (.done t)).Sound n := by
  have hrom := h.rom
  rw [rom_length] at hrom
  have hnext : (t.upc + 1).toNat = t.upc.toNat + 1 := by bv_omega
  exact h.seqTo ht (by rw [hnext, rom_length]; omega)

/-- A fatal error with one of the two causes that this hardware can raise (R314, R315). -/
theorem State.Of.Sound.raise {c : FaultCause} (h : s.Sound n) (hc : c = .outOfBoundsMem ∨ c = .outOfBoundsReg)
    (x : BitVec W) : (s.apply (.raise c x)).Sound n :=
  { h with
    notHalted := nofun
    noFault := fun hne => absurd rfl hne
    faulted := fun _ => hc }

/-- An item that checks a value keeps what both its answers keep. -/
theorem State.Of.Sound.ite {c : Bool} {e₁ e₂ : Effect W M N} (h₁ : c = true → (s.apply e₁).Sound n)
    (h₂ : (s.apply e₂).Sound n) : (s.apply (if c then e₁ else e₂)).Sound n := by
  cases c
  · exact h₂
  · exact h₁ rfl

/-! #### One rule per state operation that the invariant speaks of -/

theorem State.Of.Sound.setSel {x : BitVec W} (h : s.Sound n) (hx : 0 ≤ x.toInt) : (s.setSel x).Sound n :=
  { h with selector := hx }

theorem State.Of.Sound.latchMar {a : BitVec W} (h : s.Sound n) (ha : legalMem M a = true) : (s.latchMar a).Sound n :=
  { h with request := fun _ => ha }

theorem State.Of.Sound.consumeMar (h : s.Sound n) : s.consumeMar.Sound n := { h with request := nofun }

theorem State.Of.Sound.setMem {m : Memory W} (h : s.Sound n) (hm : m.wf M) : (s.setMem m).Sound n :=
  { h with memory := hm }

theorem State.Of.Sound.writeReg (h : s.Sound n) (d x : BitVec W) : (s.writeReg d x).Sound n where
  memory := by simpa using h.memory
  selector := by simpa using h.selector
  request := by simpa using h.request
  rom := by simpa using h.rom
  notHalted := by simpa using h.notHalted
  noFault := by simpa using h.noFault
  faulted := by simpa using h.faulted

/-! #### Every item keeps it -/

/-- The item is no DECODE, and if it is a data phase a request is known to be pending (R82, R317). -/
def Values.admits (v : Values W) : Item W → Bool
  | .word _ => v.req == some true
  | .op .memRead => v.req == some true
  | .op .memWrite => v.req == some true
  | .op .decode => false
  | .op _ => true

/-- Every item of the list is admitted where it stands. -/
def Values.admitsAll (N : Nat) : Values W → List (Item W) → Bool
  | _, [] => true
  | v, it :: rest => v.admits it && (v.after N it).admitsAll N rest

theorem Values.Describes.pending (h : v.Describes s) (hreq : (v.req == some true) = true) : s.marValid = true :=
  h.req true (beq_iff_eq.mp hreq)

/-- No item that is admitted raises anything but OutOfBoundsMem and OutOfBoundsReg, or breaks the invariant
(R316, R317). -/
theorem State.Of.Sound.apply (it : Item W) (h : s.Sound (n + 1)) (hrun : s.stopped = false) (hv : v.Describes s)
    (hit : v.admits it = true) : (s.apply (it.effect s)).Sound n := by
  have hs : s.cuState ≠ .fault := ne_fault_of_running hrun
  have hraise {c : FaultCause} (hc : c = .outOfBoundsMem ∨ c = .outOfBoundsReg) (x : BitVec W) :
      (s.apply (.raise c x)).Sound n := (h.mono n.le_succ).raise hc x
  have hstored (x : BitVec W) : (s.apply (.done (s.writeReg s.sel x))).Sound n :=
    (h.writeReg s.sel x).done (by simpa using hs)
  cases it with
  | word w =>
    rw [item_effect_word, if_pos (hv.pending hit)]
    exact .done { h.consumeMar with } hs
  | op m =>
    rw [item_effect_op]
    cases m with
    | endOp =>
      have hrom := h.rom
      exact h.seqTo hs (show 0 + n < Machine.rom.length by omega)
    | decode => nomatch hit
    | rfRdExt => exact .ite (fun _ => .done { h with } hs) (hraise (.inr rfl) _)
    | rfStExt => exact .ite (fun _ => hstored s.extBus) (hraise (.inr rfl) _)
    | rfRdInt => exact .ite (fun _ => .done { h with } hs) (hraise (.inr rfl) _)
    | rfStInt => exact .ite (fun _ => hstored s.intBus) (hraise (.inr rfl) _)
    | selLatch =>
      rw [effect_selLatch]
      split
      · exact hraise (.inr rfl) _
      · exact (h.setSel (not_lt.mp ‹_›)).done hs
    | memReq => exact .ite (fun hlegal => (h.latchMar hlegal).done hs) (hraise (.inl rfl) _)
    | memRead =>
      rw [effect_memRead, if_pos (hv.pending hit)]
      exact .done { h.consumeMar with } hs
    | memWrite =>
      have hmar : s.mar.toNat < M := toNat_lt_of_legalMem (h.request (hv.pending hit))
      rw [effect_memWrite, if_pos (hv.pending hit)]
      exact (h.consumeMar.setMem (Memory.wf_write s.extBus h.memory hmar)).done hs
    | smSelZ =>
      rw [effect_smSelZ]
      exact .done { h with } hs
    | smSelN =>
      rw [effect_smSelN]
      exact .done { h with } hs
    | _ => exact .done { h with } hs

theorem State.Of.Sound.runItems (l : List (Item W)) (h : s.Sound l.length) (hv : v.Describes s)
    (hl : v.admitsAll N l = true) : (runItems l s).Sound 0 := by
  induction l generalizing v s with
  | nil => exact h
  | cons it rest ih =>
    obtain ⟨hit, hrest⟩ := Bool.and_eq_true_iff.mp hl
    cases hrun : s.stopped with
    | true => rw [runItems_stopped _ hrun]; exact h.mono (Nat.zero_le _)
    | false =>
      have hnext := State.Of.Sound.apply it h hrun hv hit
      rw [runItems_cons _ _ hrun]
      cases hstop : (s.apply (it.effect s)).stopped with
      | true => rw [runItems_stopped _ hstop]; exact hnext.mono (Nat.zero_le _)
      | false => exact ih hnext (hv.apply it hstop) hrest

/-! #### The microprograms -/

/-- A microprogram without its END (R154). -/
def bodyOfRow (o : Opcode) (a b : BitVec W) : List (Item W) := (programOfRow o a b).dropLast

variable {o : Opcode} {u : MicroAddr}

/-- Every microprogram ends with END (R292). -/
theorem programOfRow_eq_body (hu : opcodeDispatch o = some u) (a b : BitVec W) :
    programOfRow o a b = bodyOfRow o a b ++ ops [.endOp] := by
  cases o <;> cases hu <;> rfl

theorem length_bodyOfRow (o : Opcode) (a b : BitVec W) : (bodyOfRow o a b).length = stepsOf o - 6 := by
  cases o <;> rfl

/-- The ROM has room for every microprogram at its dispatch address (R291). -/
theorem body_in_rom (hu : opcodeDispatch o = some u) (a b : BitVec W) :
    u.toNat + (bodyOfRow o a b).length < rom.length := by
  have hroom : ∀ u ∈ opcodeDispatch o, u.toNat + (stepsOf o - 6) < rom.length := by
    rw [rom_length]; cases o <;> decide
  rw [length_bodyOfRow]
  exact hroom u hu

/-- Every data phase of a microprogram comes after the request it consumes (R292). -/
theorem admitsAll_bodyOfRow (o : Opcode) (a b pc : BitVec W) :
    (Values.atPc pc (some false)).admitsAll N (bodyOfRow o a b) = true := by
  cases o <;> rfl

/-- No microprogram leaves a request pending (R82). -/
theorem req_afterItems_bodyOfRow (o : Opcode) (a b pc : BitVec W) :
    ((Values.atPc pc (some false)).afterItems N (bodyOfRow o a b)).req = some false := by
  cases o <;> rfl

/-! #### The end of an instruction -/

/-- A microprogram that has raised leaves the invariant. -/
theorem State.Of.Sound.inv_of_stopped (h : s.Sound 0) (hstop : s.stopped = true) : s.Inv := by
  have hfault : s.cuState = .fault := by simpa [State.Of.stopped, h.notHalted] using hstop
  exact
    { h with
      request := fun hreq => ⟨h.request hreq, hfault⟩
      running := fun hrun => nomatch hstop.symm.trans hrun
      halted := fun hh => absurd hh h.notHalted }

/-- END without a pending request leads back to the boundary (R154). -/
theorem State.Of.Sound.inv_seqTo_zero (h : s.Sound 0) (hrun : s.stopped = false) (hreq : s.marValid = false) :
    (s.seqTo 0).Inv :=
  { h with
    rom := Nat.zero_lt_of_lt h.rom
    request := fun hp => nomatch hreq.symm.trans hp
    running := fun _ => ⟨rfl, rfl⟩
    noFault := fun _ => h.noFault (ne_fault_of_running hrun)
    halted := nofun
    faulted := nofun }

/-- The state after FETCH and DECODE of a registered opcode (R190, R155). -/
theorem State.Of.Inv.sound_startOf (hs : s.Inv) (hrun : s.stopped = false) (w : BitVec W)
    (hu : u.toNat + n < Machine.rom.length) : (startOf w u s).Sound n where
  memory := hs.memory
  selector := hs.selector
  request := nofun
  rom := hu
  notHalted := phaseOf_ne_halt u
  noFault := fun _ => hs.noFault (ne_fault_of_running hrun)
  faulted := fun hc => absurd hc (phaseOf_ne_fault u)

/-- Every microprogram leads from its start to a boundary or a fatal error that satisfies the invariant. -/
theorem State.Of.Inv.runItems_program (hs : s.Inv) (hrun : s.stopped = false) (hu : opcodeDispatch o = some u)
    (w a b : BitVec W) : (runItems (programOfRow o a b) (startOf w u s)).Inv := by
  have hv : (Values.atPc s.pc (some false)).Describes (startOf w u s) :=
    Values.describes_atPc (s := startOf w u s) fun _ hx => Option.some.inj hx
  have hbody : (runItems (bodyOfRow o a b) (startOf w u s)).Sound 0 :=
    (hs.sound_startOf hrun w (body_in_rom hu a b)).runItems _ hv (admitsAll_bodyOfRow o a b s.pc)
  rw [programOfRow_eq_body hu, runItems_append]
  cases hstop : (runItems (bodyOfRow o a b) (startOf w u s)).stopped with
  | true => rw [runItems_stopped _ hstop]; exact hbody.inv_of_stopped hstop
  | false =>
    have hreq := (hv.runItems _ hstop).req _ (req_afterItems_bodyOfRow o a b s.pc)
    rw [ops_cons, runItems_cons _ _ hstop]
    exact hbody.inv_seqTo_zero hstop hreq

/-- A FETCH that faults (R190, R314 a). -/
theorem State.Of.Inv.fetch_fault (hs : s.Inv) :
    (((s.putExt s.pc).seqTo 1).raise .outOfBoundsMem s.pc).Inv where
  memory := hs.memory
  selector := hs.selector
  rom := (show (1 : MicroAddr).toNat < 473 by decide).trans_eq rom_length.symm
  request := fun hp => ⟨(hs.request hp).1, rfl⟩
  running := nofun
  noFault := fun hne => absurd rfl hne
  halted := nofun
  faulted := fun _ => .inl rfl

/-- A DECODE that finds no microprogram (R311). -/
theorem State.Of.Inv.decode_halt (hs : s.Inv) (hrun : s.stopped = false) {w : BitVec W} (hw : dispatch w = none) :
    (startOf w 4 s).halt.Inv where
  memory := hs.memory
  selector := hs.selector
  rom := (show (4 : MicroAddr).toNat < 473 by decide).trans_eq rom_length.symm
  request := nofun
  running := nofun
  noFault := fun _ => hs.noFault (ne_fault_of_running hrun)
  halted := fun _ => ⟨rfl, hw⟩
  faulted := nofun

/-- The three ways of an instruction (R190, R155) keep the invariant when its microprogram does. -/
theorem State.Of.Inv.runInstr (hs : s.Inv) (hrun : s.stopped = false) {w : BitVec W} {body : List (Item W)}
    (hbody : ∀ u, dispatch w = some u → (runItems body (startOf w u s)).Inv) : (runInstr w body s).Inv := by
  cases hpc : legalMem M s.pc with
  | false => rw [runInstr_fetch_fault _ _ s hpc]; exact hs.fetch_fault
  | true =>
    cases hw : dispatch w with
    | none => rw [runInstr_halts _ _ s hpc hw]; exact hs.decode_halt hrun hw
    | some u => rw [runInstr_dispatched _ u _ s hpc hw]; exact hbody u hw

/-! #### The step -/

/-- Three Words are enough for every row: only an unregistered opcode word is no instruction (R120, R127). -/
theorem opcodeOf_of_decodeWords_error {w a b : BitVec W} {e : DecodeError W} (h : decodeWords [w, a, b] = .error e) :
    opcodeOf w = none := by
  cases ho : opcodeOf w with
  | none => rfl
  | some o => cases hf : o.format <;> simp [decodeWords, ho, hf] at h

theorem State.Of.Inv.runRowAtPc (hW : 8 ≤ W) (hs : s.Inv) (hrun : s.stopped = false) (h : runRowAtPc s = .next t) :
    t.Inv := by
  rw [Machine.runRowAtPc] at h
  cases hd : decodeWords s.codeWords with
  | error e =>
    rw [hd] at h
    obtain rfl := Host.Outcome.next.inj h
    have hw := dispatch_none_of_opcodeOf (opcodeOf_of_decodeWords_error hd)
    exact hs.runInstr hrun fun u hu => nomatch hw.symm.trans hu
  | ok d =>
    obtain ⟨o, a, b, rest⟩ := d
    rw [hd] at h
    obtain rfl := Host.Outcome.next.inj ((execRow_eq_runInstr o a b s).symm.trans h)
    exact hs.runInstr hrun fun u hu => hs.runItems_program hrun ((dispatch_word hW o).symm.trans hu) _ a b

/-- A stopped machine stays as it is (R151); a running one is at a boundary, where the step is one instruction. -/
theorem State.Of.Inv.stepRow (hW : 8 ≤ W) (hs : s.Inv) (h : stepRow s = .next t) : t.Inv := by
  cases hrun : s.stopped with
  | true =>
    rw [Machine.stepRow, hrun] at h
    obtain rfl := Host.Outcome.next.inj h
    exact hs
  | false =>
    rw [stepRow_of_ready (hs.running hrun)] at h
    exact hs.runRowAtPc hW hrun h

/-- Settles O11: the step of the default machine is `stepRow`, which keeps the invariant for every legal WORD_BITS. -/
theorem stepKeepsInv : Obligations.StepKeepsInv :=
  ⟨fun s t hs h => hs.stepRow (by decide) ((step_eq_stepRow s).symm.trans h),
    fun _ _ _ hlegal _ _ hs h => hs.stepRow hlegal.wordBits h⟩

end Sys2Proof.Machine

/-! PROOFS. The Memory ports (spec 20): the loader, and a store into the word that the next FETCH reads. -/

namespace Sys2Proof.Machine

variable {W M N : Nat} {s : State.Of W M N}

/-! #### The loader (R91) -/

theorem loadWord_of_inRange {a : Int} (h0 : 0 ≤ a) (hM : a < M) (v : BitVec W) (s : State.Of W M N) :
    loadWord a v s = .ok (s.setMem (s.mem.write a.toNat v)) := if_pos ⟨h0, hM⟩

theorem loadWord_of_outOfRange {a : Int} (h : a < 0 ∨ M ≤ a) (v : BitVec W) (s : State.Of W M N) :
    loadWord a v s = .error (.outOfRange a) := if_neg (by omega)

/-- A load request that fails is dropped (R319). -/
theorem loadAtEdge_of_error {a : Int} {v : BitVec W} {b : Block W M N} {e : LoaderError}
    (h : loadWord a v b.core = .error e) : loadAtEdge a v b = b := by
  rw [loadAtEdge, h]

/-- Settles O57, by the two cases of the range check. -/
theorem loaderPort : Obligations.LoaderPort := by
  intro W M N _ a v s
  refine ⟨fun h0 hM => loadWord_of_inRange h0 hM v s, fun h => ?_⟩
  have herror := loadWord_of_outOfRange h v s
  exact ⟨herror, fun run => loadAtEdge_of_error (b := ⟨s, run⟩) herror⟩

/-! #### FETCH by the micro-operations of the ROM (R190, R292) -/

/-- A running machine takes the micro-operation that the ROM holds at UPC (R151). -/
theorem microStep_seqTo (s : State.Of W M N) {u : MicroAddr} {c : ControlWord} {m : MicroOp}
    (hc : romWord u = some c) (hm : microOpOf c = some m) : microStep (s.seqTo u) = m.perform (s.seqTo u) := by
  rw [microStep, State.Of.seqTo_stopped, if_neg Bool.false_ne_true, State.Of.seqTo_upc, hc]
  simp only [hm]

theorem seqTo_zero_of_ready (hs : s.ready) : s.seqTo 0 = s := by
  obtain ⟨hupc, hcu⟩ := hs
  cases s
  cases hupc
  cases hcu
  rfl

/-- FETCH at a legal PC leaves the Word that Memory holds there in IR, and the machine at DECODE (R190). -/
theorem microRun_fetch (hs : s.ready) (hpc : legalMem M s.pc = true) :
    microRun 4 s =
      ((((s.latchMar s.pc).consumeMar).putExt (s.mem.read s.pc.toNat)).setIr (s.mem.read s.pc.toNat)).seqTo 4 := by
  have hread : microStep (s.seqTo 0) = (s.putExt s.pc).seqTo 1 :=
    microStep_seqTo s (m := .pcRdExt) rfl rfl
  have hrequest : microStep ((s.putExt s.pc).seqTo 1) = ((s.putExt s.pc).latchMar s.pc).seqTo 2 := by
    rw [microStep_seqTo _ (m := .memReq) rfl rfl, MicroOp.perform, effect_memReq]
    exact congrArg _ (if_pos hpc)
  have hdeliver : microStep (((s.putExt s.pc).latchMar s.pc).seqTo 2) =
      ((s.latchMar s.pc).consumeMar.putExt (s.mem.read s.pc.toNat)).seqTo 3 := by
    rw [microStep_seqTo _ (m := .memRead) rfl rfl]; rfl
  have hstore : microStep (((s.latchMar s.pc).consumeMar.putExt (s.mem.read s.pc.toNat)).seqTo 3) =
      (((s.latchMar s.pc).consumeMar.putExt (s.mem.read s.pc.toNat)).setIr (s.mem.read s.pc.toNat)).seqTo 4 :=
    microStep_seqTo _ (m := .irStExt) rfl rfl
  calc microRun 4 s = microStep (microStep (microStep (microStep (s.seqTo 0)))) := by rw [seqTo_zero_of_ready hs]; rfl
    _ = _ := by rw [hread, hrequest, hdeliver, hstore]

/-! #### The store of moveRegMem (R252) -/

variable {a b : BitVec W}

/-- The Word that moveRegMem stores: its register, read with PC at the last Word and IR at the opcode word. -/
def movedWord (a : BitVec W) (s : State.Of W M N) : BitVec W :=
  ({ s with pc := s.pc + 2, ir := 12 } : State.Of W M N).readReg a

/-- END (R154). -/
theorem run_endOp (hrun : s.stopped = false) : runItems (ops [.endOp]) s = s.seqTo 0 := by
  rw [ops_cons, runItems_cons _ _ hrun]
  rfl

/-- The state after `SEL_LATCH` (R168). -/
def afterSelLatch (s : State.Of W M N) : State.Of W M N := (s.setSel s.extBus).seqTo (s.upc + 1)

theorem run_selLatch {u n : Nat} (h : s.inBody u (n + 1)) (hext : ¬ s.extBus.toInt < 0) :
    runItems (ops [.selLatch]) s = afterSelLatch s ∧ (afterSelLatch s).inBody (u + 1) n := by
  refine ⟨?_, h.done (t := s.setSel s.extBus) rfl⟩
  rw [ops_cons, runItems_cons _ _ h.running, item_effect_op, effect_selLatch, if_neg hext]
  rfl

/-- The state after the Word `x` of the register in SEL has been stored into the cell `b` (R252). -/
def afterStoreReg (b x : BitVec W) (s : State.Of W M N) : State.Of W M N :=
  (((s.latchMar b).consumeMar.putExt x).setMem (s.mem.write b.toNat x)).seqTo (s.upc + 3)

theorem run_storeReg {u n : Nat} {x : BitVec W} (h : s.inBody u (n + 3)) (hext : s.extBus = b)
    (hread : s.readReg s.sel = x) (hmem : legalMem M b = true) (hreg : legalReg N s.sel = true) :
    runItems (ops [.memReq, .rfRdExt, .memWrite]) s = afterStoreReg b x s ∧
      (afterStoreReg b x s).inBody (u + 3) n := by
  have hlow := h.low
  have hhigh := h.high
  refine ⟨?_, State.Of.inBody_seqTo _ (h.next_upc 3 (by omega)) (by omega) (by omega)⟩
  subst hext hread
  rw [ops_cons, runItems_cons _ _ h.running]
  simp [runItems, effect_memReq, effect_rfRdExt, effect_memWrite, hmem, hreg, BitVec.add_assoc]
  rfl

theorem add_one_add_one (x : BitVec W) : x + 1 + 1 = x + 2 := by
  rw [BitVec.add_assoc]
  exact congrArg (x + ·) (BitVec.ofNat_add 1 1).symm

/-- The register is read with PC at the last Word and IR at the opcode word (R252). -/
theorem readReg_operands (a b : BitVec W) (u : MicroAddr) (s : State.Of W M N) :
    (afterOpf b (afterSelLatch (afterOpf a (startOf 12 u s)))).readReg a = movedWord a s := by
  refine State.Of.readReg_congr a ?_ ?_ ?_ ?_
  · simp [afterOpf, afterSelLatch, startOf]
  · simpa [afterOpf, afterSelLatch, startOf] using add_one_add_one s.pc
  · simp [afterOpf, afterSelLatch, startOf]
  · simp [afterOpf, afterSelLatch, startOf]

/-- moveRegMem between legal operands (R252): the cell is written, PC is past the three Words, and the machine is at
a boundary. -/
theorem runItems_moveRegMem {u : MicroAddr} (hlow : 5 ≤ u.toNat) (hhigh : u.toNat + 26 < 512) (hfits : s.fits3)
    (ha : legalReg N a = true) (hb : legalMem M b = true) :
    runItems (moveRegMemProgram a b) (startOf 12 u s) =
      ({ s with pc := s.pc + 2, ir := 12, mem := s.mem.write b.toNat (movedWord a s) } : State.Of W M N).ended
        (ext := movedWord a s) (s0 := s.s0) (sel := a) (mar := b) := by
  obtain ⟨-, hpc1, hpc2⟩ := hfits
  rw [← add_one_add_one] at hpc2
  have hstart : (startOf 12 u s).inBody u.toNat 26 := State.Of.inBody_seqTo _ rfl hlow hhigh
  obtain ⟨hopfa, hin1⟩ := run_opf a (n := 18) hstart hpc1
  obtain ⟨hlatch, hin2⟩ := run_selLatch hin1 (not_neg_of_legalReg ha)
  obtain ⟨hopfb, hin3⟩ := run_opf b (n := 9) hin2 hpc2
  obtain ⟨hstore, hin4⟩ := run_storeReg (b := b) hin3 rfl (readReg_operands a b u s) hb ha
  rw [moveRegMemProgram, runItems_append, runItems_append, runItems_append, runItems_append, runItems_append,
    hopfa, hlatch, hopfb, hstore, run_pcAdv (n := 1) hin4, run_endOp (State.Of.seqTo_stopped _ _), ← add_one_add_one]
  apply State.Of.ext <;>
    simp [afterStoreReg, afterOpf, afterSelLatch, startOf, State.Of.ended, BitVec.add_assoc, phaseOf]

theorem exec_moveRegMem {a b : Word} {s : State} (hfits : s.fits3) (ha : legalReg Config.ngpr a = true)
    (hb : legalMem Config.memSize b = true) :
    exec (.moveRegMem a b) s = .next
      (({ s with pc := s.pc + 2, ir := 12, mem := s.mem.write b.toNat (movedWord a s) } : State).ended
        (ext := movedWord a s) (s0 := s.s0) (sel := a) (mar := b)) := by
  have hpc : legalMem Config.memSize s.pc = true := hfits.1
  have hw : dispatch (Opcode.moveRegMem.word : Word) = some 323 := dispatch_word (by decide) .moveRegMem
  have hrun := runItems_moveRegMem (u := 323) (by decide) (by decide) hfits ha hb
  exact (exec_eq_runInstr _ s).trans (congrArg _ ((runInstr_dispatched _ 323 _ s hpc hw).trans hrun))

/-- Settles O55: the store has left the machine at a boundary with PC at the cell it wrote, which FETCH reads. -/
theorem storeIsSeenByNextFetch : Obligations.StoreIsSeenByNextFetch := by
  intro a s t hwf hfits ha hb h
  have ht := Host.Outcome.next.inj ((exec_moveRegMem hfits ha hb).symm.trans h)
  have hready : t.ready := ht ▸ ⟨rfl, rfl⟩
  have hpc : t.pc = s.pc + 3 := ht ▸ BitVec.add_assoc s.pc 2 1
  have hmem : t.mem = s.mem.write (s.pc + 3).toNat (movedWord a s) := ht ▸ rfl
  rw [microRun_fetch hready (hpc ▸ hb)]
  refine ⟨?_, rfl⟩
  calc t.mem.read t.pc.toNat = (s.mem.write (s.pc + 3).toNat (movedWord a s)).read (s.pc + 3).toNat := by rw [hmem, hpc]
    _ = movedWord a s := Memory.read_write_same _ _ _ hwf

end Sys2Proof.Machine

/-! PROOFS. The decoder and the encoder (spec 30): one equation of the decoder per format, and the two round trips,
first for every Word width, then for the instructions of the default machine. -/

namespace Sys2Proof

variable {W : Nat} {w : BitVec W} {o : Opcode}

/-! #### The decoder by the format of the row (R120, R121) -/

theorem decodeWords_f0 (ho : opcodeOf w = some o) (hf : o.format = .f0) (rest : List (BitVec W)) :
    decodeWords (w :: rest) = .ok (o, 0, 0, rest) := by
  simp [decodeWords, ho, hf]

theorem decodeWords_f1 (ho : opcodeOf w = some o) (hf : o.format = .f1) (a : BitVec W) (rest : List (BitVec W)) :
    decodeWords (w :: a :: rest) = .ok (o, a, 0, rest) := by
  simp [decodeWords, ho, hf]

theorem decodeWords_f2 (ho : opcodeOf w = some o) (hf : o.format = .f2) (a b : BitVec W) (rest : List (BitVec W)) :
    decodeWords (w :: a :: b :: rest) = .ok (o, a, b, rest) := by
  simp [decodeWords, ho, hf]

/-! #### The round trips of rows with operand Words -/

theorem decodeWords_encodeWords (hW : 8 ≤ W) (o : Opcode) (a b : BitVec W) (rest : List (BitVec W)) :
    decodeWords (encodeWords o a b ++ rest) =
      .ok (o, if o.format = .f0 then 0 else a, if o.format = .f2 then b else 0, rest) := by
  have ho := opcodeOf_word hW o
  rw [encodeWords]
  cases hf : o.format with
  | f0 => exact decodeWords_f0 ho hf rest
  | f1 => exact decodeWords_f1 ho hf a rest
  | f2 => exact decodeWords_f2 ho hf a b rest

/-- Decoding drops no Word and no bit of a Word (R121, R122). -/
theorem eq_encodeWords_of_decodeWords {ws rest : List (BitVec W)} {a b : BitVec W}
    (h : decodeWords ws = .ok (o, a, b, rest)) : ws = encodeWords o a b ++ rest := by
  unfold decodeWords at h
  split at h
  case h_1 => nomatch h
  case h_2 w tail =>
    split at h
    case h_1 => nomatch h
    case h_2 o' ho =>
      obtain rfl := eq_word_of_opcodeOf ho
      split at h
      case h_1 hf => cases h; rw [encodeWords, hf]; rfl
      case h_2 hf => cases h; rw [encodeWords, hf]; rfl
      case h_3 hf => cases h; rw [encodeWords, hf]; rfl
      all_goals nomatch h

theorem head?_encodeWords (o : Opcode) (a b : BitVec W) (rest : List (BitVec W)) :
    (encodeWords o a b ++ rest).head? = some o.word := by
  rw [encodeWords]
  cases o.format <;> rfl

/-! #### The round trips of instructions -/

/-- An operand Word that the format has no place for is no part of the instruction (R121). -/
theorem instrOf_unused (o : Opcode) (a b : Word) :
    instrOf o (if o.format = .f0 then 0 else a) (if o.format = .f2 then b else 0) = instrOf o a b := by
  cases o <;> rfl

theorem encode_instrOf (o : Opcode) (a b : Word) : encode (instrOf o a b) = encodeWords o a b := by
  cases o <;> rfl

theorem decode_of_decodeWords {ws rest : List Word} {a b : Word} (h : decodeWords ws = .ok (o, a, b, rest)) :
    decode ws = .ok (instrOf o a b, rest) := by
  rw [decode, h]

theorem decode_eq_ok {ws rest : List Word} {i : Instr} (h : decode ws = .ok (i, rest)) :
    ∃ o a b, decodeWords ws = .ok (o, a, b, rest) ∧ i = instrOf o a b := by
  cases hd : decodeWords ws with
  | error e => rw [decode, hd] at h; nomatch h
  | ok d =>
    obtain ⟨o, a, b, tail⟩ := d
    rw [decode_of_decodeWords hd] at h
    cases h
    exact ⟨o, a, b, rfl, rfl⟩

theorem decode_encode (i : Instr) (rest : List Word) : decode (encode i ++ rest) = .ok (i, rest) := by
  have h := decode_of_decodeWords (decodeWords_encodeWords (by decide) i.opcode i.first i.second rest)
  rwa [← encode_eq_encodeWords, instrOf_unused, instrOf_opcode] at h

theorem eq_encode_of_decode {ws rest : List Word} {i : Instr} (h : decode ws = .ok (i, rest)) :
    ws = encode i ++ rest := by
  obtain ⟨o, a, b, hd, rfl⟩ := decode_eq_ok h
  rw [encode_instrOf]
  exact eq_encodeWords_of_decodeWords hd

/-- Settles O1: the opcode word of a row is looked up to that row, and its format says how many Words follow. -/
theorem decodeEncodeRoundTrip : Obligations.DecodeEncodeRoundTrip :=
  ⟨decode_encode, fun _ => decodeWords_encodeWords⟩

/-- Settles O2: a Word that is looked up to a row is that row's opcode word. -/
theorem encodeDecodeRoundTrip : Obligations.EncodeDecodeRoundTrip :=
  ⟨fun _ _ _ => eq_encode_of_decode, fun _ _ _ _ _ _ _ => eq_encodeWords_of_decodeWords⟩

/-- Settles O4: the Words of the first six are the encoding of the instruction; the last two are evaluated. -/
theorem specWordsDecode : Obligations.SpecWordsDecode :=
  ⟨decode_encode (.addImmReg 5 0) [], decode_encode (.addRegReg 1 2) [], decode_encode (.moveRegMem 1 50) [],
    decode_encode (.incReg 2) [], decode_encode (.jz 0) [], decode_encode .jeq [], rfl, rfl⟩

end Sys2Proof

/-! PROOFS. The Words that halt (R126, R127, R311): a row without a microprogram, and a Word without a row. -/

namespace Sys2Proof.Machine

variable {W M N : Nat}

/-! #### The registered opcodes -/

/-- The signed value of an opcode word is the opcode: a legal Word width (R5) has a bit to spare. -/
theorem toInt_word (hW : 8 ≤ W) (o : Opcode) : (o.word : BitVec W).toInt = o.code := by
  have hsmall : o.code < 2 ^ 7 := by cases o <;> decide
  have hpow : 2 ^ 8 ≤ 2 ^ W := Nat.pow_le_pow_right (by omega) hW
  rw [BitVec.toInt_eq_toNat_of_lt (by rw [o.toNat_word hW]; omega), o.toNat_word hW]

/-- The model's dispatch has only rows of the spec's table (R291). -/
theorem mem_dispatchTable {o : Opcode} {u : MicroAddr} (h : opcodeDispatch o = some u) :
    ((o.code : Int), u) ∈ dispatchTable := by
  cases o <;> cases h <;> decide

/-- A Word that is not registered has no microprogram (R127). -/
theorem dispatch_of_not_registered (hW : 8 ≤ W) {w : BitVec W} (hw : ¬ registered w) : dispatch w = none := by
  cases ho : opcodeOf w with
  | none => exact dispatch_none_of_opcodeOf ho
  | some o =>
    obtain rfl := eq_word_of_opcodeOf ho
    rw [dispatch_word hW]
    cases hu : opcodeDispatch o with
    | none => rfl
    | some u =>
      refine absurd ?_ hw
      rw [registered, toInt_word hW]
      exact List.mem_map_of_mem (mem_dispatchTable hu)

/-! #### FETCH and DECODE of a halting Word -/

/-- Whatever stands at PC, FETCH is of the Word there (R190, R200). -/
theorem runRowAtPc_eq_runInstr (s : State.Of W M N) :
    ∃ body, runRowAtPc s = .next (runInstr (s.mem.read s.pc.toNat) body s) := by
  rw [runRowAtPc]
  cases hd : decodeWords s.codeWords with
  | error e => exact ⟨[], rfl⟩
  | ok d =>
    obtain ⟨o, a, b, rest⟩ := d
    have hword : s.mem.read s.pc.toNat = o.word := by
      have hhead := head?_encodeWords o a b rest
      rw [← eq_encodeWords_of_decodeWords hd] at hhead
      exact Option.some.inj hhead
    exact ⟨programOfRow o a b, hword ▸ execRow_eq_runInstr o a b s⟩

theorem runInstr_eq_haltedOn {w : BitVec W} (body : List (Item W)) {s : State.Of W M N} (hpc : legalMem M s.pc = true)
    (hw : dispatch w = none) : runInstr w body s = s.haltedOn w :=
  runInstr_halts w body s hpc hw

theorem exec_eq_haltedOn {i : Instr} {s : State} (hpc : legalMem Config.memSize s.pc = true)
    (hi : opcodeDispatch i.opcode = none) : exec i s = .next (s.haltedOn i.opcode.word) := by
  rw [exec_eq_runInstr, runInstr_eq_haltedOn _ hpc ((dispatch_word (by decide) _).trans hi)]

/-- Settles O46: the step fetches the Word at PC, and DECODE finds no microprogram for it. -/
theorem unregisteredWordHalts : Obligations.UnregisteredWordHalts := by
  intro s hs hpc hw
  obtain ⟨body, hrun⟩ := runRowAtPc_eq_runInstr s
  refine ⟨?_, rfl, rfl⟩
  rw [step_eq_stepRow, stepRow_of_ready hs, hrun,
    runInstr_eq_haltedOn body hpc (dispatch_of_not_registered (by decide) hw)]

/-- Settles O45: none of the seven rows has a microprogram. -/
theorem reservedOpcodesHalt : Obligations.ReservedOpcodesHalt := fun _ hpc =>
  ⟨exec_eq_haltedOn hpc rfl, exec_eq_haltedOn hpc rfl, exec_eq_haltedOn hpc rfl, exec_eq_haltedOn hpc rfl,
    exec_eq_haltedOn hpc rfl, exec_eq_haltedOn hpc rfl, exec_eq_haltedOn hpc rfl⟩

end Sys2Proof.Machine

/-! PROOFS. What an instruction commits (R125, R322): the values known before each of its items, MAR among them, show
that a register store goes to its destination register and a memory write to its destination cell. -/

namespace Sys2Proof.Machine

variable {W M N : Nat}

/-! #### The values known before each item -/

/-- What is known while the items of an instruction run, with MAR. -/
structure Known (W : Nat) extends Values W where
  mar : Option (BitVec W)

/-- Nothing is known. -/
def Known.nothing : Known W := ⟨⟨none, none, none, none, none, none, none⟩, none⟩

/-- What is known after an item: MAR takes the address on EXT by a request alone (R82). -/
def Known.after (N : Nat) (k : Known W) (it : Item W) : Known W :=
  ⟨k.toValues.after N it, if it.target = .mar then k.ext else k.mar⟩

/-- What is known before each item of a list that writes the element. -/
def Known.atWrites (N : Nat) (e : Element) : Known W → List (Item W) → List (Known W)
  | _, [] => []
  | k, it :: rest => if it.target = e then k :: (k.after N it).atWrites N e rest else (k.after N it).atWrites N e rest

/-- The state has the known values. -/
structure Known.Describes (k : Known W) (s : State.Of W M N) : Prop extends k.toValues.Describes s where
  mar : ∀ a ∈ k.mar, s.mar = a

theorem Known.describes_nothing (s : State.Of W M N) : Known.nothing.Describes s :=
  ⟨⟨nofun, nofun, nofun, nofun, nofun, nofun, nofun⟩, nofun⟩

theorem eq_memReq_of_target {it : Item W} (h : it.target = .mar) : it = .op .memReq := by
  cases it with
  | word w => nomatch h
  | op m => cases m with
    | memReq => rfl
    | _ => nomatch h

theorem eq_memWrite_of_target {it : Item W} (h : it.target = .mem) : it = .op .memWrite := by
  cases it with
  | word w => nomatch h
  | op m => cases m with
    | memWrite => rfl
    | _ => nomatch h

theorem Writes.mar_eq {s t : State.Of W M N} {e : Element} (h : Writes s e t) (he : e ≠ .mar) : t.mar = s.mar := by
  cases h with
  | mar a => exact absurd rfl he
  | file v => exact s.writeReg_mar s.sel v
  | _ => rfl

variable {k : Known W} {s : State.Of W M N}

theorem mar_apply_of_target_ne {it : Item W} (hit : it.target ≠ .mar) : (s.apply (it.effect s)).mar = s.mar :=
  IgnoresStatus.apply (f := (·.mar)) ⟨fun _ _ => rfl, fun _ => rfl, fun _ _ _ => rfl⟩ fun _ hw => hw.mar_eq hit

/-- A request that does not raise has latched EXT (R82). -/
theorem mar_apply_memReq (hrun : (s.apply ((Item.op .memReq).effect s)).stopped = false) :
    (s.apply ((Item.op .memReq).effect s)).mar = s.extBus := by
  rw [item_effect_op, effect_memReq] at hrun ⊢
  split at hrun
  · rw [if_pos ‹_›]; rfl
  · nomatch hrun

/-- The known values stay true as long as the machine runs. -/
theorem Known.Describes.apply (it : Item W) (h : k.Describes s) (hrun : (s.apply (it.effect s)).stopped = false) :
    (k.after N it).Describes (s.apply (it.effect s)) where
  toDescribes := h.toDescribes.apply it hrun
  mar a ha := by
    by_cases hit : it.target = .mar
    · rw [Known.after, if_pos hit] at ha
      obtain rfl := eq_memReq_of_target hit
      rw [mar_apply_memReq hrun, h.ext a ha]
    · rw [Known.after, if_neg hit] at ha
      rw [mar_apply_of_target_ne hit, h.mar a ha]

/-- A view of the state is the same after a list of items if an item that writes one element changes it only where `P`
fails, no other item changes it, and `P` follows from what is known at each of those writes. -/
theorem Known.Describes.runItems_eq {α : Type} {f : State.Of W M N → α} {P : State.Of W M N → Prop} {e : Element}
    (l : List (Item W)) (hk : k.Describes s)
    (hkeep : ∀ (it : Item W) x, (it.target = e → P x) → f (x.apply (it.effect x)) = f x)
    (hwrite : ∀ c ∈ k.atWrites N e l, ∀ x, c.Describes x → P x) : f (runItems l s) = f s := by
  induction l generalizing k s with
  | nil => rfl
  | cons it rest ih =>
    rw [Known.atWrites] at hwrite
    cases hs : s.stopped with
    | true => rw [runItems_stopped _ hs]
    | false =>
      have hit : it.target = e → P s := by
        intro he
        rw [if_pos he] at hwrite
        exact hwrite k (.head _) s hk
      have hrest : ∀ c ∈ (k.after N it).atWrites N e rest, ∀ x, c.Describes x → P x := by
        intro c hc
        split at hwrite
        · exact hwrite c (.tail _ hc)
        · exact hwrite c hc
      rw [runItems_cons _ _ hs, ← hkeep it s hit]
      cases hstop : (s.apply (it.effect s)).stopped with
      | true => rw [runItems_stopped _ hstop]
      | false => exact ih (hk.apply it hstop) hrest

/-! #### The general registers -/

/-- No item but a store into its own index changes a general register (R38). -/
theorem Writes.gpr_getElem {s t : State.Of W M N} {e : Element} {j : Nat} (hj : j < N) (h : Writes s e t)
    (hfile : e = .file → s.sel.toNat ≠ j) : t.gpr[j] = s.gpr[j] := by
  cases h with
  | file v =>
    have hne : s.sel.toNat ≠ j := hfile rfl
    simp only [State.Of.writeReg_gpr]
    split
    · exact Vector.getElem_setIfInBounds_ne hj hne
    · rfl
  | _ => rfl

theorem gpr_getElem_apply {it : Item W} {j : Nat} (hj : j < N) (hfile : it.target = .file → s.sel.toNat ≠ j) :
    (s.apply (it.effect s)).gpr[j] = s.gpr[j] :=
  IgnoresStatus.apply (f := (·.gpr[j])) ⟨fun _ _ => rfl, fun _ => rfl, fun _ _ _ => rfl⟩
    fun _ hw => hw.gpr_getElem hj hfile

/-- SEL at the register stores of a list. -/
theorem Known.map_sel_atWrites (k : Known W) (l : List (Item W)) :
    (k.atWrites N .file l).map (·.sel) = k.toValues.storeTargets N l := by
  induction l generalizing k with
  | nil => rfl
  | cons it rest ih =>
    rw [Known.atWrites, Values.storeTargets]
    split
    · exact congrArg (k.sel :: ·) (ih (k.after N it))
    · exact ih (k.after N it)

theorem sel_of_mem_atWrites {i : Instr} {c : Known 32} (hc : c ∈ Known.nothing.atWrites Config.ngpr .file (itemsOf i)) :
    ∃ d, destReg i = some d ∧ c.sel = some d := by
  have hsel := List.mem_map_of_mem (f := (·.sel)) hc
  rw [Known.map_sel_atWrites, storeTargets_itemsOf] at hsel
  obtain ⟨d, hd, heq⟩ := List.mem_map.mp hsel
  exact ⟨d, Option.mem_toList.mp hd, heq.symm⟩

/-- Settles O50: an item that writes a general register is a store into the register in SEL, which is known to be the
destination register. -/
theorem generalRegisterFrame : Obligations.GeneralRegisterFrame := by
  intro i s t h k hk
  have hlt : (k : Nat) < Config.ngpr := k.isLt
  rw [eq_runItems_of_exec h]
  refine (Known.describes_nothing (s.seqTo 0)).runItems_eq (f := fun x => x.gpr[(k : Nat)]) _
    (fun _ _ => gpr_getElem_apply hlt) fun c hc x hx hn => hk ?_
  obtain ⟨d, hd, hsel⟩ := sel_of_mem_atWrites hc
  rw [hd, ← hn, hx.sel d hsel, BitVec.ofNat_toNat, BitVec.setWidth_eq]

/-! #### The cells -/

theorem Writes.mem_eq {s t : State.Of W M N} {e : Element} (h : Writes s e t) (he : e ≠ .mem) : t.mem = s.mem := by
  cases h with
  | mem m => exact absurd rfl he
  | file v => exact s.writeReg_mem s.sel v
  | _ => rfl

/-- The data phase of a write leaves every cell alone but the one at MAR (R84, R95). -/
theorem read_apply_memWrite {x : Nat} (hx : x ≠ s.mar.toNat) :
    (s.apply ((Item.op .memWrite).effect s)).mem.read x = s.mem.read x := by
  rw [item_effect_op, effect_memWrite]
  split
  · exact Memory.read_write_other s.mem s.extBus hx
  · rfl

theorem read_apply {it : Item W} {x : Nat} (hx : it.target = .mem → x ≠ s.mar.toNat) :
    (s.apply (it.effect s)).mem.read x = s.mem.read x := by
  by_cases hit : it.target = .mem
  · obtain rfl := eq_memWrite_of_target hit
    exact read_apply_memWrite (hx rfl)
  · exact IgnoresStatus.apply (f := (·.mem.read x)) ⟨fun _ _ => rfl, fun _ => rfl, fun _ _ _ => rfl⟩
      fun _ hw => congrArg (Memory.read · x) (hw.mem_eq hit)

/-- The only address that an instruction writes is its destination: `addRegMem` and `subRegMem` request it again when
the result is there (R199), `moveRegMem` before it reads the register (R252). -/
theorem map_mar_atWrites (i : Instr) :
    (Known.nothing.atWrites Config.ngpr .mem (itemsOf i)).map (·.mar) = (destMem i).toList.map some := by
  cases i <;> rfl

theorem mar_of_mem_atWrites {i : Instr} {c : Known 32} (hc : c ∈ Known.nothing.atWrites Config.ngpr .mem (itemsOf i)) :
    ∃ d, destMem i = some d ∧ c.mar = some d := by
  have hmar := List.mem_map_of_mem (f := (·.mar)) hc
  rw [map_mar_atWrites] at hmar
  obtain ⟨d, hd, heq⟩ := List.mem_map.mp hmar
  exact ⟨d, Option.mem_toList.mp hd, heq.symm⟩

/-- Settles O52: a cell is written by the data phase of a write alone, which goes to the address in MAR, and that is
known to be the destination address. -/
theorem memoryFrame : Obligations.MemoryFrame := by
  intro i s t h x hx
  rw [eq_runItems_of_exec h]
  refine (Known.describes_nothing (s.seqTo 0)).runItems_eq (f := (·.mem.read x)) _ (fun _ _ => read_apply)
    fun c hc y hy => ?_
  obtain ⟨d, hd, hmar⟩ := mar_of_mem_atWrites hc
  rw [hy.mar d hmar]
  exact hx d hd

end Sys2Proof.Machine

/-! PROOFS. What stands at PC (R200): the row that the Word at PC selects, with the two Words after it. -/

namespace Sys2Proof.Machine

variable {W M N : Nat} {s : State.Of W M N} {o : Opcode}

/-- The Word at PC. -/
def State.Of.wordAtPc (s : State.Of W M N) : BitVec W := s.mem.read s.pc.toNat

theorem codeWords_eq (s : State.Of W M N) :
    s.codeWords = [s.wordAtPc, s.mem.read (s.pc + 1).toNat, s.mem.read (s.pc + 2).toNat] := rfl

/-- The microprogram of the row at PC, with the two Words after PC as its operands; none for a Word in no row. -/
def State.Of.programAtPc (s : State.Of W M N) : List (Item W) :=
  (opcodeOf s.wordAtPc).elim [] fun o =>
    programOfRow o (s.mem.read (s.pc + 1).toNat) (s.mem.read (s.pc + 2).toNat)

theorem State.Of.programAtPc_of_opcodeOf (ho : opcodeOf s.wordAtPc = some o) :
    s.programAtPc = programOfRow o (s.mem.read (s.pc + 1).toNat) (s.mem.read (s.pc + 2).toNat) := by
  rw [State.Of.programAtPc, ho, Option.elim_some]

/-- A microprogram has no place for an operand Word that its format has none for (R121). -/
theorem programOfRow_unused (o : Opcode) (a b : BitVec W) :
    programOfRow o (if o.format = .f0 then 0 else a) (if o.format = .f2 then b else 0) = programOfRow o a b := by
  cases o <;> rfl

/-- Three Words are enough for every row (R120). -/
theorem decodeWords_of_opcodeOf {w : BitVec W} (ho : opcodeOf w = some o) (a b : BitVec W) :
    ∃ rest, decodeWords [w, a, b] =
      .ok (o, if o.format = .f0 then 0 else a, if o.format = .f2 then b else 0, rest) := by
  cases hf : o.format with
  | f0 => exact ⟨_, decodeWords_f0 ho hf _⟩
  | f1 => exact ⟨_, decodeWords_f1 ho hf a _⟩
  | f2 => exact ⟨_, decodeWords_f2 ho hf a b _⟩

/-- A Word in no row decodes to no instruction (R127). -/
theorem decodeWords_of_opcodeOf_none {w : BitVec W} (ho : opcodeOf w = none) (rest : List (BitVec W)) :
    decodeWords (w :: rest) = .error (.unregistered w) := by
  simp [decodeWords, ho]

/-- The step of a boundary is the microprogram of the row at PC, after FETCH and DECODE of the Word there. -/
theorem runRowAtPc_eq (s : State.Of W M N) : runRowAtPc s = .next (runInstr s.wordAtPc s.programAtPc s) := by
  rw [runRowAtPc, codeWords_eq]
  cases ho : opcodeOf s.wordAtPc with
  | none =>
    rw [decodeWords_of_opcodeOf_none ho, State.Of.programAtPc, ho]
    rfl
  | some o =>
    obtain ⟨rest, hok⟩ := decodeWords_of_opcodeOf ho (s.mem.read (s.pc + 1).toNat) (s.mem.read (s.pc + 2).toNat)
    rw [hok, State.Of.programAtPc_of_opcodeOf ho, eq_word_of_opcodeOf ho]
    exact (execRow_eq_runInstr o _ _ s).trans (by rw [programOfRow_unused])

theorem stepRow_eq_runInstr (hs : s.ready) : stepRow s = .next (runInstr s.wordAtPc s.programAtPc s) :=
  (stepRow_of_ready hs).trans (runRowAtPc_eq s)

end Sys2Proof.Machine

/-! PROOFS. The microprogram ROM (R290 to R292): a list of items whose control words stand at UPC runs as the
micro-operations that the machine takes there. -/

namespace Sys2Proof.Machine

variable {W M N : Nat} {s : State.Of W M N} {it : Item W} {l : List (Item W)} {c : ControlWord} {cs : List ControlWord}

/-! #### Control words at UPC -/

theorem romWord_of_atCodes (h : s.atCodes (c :: cs)) : romWord s.upc = some c := by
  obtain ⟨-, hcodes⟩ := h
  have hhead := congrArg (·[0]?) hcodes
  simpa [romWord] using hhead

theorem upc_succ_of_atCodes (h : s.atCodes (c :: cs)) : (s.upc + 1).toNat = s.upc.toNat + 1 := by
  obtain ⟨hlt, -⟩ := List.getElem?_eq_some_iff.mp (romWord_of_atCodes h)
  rw [rom_length] at hlt
  bv_omega

/-- The next control words stand at the next address. -/
theorem codes_tail_of_atCodes (h : s.atCodes (c :: cs)) : (rom.drop (s.upc + 1).toNat).take cs.length = cs := by
  obtain ⟨-, hcodes⟩ := id h
  have htail := congrArg (List.drop 1) hcodes
  rwa [List.drop_take, List.drop_drop, ← upc_succ_of_atCodes h] at htail

@[simp] theorem microOpOf_code (m : MicroOp) : microOpOf m.code = some m := by cases m <;> rfl

/-- An item runs as the micro-operation at UPC, if its own Word is the Word in the cell at MAR (log 7). -/
theorem microStep_of_atCodes (h : s.atCodes (it.code :: cs)) (hword : ∀ w, it = .word w → s.mem.read s.mar.toNat = w) :
    microStep s = s.apply (it.effect s) := by
  have hrom := romWord_of_atCodes h
  obtain ⟨hrun, -⟩ := h
  cases it with
  | op m => simp [microStep, hrun, hrom, Item.code, MicroOp.perform]
  | word w =>
    simp [microStep, hrun, hrom, Item.code, MicroOp.perform, effect_memRead, item_effect_word, hword w rfl]

/-! #### UPC after an item -/

theorem Writes.upc_eq {s t : State.Of W M N} {e : Element} (h : Writes s e t) : t.upc = s.upc := by
  cases h with
  | file v => exact s.writeReg_upc s.sel v
  | _ => rfl

/-- Only END and DECODE say where the sequencer goes (R154, R155). -/
theorem effect_ne_goto (hit : it.target ≠ .flow) (u : MicroAddr) : it.effect s ≠ .goto u := by
  have hite {c : Bool} {e₁ e₂ : Effect W M N} (h₁ : e₁ ≠ .goto u) (h₂ : e₂ ≠ .goto u) :
      (if c then e₁ else e₂) ≠ .goto u := by cases c <;> assumption
  cases it with
  | word w => exact hite nofun nofun
  | op m =>
    cases m with
    | endOp => exact absurd rfl hit
    | decode => exact absurd rfl hit
    | rfRdExt => exact hite nofun nofun
    | rfStExt => exact hite nofun nofun
    | rfRdInt => exact hite nofun nofun
    | rfStInt => exact hite nofun nofun
    | selLatch => rw [item_effect_op, effect_selLatch]; split <;> nofun
    | memReq => exact hite nofun nofun
    | memRead => exact hite nofun nofun
    | memWrite => exact hite nofun nofun
    | smSelZ => rw [item_effect_op, effect_smSelZ]; nofun
    | smSelN => rw [item_effect_op, effect_smSelN]; nofun
    | _ => nofun

/-- An item that is neither END nor DECODE leads to the next address, or it stops the machine where it is (R152). -/
theorem upc_apply (hit : it.target ≠ .flow) :
    (s.apply (it.effect s)).upc = s.upc + 1 ∨
      (s.apply (it.effect s)).stopped = true ∧ (s.apply (it.effect s)).upc = s.upc := by
  have hgoto := effect_ne_goto (s := s) hit
  have ha := it.answers s
  generalize it.effect s = e at ha hgoto ⊢
  cases ha with
  | done hw => exact .inl (congrArg (· + 1) hw.upc_eq)
  | goto _ u => exact absurd rfl (hgoto u)
  | halt => exact .inr ⟨rfl, rfl⟩
  | raise _ c x => exact .inr ⟨rfl, rfl⟩

/-! #### Lists of items in the ROM -/

/-- While the list runs, each own Word that it delivers is the Word in the cell at MAR (log 7). -/
def Delivers : List (Item W) → State.Of W M N → Prop
  | [], _ => True
  | it :: rest, s => s.stopped = false →
      (∀ w, it = .word w → s.mem.read s.mar.toNat = w) ∧ Delivers rest (s.apply (it.effect s))

/-- The ROM holds the list of items at UPC, followed by the control words `cs`; no item of it is END or DECODE, and
its own Words are the ones in Memory. -/
structure InRom (l : List (Item W)) (cs : List ControlWord) (s : State.Of W M N) : Prop where
  codes : s.stopped = false → s.atCodes (l.map Item.code ++ cs)
  straight : ∀ it ∈ l, it.target ≠ .flow
  delivers : Delivers l s

theorem InRom.microStep_eq (h : InRom (it :: l) cs s) (hrun : s.stopped = false) :
    microStep s = s.apply (it.effect s) :=
  microStep_of_atCodes (h.codes hrun) (h.delivers hrun).1

theorem InRom.next (h : InRom (it :: l) cs s) (hrun : s.stopped = false) : InRom l cs (s.apply (it.effect s)) where
  codes hnext := by
    rcases upc_apply (s := s) (h.straight it (.head _)) with hupc | ⟨hstop, -⟩
    · refine ⟨hnext, ?_⟩
      rw [hupc]
      exact codes_tail_of_atCodes (h.codes hrun)
    · nomatch hstop.symm.trans hnext
  straight it' hit' := h.straight it' (.tail _ hit')
  delivers := (h.delivers hrun).2

/-- No item of the list leads to a boundary (R200). -/
theorem InRom.not_boundary (h : InRom (it :: l) cs s) (hrun : s.stopped = false) :
    (s.apply (it.effect s)).stopped = true ∨ (s.apply (it.effect s)).upc ≠ 0 := by
  rcases upc_apply (s := s) (h.straight it (.head _)) with hupc | ⟨hstop, -⟩
  · have hsucc := upc_succ_of_atCodes (h.codes hrun)
    refine .inr fun hzero => ?_
    rw [← hupc, hzero] at hsucc
    exact absurd hsucc (Nat.succ_ne_zero _).symm
  · exact .inl hstop

theorem microStep_of_stopped (h : s.stopped = true) : microStep s = s := by
  rw [microStep, if_pos h]

theorem microRun_of_stopped (n : Nat) (h : s.stopped = true) : microRun n s = s := by
  induction n with
  | zero => rfl
  | succ n ih => rw [microRun, microStep_of_stopped h, ih]

theorem runToBoundary_of_stopped (n : Nat) (h : s.stopped = true) : runToBoundary n s = s := by
  cases n with
  | zero => rfl
  | succ n => rw [runToBoundary, microStep_of_stopped h, h, Bool.true_or, if_pos rfl]

/-- A micro-operation that does not lead to a boundary is not the last one (R200). -/
theorem runToBoundary_succ (n : Nat) (h : (microStep s).stopped = true ∨ (microStep s).upc ≠ 0) :
    runToBoundary (n + 1) s = runToBoundary n (microStep s) := by
  rw [runToBoundary]
  cases hstop : (microStep s).stopped with
  | true => rw [Bool.true_or, if_pos rfl, runToBoundary_of_stopped n hstop]
  | false =>
    have hne : (microStep s).upc ≠ 0 := h.resolve_left (by simp [hstop])
    rw [Bool.false_or, if_neg (by simpa using hne)]

/-- The micro-operations at UPC do what the list of items does. -/
theorem InRom.microRun_eq (h : InRom l cs s) : microRun l.length s = runItems l s := by
  induction l generalizing s with
  | nil => rfl
  | cons it rest ih =>
    cases hrun : s.stopped with
    | true => rw [microRun_of_stopped _ hrun, runItems_stopped _ hrun]
    | false => rw [runItems_cons _ _ hrun, List.length_cons, microRun, h.microStep_eq hrun, ih (h.next hrun)]

/-- The machine that runs to the next boundary runs the list of items on its way. -/
theorem InRom.runToBoundary_eq (h : InRom l cs s) (n : Nat) :
    runToBoundary (l.length + n) s = runToBoundary n (runItems l s) := by
  induction l generalizing s with
  | nil => rw [List.length_nil, Nat.zero_add, runItems_nil]
  | cons it rest ih =>
    cases hrun : s.stopped with
    | true => rw [runItems_stopped _ hrun, runToBoundary_of_stopped _ hrun, runToBoundary_of_stopped _ hrun]
    | false =>
      have hstep := h.microStep_eq hrun
      rw [runItems_cons _ _ hrun, List.length_cons, Nat.add_right_comm,
        runToBoundary_succ _ (hstep ▸ h.not_boundary hrun), hstep, ih (h.next hrun)]

/-- A list of items that ends with the machine running ends at the control words after it. -/
theorem InRom.atCodes_runItems (h : InRom l cs s) (hrun : (runItems l s).stopped = false) :
    (runItems l s).atCodes cs := by
  induction l generalizing s with
  | nil => exact h.codes hrun
  | cons it rest ih =>
    cases hs : s.stopped with
    | true => rw [runItems_stopped _ hs, hs] at hrun; nomatch hrun
    | false =>
      rw [runItems_cons _ _ hs] at hrun ⊢
      exact ih (h.next hs) hrun

/-- END is the last micro-operation before the boundary (R154). -/
theorem runToBoundary_endOp (n : Nat) (h : s.stopped = false → s.atCodes [MicroOp.endOp.code]) :
    runToBoundary (n + 1) s = runItems (ops [.endOp]) s := by
  cases hrun : s.stopped with
  | true => rw [runToBoundary_of_stopped _ hrun, runItems_stopped _ hrun]
  | false =>
    have hstep : microStep s = s.seqTo 0 := microStep_of_atCodes (it := .op .endOp) (h hrun) nofun
    rw [run_endOp hrun, runToBoundary, hstep]
    exact if_pos (by simp)

end Sys2Proof.Machine

/-! PROOFS. The step and the ROM (R200, R292): the values known while an instruction runs show that the Words it
delivers are the ones at PC, so its micro-operations do what its list of items does. -/

namespace Sys2Proof.Machine

variable {W M N : Nat} {s : State.Of W M N} {k : Known W} {o : Opcode} {u : MicroAddr}

/-! #### The Words that a list delivers -/

/-- What is known of MAR at each own Word of a list, with that Word. -/
def Known.deliveries (N : Nat) : Known W → List (Item W) → List (Option (BitVec W) × BitVec W)
  | _, [] => []
  | k, .word w :: rest => (k.mar, w) :: (k.after N (.word w)).deliveries N rest
  | k, .op m :: rest => (k.after N (.op m)).deliveries N rest

/-- No read of Memory comes after a store into it. -/
def readsBeforeStore : List ControlWord → Bool
  | [] => true
  | c :: cs => (c != MicroOp.memWrite.code || !cs.contains MicroOp.memRead.code) && readsBeforeStore cs

/-- A list without reads of Memory has no own Words to deliver. -/
theorem delivers_of_no_read (l : List (Item W)) (hl : (l.map Item.code).contains MicroOp.memRead.code = false) :
    Delivers l s := by
  induction l generalizing s with
  | nil => exact trivial
  | cons it rest ih =>
    obtain ⟨hit, hrest⟩ := Bool.or_eq_false_iff.mp hl
    refine fun _ => ⟨fun w hw => ?_, ih hrest⟩
    subst hw
    nomatch hit

theorem mem_apply_of_target_ne {it : Item W} (hit : it.target ≠ .mem) : (s.apply (it.effect s)).mem = s.mem :=
  IgnoresStatus.apply (f := (·.mem)) ⟨fun _ _ => rfl, fun _ => rfl, fun _ _ _ => rfl⟩ fun _ hw => hw.mem_eq hit

/-- A list delivers the Words in Memory if each of its own Words stands in the cell that MAR is known to name. -/
theorem Known.Describes.delivers (l : List (Item W)) (hk : k.Describes s)
    (hl : readsBeforeStore (l.map Item.code) = true)
    (hcells : ∀ d ∈ k.deliveries N l, ∃ a, d.1 = some a ∧ s.mem.read a.toNat = d.2) : Delivers l s := by
  induction l generalizing k s with
  | nil => exact trivial
  | cons it rest ih =>
    obtain ⟨hstore, hrest⟩ := Bool.and_eq_true_iff.mp hl
    refine fun _ => ⟨fun w hw => ?_, ?_⟩
    · subst hw
      obtain ⟨a, ha, hread⟩ := hcells _ (.head _)
      rw [hk.mar a ha, hread]
    · cases hstop : (s.apply (it.effect s)).stopped with
      | true =>
        cases rest with
        | nil => exact trivial
        | cons it' rest' => exact fun hrun => nomatch hstop.symm.trans hrun
      | false =>
        by_cases hit : it.target = .mem
        · obtain rfl := eq_memWrite_of_target hit
          exact delivers_of_no_read rest (by simpa [Item.code] using hstore)
        · refine ih (hk.apply it hstop) hrest fun d hd => ?_
          rw [mem_apply_of_target_ne hit]
          refine hcells d ?_
          cases it with
          | word w => exact .tail _ hd
          | op m => exact hd

/-! #### The control words of the shared sequences (R192 to R196) and of the microprograms -/

@[simp] theorem map_code_pcAdv : (pcAdv : List (Item W)).map Item.code = [4, 23, 28, 25, 5] := rfl
@[simp] theorem map_code_rdpc (w : BitVec W) : (rdpc w).map Item.code = [2, 15, 16] := rfl
@[simp] theorem map_code_opf (w : BitVec W) : (opf w).map Item.code = [4, 23, 28, 25, 5, 2, 15, 16] := rfl
@[simp] theorem map_code_deref : (deref : List (Item W)).map Item.code = [15, 16] := rfl
@[simp] theorem map_code_arith (op : MicroOp) : (arith op : List (Item W)).map Item.code = [29, op.code, 25, 30] := rfl
@[simp] theorem item_code_op (m : MicroOp) : (Item.op m : Item W).code = m.code := rfl

/-- The control words of a microprogram do not depend on its operand Words (R292). -/
theorem map_code_programOfRow (o : Opcode) (a b : BitVec W) :
    (programOfRow o a b).map Item.code = (programOfRow o (0 : BitVec 0) 0).map Item.code := by
  cases o <;> simp [programOfRow, addRegRegProgram, addMemRegProgram, addRegMemProgram, addImmRegProgram,
    subRegRegProgram, subMemRegProgram, subRegMemProgram, subImmRegProgram, incRegProgram, moveMemRegProgram,
    moveRegMemProgram, moveRegRegProgram, moveImmRegProgram, jmpProgram, jnProgram, jzProgram]

/-- The ROM holds every microprogram at its dispatch address (R291, R292). -/
theorem programOfRow_in_rom (hu : opcodeDispatch o = some u) (a b : BitVec W) :
    (rom.drop u.toNat).take ((programOfRow o a b).map Item.code).length = (programOfRow o a b).map Item.code := by
  have hrow : ∀ u ∈ opcodeDispatch o, (rom.drop u.toNat).take ((programOfRow o (0 : BitVec 0) 0).map Item.code).length =
      (programOfRow o (0 : BitVec 0) 0).map Item.code := by
    cases o <;> decide +kernel
  rw [map_code_programOfRow]
  exact hrow u hu

/-! #### The lists of an instruction in the ROM -/

theorem inRom_fetchItems (hs : s.ready) : InRom (fetchItems s.wordAtPc) [MicroOp.decode.code] s where
  codes hrun := ⟨hrun, by rw [hs.1]; rfl⟩
  straight it hit := by
    have hall : (fetchItems s.wordAtPc).all (fun it => decide (it.target ≠ .flow)) = true := rfl
    exact of_decide_eq_true (List.all_eq_true.mp hall it hit)
  delivers := by
    have hk : (⟨.atPc s.pc none, none⟩ : Known W).Describes s := ⟨Values.describes_atPc nofun, nofun⟩
    refine hk.delivers _ rfl fun d hd => ?_
    obtain rfl : d = (some s.pc, s.wordAtPc) := List.mem_singleton.mp hd
    exact ⟨s.pc, rfl, rfl⟩

/-- END and DECODE are the items that move the sequencer (R154, R155). -/
theorem code_of_target_flow {it : Item W} (h : it.target = .flow) :
    it.code = MicroOp.endOp.code ∨ it.code = MicroOp.decode.code := by
  cases it with
  | word w => nomatch h
  | op m => cases m with
    | endOp => exact .inl rfl
    | decode => exact .inr rfl
    | _ => nomatch h

/-- What the control words of every microprogram show before its END: no END, no DECODE, and no read of Memory after
a store. -/
theorem codes_bodyOfRow (o : Opcode) (a b : BitVec W) :
    MicroOp.endOp.code ∉ (bodyOfRow o a b).map Item.code ∧ MicroOp.decode.code ∉ (bodyOfRow o a b).map Item.code ∧
      readsBeforeStore ((bodyOfRow o a b).map Item.code) = true := by
  have hcodes : (bodyOfRow o a b).map Item.code = ((programOfRow o (0 : BitVec 0) 0).map Item.code).dropLast := by
    rw [bodyOfRow, List.map_dropLast, map_code_programOfRow]
  rw [hcodes]
  cases o <;> decide +kernel

theorem straight_bodyOfRow (o : Opcode) (a b : BitVec W) : ∀ it ∈ bodyOfRow o a b, it.target ≠ .flow := by
  intro it hit hflow
  obtain ⟨hend, hdecode, -⟩ := codes_bodyOfRow o a b
  have hmem := List.mem_map_of_mem (f := Item.code) hit
  rcases code_of_target_flow hflow with hc | hc
  · exact hend (hc ▸ hmem)
  · exact hdecode (hc ▸ hmem)

/-- The operand Words of a microprogram are read at the two addresses after the opcode word (R120, R194, R199). -/
theorem deliveries_bodyOfRow (o : Opcode) (a b pc : BitVec W) :
    (⟨.atPc pc (some false), none⟩ : Known W).deliveries N (bodyOfRow o a b) ⊆
      [(some (pc + 1), a), (some (pc + 1 + 1), b)] := by
  cases o <;> simp [bodyOfRow, programOfRow, addRegRegProgram, addMemRegProgram, addRegMemProgram, addImmRegProgram,
    subRegRegProgram, subMemRegProgram, subRegMemProgram, subImmRegProgram, incRegProgram, moveMemRegProgram,
    moveRegMemProgram, moveRegRegProgram, moveImmRegProgram, jmpProgram, jnProgram, jzProgram, opf, pcAdv, rdpc, deref,
    arith, Known.deliveries, Known.after, Values.after, Values.atPc, Item.target]

/-- The microprogram of the row at PC runs in the ROM from the start that DECODE gives it. -/
theorem inRom_bodyOfRow (hu : opcodeDispatch o = some u) (w : BitVec W) (s : State.Of W M N) :
    InRom (bodyOfRow o (s.mem.read (s.pc + 1).toNat) (s.mem.read (s.pc + 2).toNat)) [MicroOp.endOp.code]
      (startOf w u s) where
  codes hrun := by
    have hrom := programOfRow_in_rom hu (s.mem.read (s.pc + 1).toNat) (s.mem.read (s.pc + 2).toNat)
    rw [programOfRow_eq_body hu, List.map_append] at hrom
    exact ⟨hrun, hrom⟩
  straight := straight_bodyOfRow o _ _
  delivers := by
    have hk : (⟨.atPc s.pc (some false), none⟩ : Known W).Describes (startOf w u s) :=
      ⟨Values.describes_atPc (s := startOf w u s) fun _ hx => Option.some.inj hx, nofun⟩
    obtain ⟨-, -, hreads⟩ := codes_bodyOfRow o (s.mem.read (s.pc + 1).toNat) (s.mem.read (s.pc + 2).toNat)
    refine hk.delivers _ hreads fun d hd => ?_
    have hd := deliveries_bodyOfRow o _ _ s.pc hd
    simp only [List.mem_cons, List.not_mem_nil, or_false] at hd
    rcases hd with rfl | rfl
    · exact ⟨s.pc + 1, rfl, rfl⟩
    · exact ⟨s.pc + 1 + 1, rfl, by rw [add_one_add_one]; rfl⟩

/-! #### From one boundary to the next -/

/-- A microprogram runs in the ROM up to its END (R154), within the longest count of R291. -/
theorem runToBoundary_startOf (hu : opcodeDispatch o = some u) (w : BitVec W) (s : State.Of W M N) :
    runToBoundary 41 (startOf w u s) =
      runItems (programOfRow o (s.mem.read (s.pc + 1).toNat) (s.mem.read (s.pc + 2).toNat)) (startOf w u s) := by
  have hbody := inRom_bodyOfRow hu w s
  have hlen : ∃ n, 41 = (bodyOfRow o (s.mem.read (s.pc + 1).toNat) (s.mem.read (s.pc + 2).toNat)).length + (n + 1) := by
    rw [length_bodyOfRow]
    exact ⟨46 - stepsOf o, by cases o <;> cases hu <;> rfl⟩
  obtain ⟨n, hn⟩ := hlen
  rw [hn, hbody.runToBoundary_eq, runToBoundary_endOp n hbody.atCodes_runItems, programOfRow_eq_body hu,
    runItems_append]

/-- DECODE goes to the microprogram of the Word in IR, or it halts (R155). -/
theorem microStep_startOf_decode (w : BitVec W) (s : State.Of W M N) :
    microStep (startOf w 4 s) = (dispatch w).elim (startOf w 4 s).halt fun u => startOf w u s := by
  have hstep : microStep (startOf w 4 s) = (startOf w 4 s).apply (decodeDispatch (startOf w 4 s)) :=
    microStep_seqTo _ (m := .decode) rfl rfl
  rw [hstep, decodeDispatch, show (startOf w 4 s).ir = w from rfl]
  cases dispatch w <;> rfl

/-- The instruction at PC, as its list of items and as the micro-operations of the ROM (R200). -/
theorem runToBoundary_eq_runInstr (hs : s.ready) :
    runToBoundary maxSteps s = runInstr s.wordAtPc s.programAtPc s := by
  have hfetch : runToBoundary maxSteps s = runToBoundary 42 (runItems (fetchItems s.wordAtPc) (s.seqTo 0)) := by
    rw [seqTo_zero_of_ready hs]
    exact (inRom_fetchItems hs).runToBoundary_eq 42
  rw [hfetch]
  cases hpc : legalMem M s.pc with
  | false =>
    rw [run_fetch_fault _ s hpc, runInstr_fetch_fault _ _ s hpc,
      runToBoundary_of_stopped _ (State.Of.raise_stopped _ _ _)]
  | true =>
    have hdecode := microStep_startOf_decode s.wordAtPc s
    rw [run_fetch _ s hpc, ← startOf]
    cases hw : dispatch s.wordAtPc with
    | none =>
      rw [hw, Option.elim_none] at hdecode
      rw [runInstr_halts _ _ s hpc hw, runToBoundary_succ 41 (.inl (hdecode ▸ rfl)), hdecode,
        runToBoundary_of_stopped _ (State.Of.halt_stopped _)]
    | some u =>
      obtain ⟨o, ho, hu⟩ := Option.bind_eq_some_iff.mp hw
      have hne : (startOf s.wordAtPc u s).upc ≠ 0 := by
        change u ≠ 0
        cases o <;> cases hu <;> decide
      rw [hw, Option.elim_some] at hdecode
      rw [runInstr_dispatched _ u _ s hpc hw, runToBoundary_succ 41 (.inr (hdecode ▸ hne)), hdecode,
        runToBoundary_startOf hu, State.Of.programAtPc_of_opcodeOf ho]

theorem stepRow_eq_runToBoundary (hs : s.ready) : stepRow s = .next (runToBoundary maxSteps s) := by
  rw [stepRow_eq_runInstr hs, runToBoundary_eq_runInstr hs]

/-- Settles O7: the step runs the instruction at PC as a list of items, which the micro-operations of the ROM follow
one by one up to the boundary. -/
theorem stepRefinesMicroprogramRom : Obligations.StepRefinesMicroprogramRom :=
  ⟨fun s hs => (step_eq_stepRow s).trans (stepRow_eq_runToBoundary hs), step_eq_stepRow,
    fun _ _ _ _ _ hs => stepRow_eq_runToBoundary hs⟩

end Sys2Proof.Machine

/-! PROOFS. The pseudocode (R200 to R272): a microprogram follows the lines of its block. One rule per primitive of
the pseudocode says what the items for it do, the fatal error included; each block is then the chain of its rules. -/

namespace Sys2Proof.Machine

variable {W M N : Nat} {s m p : State.Of W M N} {n : Nat} {l : List (Item W)} {P : State.Of W M N}

/-! #### A machine inside a microprogram and the state of the pseudocode -/

/-- The hidden elements (R51) that a microprogram hands from one item to the next; `req` is MAR_VALID. -/
structure Hidden (W : Nat) where
  ext : BitVec W
  int : BitVec W
  s0 : BitVec W
  s1 : BitVec W
  sel : BitVec W
  mar : BitVec W
  req : Bool
  sm0 : BitVec W
  sm1 : BitVec W

/-- The machine `m` runs inside a microprogram, with room for `n` control words; its hidden elements are `v`, and it
agrees with the state `p` of the pseudocode on what a program can see (R51). In the pseudocode CU_STATE is FETCH until
the block ends. -/
structure Follows (n : Nat) (v : Hidden W) (m p : State.Of W M N) : Prop where
  gpr : m.gpr = p.gpr
  pc : m.pc = p.pc
  ir : m.ir = p.ir
  flags : m.flags = p.flags
  mem : m.mem = p.mem
  faultCause : m.faultCause = p.faultCause
  faultInfo : m.faultInfo = p.faultInfo
  fetch : p.cuState = .fetch
  low : 5 ≤ m.upc.toNat
  room : m.upc.toNat + n < 512
  execute : m.cuState = .execute
  ext : m.extBus = v.ext
  int : m.intBus = v.int
  s0 : m.s0 = v.s0
  s1 : m.s1 = v.s1
  sel : m.sel = v.sel
  mar : m.mar = v.mar
  req : m.marValid = v.req
  sm0 : m.sm0 = v.sm0
  sm1 : m.sm1 = v.sm1

/-- From every machine with the hidden elements `v` that follows `p`, with room for `n` control words, the items `l`
end as the state `P` of the pseudocode (R51). -/
def EndsAs (n : Nat) (v : Hidden W) (p : State.Of W M N) (l : List (Item W)) (P : State.Of W M N) : Prop :=
  ∀ m, Follows n v m p → archEq (runItems l m) P

variable {v : Hidden W}

theorem Follows.inBody (h : Follows n v m p) : m.inBody m.upc.toNat n := ⟨rfl, h.low, h.room, h.execute⟩

theorem Follows.running (h : Follows n v m p) : m.stopped = false := h.inBody.running

theorem Follows.readReg (h : Follows n v m p) (id : BitVec W) : m.readReg id = p.readReg id :=
  State.Of.readReg_congr id h.gpr h.pc h.ir h.flags

/-- Both take the same fatal error (R313). -/
theorem Follows.raise (h : Follows n v m p) (c : FaultCause) (x : BitVec W) :
    archEq (m.raise c x) (p.raise c x) :=
  ⟨h.gpr, h.pc, h.ir, h.flags, h.mem, rfl, rfl, rfl⟩

/-- An item that raises is the last one. -/
theorem Follows.itemRaise (h : Follows n v m p) (c : FaultCause) (x : BitVec W) :
    archEq (runItems l (m.apply (.raise c x))) (p.raise c x) := by
  rw [apply_raise, runItems_stopped _ (State.Of.raise_stopped _ _ _)]
  exact h.raise c x

/-- The sequencer moves on by `k`. -/
theorem Follows.seqTo {k : Nat} (h : Follows (n + k) v m p) : Follows n v (m.seqTo (m.upc + BitVec.ofNat 9 k)) p := by
  have hlow := h.low
  have hroom := h.room
  have hnext := h.inBody.next_upc k (by omega)
  exact { h with
    low := hnext ▸ (by omega)
    room := hnext ▸ (by omega)
    execute := phaseOf_execute (hnext ▸ (by omega)) }

theorem Follows.writeReg (h : Follows n v m p) (d x : BitVec W) : Follows n v (m.writeReg d x) (p.writeReg d x) where
  gpr := by rw [State.Of.writeReg_gpr, State.Of.writeReg_gpr, h.gpr]
  pc := by rw [State.Of.writeReg_pc, State.Of.writeReg_pc, h.pc]
  ir := by rw [State.Of.writeReg_ir, State.Of.writeReg_ir, h.ir]
  flags := by rw [State.Of.writeReg_flags, State.Of.writeReg_flags, h.flags]
  mem := by simpa using h.mem
  faultCause := by simpa using h.faultCause
  faultInfo := by simpa using h.faultInfo
  fetch := by simpa using h.fetch
  low := by simpa using h.low
  room := by simpa using h.room
  execute := by simpa using h.execute
  ext := by simpa using h.ext
  int := by simpa using h.int
  s0 := by simpa using h.s0
  s1 := by simpa using h.s1
  sel := by simpa using h.sel
  mar := by simpa using h.mar
  req := by simpa using h.req
  sm0 := by simpa using h.sm0
  sm1 := by simpa using h.sm1

/-! #### Items that raise nothing -/

/-- An item that is done in every machine that follows, where the pseudocode goes on with `q`. -/
theorem EndsAs.cons {it : Item W} {v' : Hidden W} {q : State.Of W M N} (hrest : EndsAs n v' q l P)
    (hdone : ∀ m, Follows (n + 1) v m p → ∃ t, it.effect m = .done t ∧ Follows (n + 1) v' t q) :
    EndsAs (n + 1) v p (it :: l) P := by
  intro m h
  obtain ⟨t, he, ht⟩ := hdone m h
  rw [runItems_cons _ _ h.running, he]
  exact hrest _ ht.seqTo

theorem EndsAs.irStExt (hrest : EndsAs n v (p.setIr v.ext) l P) : EndsAs (n + 1) v p (.op .irStExt :: l) P :=
  hrest.cons fun _ h => ⟨_, rfl, { h with ir := h.ext }⟩

theorem EndsAs.irStInt (hrest : EndsAs n v (p.setIr v.int) l P) : EndsAs (n + 1) v p (.op .irStInt :: l) P :=
  hrest.cons fun _ h => ⟨_, rfl, { h with ir := h.int }⟩

theorem EndsAs.irRdExt (hrest : EndsAs n { v with ext := p.ir } p l P) : EndsAs (n + 1) v p (.op .irRdExt :: l) P :=
  hrest.cons fun _ h => ⟨_, rfl, { h with ext := h.ir }⟩

theorem EndsAs.irRdInt (hrest : EndsAs n { v with int := p.ir } p l P) : EndsAs (n + 1) v p (.op .irRdInt :: l) P :=
  hrest.cons fun _ h => ⟨_, rfl, { h with int := h.ir }⟩

theorem EndsAs.pcRdExt (hrest : EndsAs n { v with ext := p.pc } p l P) : EndsAs (n + 1) v p (.op .pcRdExt :: l) P :=
  hrest.cons fun _ h => ⟨_, rfl, { h with ext := h.pc }⟩

theorem EndsAs.pcStExt (hrest : EndsAs n v (p.setPc v.ext) l P) : EndsAs (n + 1) v p (.op .pcStExt :: l) P :=
  hrest.cons fun _ h => ⟨_, rfl, { h with pc := h.ext }⟩

theorem EndsAs.aluLd0 (hrest : EndsAs n { v with s0 := v.int } p l P) : EndsAs (n + 1) v p (.op .aluLd0 :: l) P :=
  hrest.cons fun _ h => ⟨_, rfl, { h with s0 := h.int }⟩

theorem EndsAs.aluLd1 (hrest : EndsAs n { v with s1 := v.int } p l P) : EndsAs (n + 1) v p (.op .aluLd1 :: l) P :=
  hrest.cons fun _ h => ⟨_, rfl, { h with s1 := h.int }⟩

theorem EndsAs.aluEm0 (hrest : EndsAs n { v with int := v.s0 } p l P) : EndsAs (n + 1) v p (.op .aluEm0 :: l) P :=
  hrest.cons fun _ h => ⟨_, rfl, { h with int := h.s0 }⟩

theorem EndsAs.smSt0 (hrest : EndsAs n { v with sm0 := v.ext } (p.setSm0 v.ext) l P) :
    EndsAs (n + 1) v p (.op .smSt0 :: l) P :=
  hrest.cons fun _ h => ⟨_, rfl, { h with sm0 := h.ext }⟩

theorem EndsAs.smSt1 (hrest : EndsAs n { v with sm1 := v.ext } (p.setSm1 v.ext) l P) :
    EndsAs (n + 1) v p (.op .smSt1 :: l) P :=
  hrest.cons fun _ h => ⟨_, rfl, { h with sm1 := h.ext }⟩

/-- SM_SEL_Z and SM_SEL_N: the flag bit picks the cell of StatusMemory (R174, R175). -/
theorem EndsAs.smSel {op : MicroOp} {flag : Nat}
    (hop : ∀ m : State.Of W M N, op.effect m = .done (m.putExt (if m.flags.getLsbD flag then m.sm1 else m.sm0)))
    (hrest : EndsAs n { v with ext := if p.flags.getLsbD flag then v.sm1 else v.sm0 } p l P) :
    EndsAs (n + 1) v p (.op op :: l) P :=
  hrest.cons fun m h => ⟨_, hop m, { h with
    ext := show (if m.flags.getLsbD flag then m.sm1 else m.sm0) = _ by rw [h.flags, h.sm1, h.sm0] }⟩

/-- SEL_LATCH of an index that is known not to be negative (R168). -/
theorem EndsAs.selLatch (hext : ¬ v.ext.toInt < 0) (hrest : EndsAs n { v with sel := v.ext } p l P) :
    EndsAs (n + 1) v p (.op .selLatch :: l) P :=
  hrest.cons fun m h => ⟨_, (effect_selLatch m).trans (if_neg (h.ext ▸ hext)), { h with sel := h.ext }⟩

/-- END leads back to the boundary (R154). -/
theorem EndsAs.endOp : EndsAs n v p [.op .endOp] p := by
  intro m h
  rw [runItems_cons _ _ h.running]
  exact ⟨h.gpr, h.pc, h.ir, h.flags, h.mem, h.fetch.symm, h.faultCause, h.faultInfo⟩

/-- `adv()`: PCADV (R193). -/
theorem EndsAs.pcAdv (hrest : EndsAs n { v with int := p.pc + 1, s1 := p.pc + 1 } (Pseudo.adv p) l P) :
    EndsAs (n + 5) v p (pcAdv ++ l) P := by
  intro m h
  have hpc : m.pc + 1 = p.pc + 1 := congrArg (· + 1) h.pc
  have hadv : Follows (n + 5) { v with int := p.pc + 1, s1 := p.pc + 1 }
      (((m.putInt (m.pc + 1)).setS1 (m.pc + 1)).setPc (m.pc + 1)) (Pseudo.adv p) :=
    { h with pc := hpc, int := hpc, s1 := hpc }
  rw [runItems_append, run_pcAdv h.inBody]
  exact hrest _ hadv.seqTo

/-- The last line of a block that is no jump (R197). -/
theorem EndsAs.advEnd : EndsAs (n + 5) v p (Machine.pcAdv ++ [.op .endOp]) (Pseudo.adv p) := .pcAdv .endOp

/-- ARITH: `flags_clear()`, the arithmetic line and `flags_update(res)` (R196). -/
theorem EndsAs.arith {op : MicroOp} {f : BitVec W → BitVec W → BitVec W}
    (hop : ∀ m : State.Of W M N, op.effect m = .done (m.setS1 (f m.s0 m.s1)))
    (hrest : EndsAs n { v with int := f v.s0 v.s1, s1 := f v.s0 v.s1 } (Pseudo.flags (f v.s0 v.s1) p) l P) :
    EndsAs (n + 4) v p (arith op ++ l) P := by
  intro m h
  have hr : f m.s0 m.s1 = f v.s0 v.s1 := congrArg₂ f h.s0 h.s1
  have harith : Follows (n + 4) { v with int := f v.s0 v.s1, s1 := f v.s0 v.s1 }
      (((m.setS1 (f m.s0 m.s1)).putInt (f m.s0 m.s1)).setFlags (flagsUpdate (flagsClear m.flags) (f m.s0 m.s1)))
      (Pseudo.flags (f v.s0 v.s1) p) :=
    { h with int := hr, s1 := hr, flags := congrArg₂ (fun x => flagsUpdate (flagsClear x)) h.flags hr }
  rw [runItems_append, run_arith h.inBody (hop _)]
  exact hrest _ harith.seqTo

/-! #### The primitives of the pseudocode that can raise -/

/-- `w <- MemRead(pc, 1)`: RDPC (R192). -/
theorem EndsAs.rdpc {w : BitVec W} {rest : BitVec W → State.Of W M N → State.Of W M N}
    (hrest : EndsAs n { v with ext := w, mar := p.pc, req := false } p l (rest w p)) :
    EndsAs (n + 3) v p (rdpc w ++ l) (Pseudo.own w p rest) := by
  intro m h
  rw [runItems_append, Pseudo.own, ← h.pc]
  cases hlegal : legalMem M m.pc with
  | false =>
    rw [run_rdpc_fault w h.inBody hlegal, runItems_stopped _ (State.Of.raise_stopped _ _ _)]
    exact h.raise _ _
  | true =>
    have hread : Follows (n + 3) { v with ext := w, mar := p.pc, req := false }
        ((m.latchMar m.pc).consumeMar.putExt w) p := { h with ext := rfl, mar := h.pc, req := rfl }
    rw [run_rdpc w h.inBody hlegal]
    exact hrest _ hread.seqTo

/-- `adv()` and `w <- MemRead(pc, 1)`: OPF (R194). -/
theorem EndsAs.opf {w : BitVec W} {rest : BitVec W → State.Of W M N → State.Of W M N}
    (hrest : EndsAs n { v with ext := w, int := p.pc + 1, s1 := p.pc + 1, mar := p.pc + 1, req := false }
      (Pseudo.adv p) l (rest w (Pseudo.adv p))) :
    EndsAs (n + 8) v p (opf w ++ l) (Pseudo.own w (Pseudo.adv p) rest) := by
  rw [Machine.opf, List.append_assoc]
  exact .pcAdv (.rdpc hrest)

/-- `v <- MemRead(addr, 1)` with the address on EXT: DEREF (R195). -/
theorem EndsAs.deref {rest : BitVec W → State.Of W M N → State.Of W M N}
    (hrest : EndsAs n { v with ext := p.mem.read v.ext.toNat, mar := v.ext, req := false } p l
      (rest (p.mem.read v.ext.toNat) p)) :
    EndsAs (n + 2) v p (deref ++ l) (Pseudo.memRead v.ext p rest) := by
  intro m h
  rw [runItems_append, Pseudo.memRead, ← h.ext]
  cases hlegal : legalMem M m.extBus with
  | false =>
    rw [run_deref_fault h.running hlegal, runItems_stopped _ (State.Of.raise_stopped _ _ _)]
    exact h.raise _ _
  | true =>
    have hword : m.mem.read m.extBus.toNat = p.mem.read v.ext.toNat := by rw [h.mem, h.ext]
    have hread : Follows (n + 2) { v with ext := p.mem.read v.ext.toNat, mar := v.ext, req := false }
        ((m.latchMar m.extBus).consumeMar.putExt (m.mem.read m.extBus.toNat)) p :=
      { h with ext := hword, mar := h.ext, req := rfl }
    rw [run_deref h.inBody hlegal, if_pos rfl, h.ext]
    exact hrest _ (h.ext ▸ hread.seqTo)

/-- `sel(i)` with the index on EXT (R168). -/
theorem EndsAs.sel {rest : State.Of W M N → State.Of W M N}
    (hrest : ¬ v.ext.toInt < 0 → EndsAs n { v with sel := v.ext } (p.setSel v.ext) l (rest (p.setSel v.ext))) :
    EndsAs (n + 1) v p (.op .selLatch :: l) (Pseudo.sel v.ext p rest) := by
  intro m h
  rw [runItems_cons _ _ h.running, item_effect_op, effect_selLatch, Pseudo.sel, h.ext]
  split
  · exact h.itemRaise _ _
  · have hlatch : Follows (n + 1) { v with sel := v.ext } (m.setSel v.ext) (p.setSel v.ext) := { h with sel := rfl }
    exact hrest ‹_› _ hlatch.seqTo

/-- An item that checks the index in SEL and is done, or raises OutOfBoundsReg (R40). -/
theorem EndsAs.checkReg {it : Item W} {v' : Hidden W} {q : State.Of W M N} (hrest : EndsAs n v' q l P)
    (hdone : ∀ m, Follows (n + 1) v m p → ∃ t,
      (it.effect m = if legalReg N m.sel then .done t else .raise .outOfBoundsReg m.sel) ∧ Follows (n + 1) v' t q) :
    EndsAs (n + 1) v p (it :: l) (if legalReg N v.sel then P else p.raise .outOfBoundsReg v.sel) := by
  intro m h
  obtain ⟨t, he, ht⟩ := hdone m h
  rw [runItems_cons _ _ h.running, he, h.sel]
  cases legalReg N v.sel with
  | false => exact h.itemRaise _ _
  | true => exact hrest _ ht.seqTo

/-- `v <- x[i]` with the index in SEL, on the internal port (R166). -/
theorem EndsAs.reg {rest : BitVec W → State.Of W M N → State.Of W M N}
    (hrest : EndsAs n { v with int := p.readReg v.sel } p l (rest (p.readReg v.sel) p)) :
    EndsAs (n + 1) v p (.op .rfRdInt :: l) (Pseudo.reg v.sel p rest) :=
  hrest.checkReg fun m h => ⟨_, effect_rfRdInt m, { h with int := (h.readReg m.sel).trans (congrArg p.readReg h.sel) }⟩

/-- `v <- x[i]` with the index in SEL, on the external port (R164). -/
theorem EndsAs.regExt {rest : BitVec W → State.Of W M N → State.Of W M N}
    (hrest : EndsAs n { v with ext := p.readReg v.sel } p l (rest (p.readReg v.sel) p)) :
    EndsAs (n + 1) v p (.op .rfRdExt :: l) (Pseudo.reg v.sel p rest) :=
  hrest.checkReg fun m h => ⟨_, effect_rfRdExt m, { h with ext := (h.readReg m.sel).trans (congrArg p.readReg h.sel) }⟩

/-- `x[i] <- v` with the index in SEL, from INT (R167). -/
theorem EndsAs.regWrite {rest : State.Of W M N → State.Of W M N}
    (hrest : EndsAs n v (p.writeReg v.sel v.int) l (rest (p.writeReg v.sel v.int))) :
    EndsAs (n + 1) v p (.op .rfStInt :: l) (Pseudo.regWrite v.sel v.int p rest) :=
  hrest.checkReg fun m h => ⟨_, effect_rfStInt m, h.sel ▸ h.int ▸ h.writeReg m.sel m.intBus⟩

/-- `x[i] <- v` with the index in SEL, from EXT (R165). -/
theorem EndsAs.regWriteExt {rest : State.Of W M N → State.Of W M N}
    (hrest : EndsAs n v (p.writeReg v.sel v.ext) l (rest (p.writeReg v.sel v.ext))) :
    EndsAs (n + 1) v p (.op .rfStExt :: l) (Pseudo.regWrite v.sel v.ext p rest) :=
  hrest.checkReg fun m h => ⟨_, effect_rfStExt m, h.sel ▸ h.ext ▸ h.writeReg m.sel m.extBus⟩

/-- The address check of a write, with the address on EXT: MEM_REQ (R169). -/
theorem EndsAs.memCheck {rest : State.Of W M N → State.Of W M N}
    (hrest : legalMem M v.ext = true → EndsAs n { v with mar := v.ext, req := true } p l (rest p)) :
    EndsAs (n + 1) v p (.op .memReq :: l) (Pseudo.memCheck v.ext p rest) := by
  intro m h
  rw [runItems_cons _ _ h.running, item_effect_op, effect_memReq, Pseudo.memCheck, h.ext]
  cases hlegal : legalMem M v.ext with
  | false => exact h.itemRaise _ _
  | true =>
    have hlatch : Follows (n + 1) { v with mar := v.ext, req := true } (m.latchMar v.ext) p :=
      { h with mar := rfl, req := rfl }
    exact hrest hlegal _ hlatch.seqTo

/-- A write is its address check, then the store (R84). -/
theorem memWrite_eq_memCheck (a x : BitVec W) (p : State.Of W M N) (rest : State.Of W M N → State.Of W M N) :
    Pseudo.memWrite a x p rest = Pseudo.memCheck a p fun p => rest (p.setMem (p.mem.write a.toNat x)) := rfl

/-- The data phase of a write that is pending: MEM_WRITE (R171). -/
theorem EndsAs.store (hreq : v.req = true)
    (hrest : EndsAs n { v with req := false } (p.setMem (p.mem.write v.mar.toNat v.ext)) l P) :
    EndsAs (n + 1) v p (.op .memWrite :: l) P :=
  hrest.cons fun m h => ⟨_, (effect_memWrite m).trans (if_pos (h.req.trans hreq)),
    { h with
      req := rfl
      mem := show m.mem.write m.mar.toNat m.extBus = _ by rw [h.mem, h.mar, h.ext]; rfl }⟩

/-! #### FETCH and DECODE -/

/-- The microprograms stand inside the range of UPC, past DECODE, with room for the longest one (R291). -/
theorem room_of_dispatch {w : BitVec W} {u : MicroAddr} (hw : dispatch w = some u) :
    5 ≤ u.toNat ∧ u.toNat + 41 < 512 := by
  obtain ⟨o, -, hu⟩ := Option.bind_eq_some_iff.mp hw
  cases o <;> cases hu <;> decide

/-- The three lines before every block: FETCH and DECODE of a registered opcode (R200). -/
theorem runInstr_block {w : BitVec W} {u : MicroAddr} {body : List (Item W)} {rest : State.Of W M N → State.Of W M N}
    (hw : dispatch w = some u) (hrest : ∀ v p, EndsAs 41 v p body (rest p)) :
    archEq (runInstr w body s) (Pseudo.block w s rest) := by
  rw [Pseudo.block, Pseudo.own]
  cases hpc : legalMem M s.pc with
  | false =>
    rw [runInstr_fetch_fault _ _ s hpc]
    exact ⟨rfl, rfl, rfl, rfl, rfl, rfl, rfl, rfl⟩
  | true =>
    obtain ⟨hlow, hroom⟩ := room_of_dispatch hw
    have hstart : Follows 41 ⟨w, s.intBus, s.s0, s.s1, s.sel, s.pc, false, s.sm0, s.sm1⟩ (startOf w u s)
        (({ s with cuState := .fetch } : State.Of W M N).setIr w) :=
      ⟨rfl, rfl, rfl, rfl, rfl, rfl, rfl, rfl, hlow, hroom, phaseOf_execute hlow, rfl, rfl, rfl, rfl, rfl, rfl, rfl,
        rfl, rfl⟩
    rw [runInstr_dispatched w u body s hpc hw]
    exact hrest _ _ _ hstart

/-- FETCH of a Word that is no registered opcode, and the DECODE that halts (R311). -/
theorem runInstr_pseudo_halts {w : BitVec W} (body : List (Item W)) (s : State.Of W M N) (hw : dispatch w = none) :
    archEq (runInstr w body s) (Pseudo.halts w s) := by
  rw [Pseudo.halts, Pseudo.own]
  cases hpc : legalMem M s.pc with
  | false =>
    rw [runInstr_fetch_fault _ _ s hpc]
    exact ⟨rfl, rfl, rfl, rfl, rfl, rfl, rfl, rfl⟩
  | true =>
    rw [runInstr_halts w body s hpc hw]
    exact ⟨rfl, rfl, rfl, rfl, rfl, rfl, rfl, rfl⟩

/-! #### The blocks: each is the chain of the rules for its lines -/

variable {w : BitVec W} {u : MicroAddr} {op : MicroOp} {f : BitVec W → BitVec W → BitVec W}

/-- `addRegReg` and `subRegReg` (R221, R225). -/
theorem runInstr_regReg (hw : dispatch w = some u)
    (hop : ∀ m : State.Of W M N, op.effect m = .done (m.setS1 (f m.s0 m.s1))) (a b : BitVec W) (s : State.Of W M N) :
    archEq (runInstr w (opf a ++ ops [.irStExt, .selLatch, .rfRdInt, .aluLd0] ++ opf b ++
        ops [.selLatch, .rfRdInt, .aluLd1, .irRdExt, .selLatch] ++ arith op ++ ops [.rfStInt] ++ pcAdv ++
        ops [.endOp]) s)
      (Pseudo.regReg w f a b s) := by
  refine runInstr_block hw fun v p => ?_
  simp only [ops_cons, ops_nil, List.append_assoc, List.cons_append, List.nil_append]
  exact .opf <| .irStExt <| .sel fun ha => .reg <| .aluLd0 <| .opf <| .sel fun _ => .reg <| .aluLd1 <| .irRdExt <|
    .selLatch ha <| .arith hop <| .regWrite .advEnd

/-- `addMemReg` and `subMemReg` (R222, R226). -/
theorem runInstr_memReg (hw : dispatch w = some u)
    (hop : ∀ m : State.Of W M N, op.effect m = .done (m.setS1 (f m.s0 m.s1))) (a b : BitVec W) (s : State.Of W M N) :
    archEq (runInstr w (opf a ++ deref ++ ops [.irStExt, .irRdInt, .aluLd0] ++ opf b ++
        ops [.selLatch, .rfRdInt, .aluLd1] ++ arith op ++ ops [.rfStInt] ++ pcAdv ++ ops [.endOp]) s)
      (Pseudo.memReg w f a b s) := by
  refine runInstr_block hw fun v p => ?_
  simp only [ops_cons, ops_nil, List.append_assoc, List.cons_append, List.nil_append]
  exact .opf <| .deref <| .irStExt <| .irRdInt <| .aluLd0 <| .opf <| .sel fun _ => .reg <| .aluLd1 <| .arith hop <|
    .regWrite .advEnd

/-- `addRegMem` and `subRegMem`, with the re-read of the address word (R223, R227, R199). -/
theorem runInstr_regMem (hw : dispatch w = some u)
    (hop : ∀ m : State.Of W M N, op.effect m = .done (m.setS1 (f m.s0 m.s1))) (a b : BitVec W) (s : State.Of W M N) :
    archEq (runInstr w (opf a ++ ops [.selLatch, .rfRdInt, .aluLd0] ++ opf b ++ deref ++
        ops [.irStExt, .irRdInt, .aluLd1] ++ arith op ++ ops [.irStInt] ++ rdpc b ++
        ops [.memReq, .irRdExt, .memWrite] ++ pcAdv ++ ops [.endOp]) s)
      (Pseudo.regMem w f a b s) := by
  refine runInstr_block hw fun v p => ?_
  simp only [ops_cons, ops_nil, List.append_assoc, List.cons_append, List.nil_append, memWrite_eq_memCheck]
  exact .opf <| .sel fun _ => .reg <| .aluLd0 <| .opf <| .deref <| .irStExt <| .irRdInt <| .aluLd1 <| .arith hop <|
    .irStInt <| .rdpc <| .memCheck fun _ => .irRdExt <| .store rfl .advEnd

/-- `addImmReg` and `subImmReg` (R224, R228). -/
theorem runInstr_immReg (hw : dispatch w = some u)
    (hop : ∀ m : State.Of W M N, op.effect m = .done (m.setS1 (f m.s0 m.s1))) (a b : BitVec W) (s : State.Of W M N) :
    archEq (runInstr w (opf a ++ ops [.irStExt, .irRdInt, .aluLd0] ++ opf b ++
        ops [.selLatch, .rfRdInt, .aluLd1] ++ arith op ++ ops [.rfStInt] ++ pcAdv ++ ops [.endOp]) s)
      (Pseudo.immReg w f a b s) := by
  refine runInstr_block hw fun v p => ?_
  simp only [ops_cons, ops_nil, List.append_assoc, List.cons_append, List.nil_append]
  exact .opf <| .irStExt <| .irRdInt <| .aluLd0 <| .opf <| .sel fun _ => .reg <| .aluLd1 <| .arith hop <|
    .regWrite .advEnd

/-- `incReg` (R229). -/
theorem runInstr_inc (hw : dispatch (15 : BitVec W) = some u) (a : BitVec W) (s : State.Of W M N) :
    archEq (runInstr 15 (incRegProgram a) s) (Pseudo.inc a s) := by
  refine runInstr_block hw fun v p => ?_
  simp only [incRegProgram, ops_cons, ops_nil, List.append_assoc, List.cons_append, List.nil_append]
  exact .opf <| .sel fun _ => .reg <| .aluLd1 <| .arith (f := fun _ x => x + 1) effect_aluInc <| .regWrite .advEnd

/-- `moveMemReg` (R251). -/
theorem runInstr_moveMemReg (hw : dispatch (11 : BitVec W) = some u) (a b : BitVec W) (s : State.Of W M N) :
    archEq (runInstr 11 (moveMemRegProgram a b) s) (Pseudo.moveMemReg a b s) := by
  refine runInstr_block hw fun v p => ?_
  simp only [moveMemRegProgram, ops_cons, ops_nil, List.append_assoc, List.cons_append, List.nil_append]
  exact .opf <| .deref <| .irStExt <| .opf <| .sel fun _ => .irRdExt <| .regWriteExt .advEnd

/-- `moveRegMem`: the address is requested before the register is read (R252). -/
theorem runInstr_moveRegMem (hw : dispatch (12 : BitVec W) = some u) (a b : BitVec W) (s : State.Of W M N) :
    archEq (runInstr 12 (moveRegMemProgram a b) s) (Pseudo.moveRegMem a b s) := by
  refine runInstr_block hw fun v p => ?_
  simp only [moveRegMemProgram, ops_cons, ops_nil, List.append_assoc, List.cons_append, List.nil_append]
  refine .opf <| .sel fun _ => .opf <| .memCheck fun hb => .regExt ?_
  rw [Pseudo.memWrite, if_pos hb]
  exact .store rfl .advEnd

/-- `moveRegReg` (R253). -/
theorem runInstr_moveRegReg (hw : dispatch (13 : BitVec W) = some u) (a b : BitVec W) (s : State.Of W M N) :
    archEq (runInstr 13 (moveRegRegProgram a b) s) (Pseudo.moveRegReg a b s) := by
  refine runInstr_block hw fun v p => ?_
  simp only [moveRegRegProgram, ops_cons, ops_nil, List.append_assoc, List.cons_append, List.nil_append]
  exact .opf <| .sel fun _ => .reg <| .aluLd0 <| .opf <| .sel fun _ => .aluEm0 <| .regWrite .advEnd

/-- `moveImmReg` (R254). -/
theorem runInstr_moveImmReg (hw : dispatch (14 : BitVec W) = some u) (a b : BitVec W) (s : State.Of W M N) :
    archEq (runInstr 14 (moveImmRegProgram a b) s) (Pseudo.moveImmReg a b s) := by
  refine runInstr_block hw fun v p => ?_
  simp only [moveImmRegProgram, ops_cons, ops_nil, List.append_assoc, List.cons_append, List.nil_append]
  exact .opf <| .irStExt <| .opf <| .sel fun _ => .irRdExt <| .regWriteExt .advEnd

/-- `jmp` (R270). -/
theorem runInstr_jmp (hw : dispatch (16 : BitVec W) = some u) (t : BitVec W) (s : State.Of W M N) :
    archEq (runInstr 16 (jmpProgram t) s) (Pseudo.jmp t s) := by
  refine runInstr_block hw fun v p => ?_
  simp only [jmpProgram, ops_cons, ops_nil]
  exact .opf <| .pcStExt .endOp

/-- `jn` and `jz`: the flag bit picks one of the two addresses in StatusMemory (R271, R272). -/
theorem runInstr_jcc {flag : Nat} (hw : dispatch w = some u)
    (hop : ∀ m : State.Of W M N, op.effect m = .done (m.putExt (if m.flags.getLsbD flag then m.sm1 else m.sm0)))
    (t : BitVec W) (s : State.Of W M N) :
    archEq (runInstr w (opf t ++ ops [.smSt1] ++ pcAdv ++ ops [.pcRdExt, .smSt0, op, .pcStExt, .endOp]) s)
      (Pseudo.jcc w flag t s) := by
  refine runInstr_block hw fun v p => ?_
  simp only [ops_cons, ops_nil, List.append_assoc, List.cons_append, List.nil_append]
  exact .opf <| .smSt1 <| .pcAdv <| .pcRdExt <| .smSt0 <| .smSel hop <| .pcStExt .endOp

/-- Every microprogram has the architectural effect of its block (R200, R321, R322). -/
theorem runInstr_ofRow {o : Opcode} (hW : 8 ≤ W) (hu : opcodeDispatch o = some u) (a b : BitVec W)
    (s : State.Of W M N) :
    archEq (runInstr o.word (programOfRow o a b) s) (Pseudo.ofRow o a b s) := by
  have hw : dispatch (o.word : BitVec W) = some u := (dispatch_word hW o).trans hu
  cases o with
  | addRegReg => exact runInstr_regReg hw effect_aluAdd a b s
  | addMemReg => exact runInstr_memReg hw effect_aluAdd a b s
  | addRegMem => exact runInstr_regMem hw effect_aluAdd a b s
  | addImmReg => exact runInstr_immReg hw effect_aluAdd a b s
  | subRegReg => exact runInstr_regReg hw effect_aluSub a b s
  | subMemReg => exact runInstr_memReg hw effect_aluSub a b s
  | subRegMem => exact runInstr_regMem hw effect_aluSub a b s
  | subImmReg => exact runInstr_immReg hw effect_aluSub a b s
  | moveMemReg => exact runInstr_moveMemReg hw a b s
  | moveRegMem => exact runInstr_moveRegMem hw a b s
  | moveRegReg => exact runInstr_moveRegReg hw a b s
  | moveImmReg => exact runInstr_moveImmReg hw a b s
  | incReg => exact runInstr_inc hw a s
  | jmp => exact runInstr_jmp hw a s
  | jn => exact runInstr_jcc hw effect_smSelN a s
  | jz => exact runInstr_jcc hw effect_smSelZ a s
  | _ => nomatch hu

/-! #### The block that the Word at PC picks -/

/-- A registered opcode picks the block of its row (R125). -/
theorem atPc_of_opcodeOf {o : Opcode} (ho : opcodeOf s.wordAtPc = some o) (hu : opcodeDispatch o = some u) :
    Pseudo.atPc s = Pseudo.ofRow o (s.mem.read (s.pc + 1).toNat) (s.mem.read (s.pc + 2).toNat) s := by
  have hfound := List.find?_some ho
  have hcode : (s.mem.read s.pc.toNat).toNat = o.code := (eq_of_beq hfound).symm
  rw [Pseudo.atPc]
  simp only [hcode]
  cases o <;> cases hu <;> rfl

/-- Every other Word halts (R126, R127). -/
theorem atPc_of_dispatch_none (hw : dispatch s.wordAtPc = none) : Pseudo.atPc s = Pseudo.halts s.wordAtPc s := by
  rw [dispatch, opcodeOf, State.Of.wordAtPc] at hw
  rw [Pseudo.atPc]
  split
  case h_17 => rfl
  all_goals
    rename_i hcode
    rw [hcode] at hw
    nomatch hw

theorem runInstr_atPc (hW : 8 ≤ W) (s : State.Of W M N) :
    archEq (runInstr s.wordAtPc s.programAtPc s) (Pseudo.atPc s) := by
  cases hw : dispatch s.wordAtPc with
  | none =>
    rw [atPc_of_dispatch_none hw]
    exact runInstr_pseudo_halts _ s hw
  | some u =>
    obtain ⟨o, ho, hu⟩ := Option.bind_eq_some_iff.mp hw
    rw [atPc_of_opcodeOf ho hu, State.Of.programAtPc_of_opcodeOf ho, eq_word_of_opcodeOf ho]
    exact runInstr_ofRow hW hu _ _ s

/-- Settles O8: the step runs the microprogram of the row at PC, which follows the lines of the block that the Word at
PC picks. -/
theorem stepIsPseudocode : Obligations.StepIsPseudocode :=
  ⟨fun s hs => ⟨_, (step_eq_stepRow s).trans (stepRow_eq_runInstr hs), runInstr_atPc (by decide) s⟩,
    fun _ _ _ hlegal s hs => ⟨_, stepRow_eq_runInstr hs, runInstr_atPc hlegal.wordBits s⟩⟩

end Sys2Proof.Machine

/-! PROOFS. The micro-operations one by one (R154 to R184): the full next state of each. -/

namespace Sys2Proof.Machine

variable {W M N : Nat} {s : State.Of W M N}

/-! #### END and DECODE -/

/-- A row of the spec's table is the dispatch of its opcode word (R291). -/
theorem dispatch_of_mem_dispatchTable (hW : 8 ≤ W) {w : BitVec W} {u : MicroAddr}
    (h : (w.toInt, u) ∈ dispatchTable) : dispatch w = some u := by
  have hrow : ∀ r ∈ dispatchTable, ∃ o ∈ Opcode.all, r.1 = o.code ∧ opcodeDispatch o = some r.2 := by decide
  obtain ⟨o, -, hcode, hu⟩ := hrow _ h
  have hw : w = o.word := BitVec.eq_of_toInt_eq (hcode.trans (toInt_word hW o).symm)
  rw [hw, dispatch_word hW, hu]

/-- Every microprogram starts past DECODE (R291), where the phase is EXECUTE. -/
theorem phaseOf_of_mem_dispatchTable {n : Int} {u : MicroAddr} (h : (n, u) ∈ dispatchTable) : phaseOf u = .execute := by
  have hrow : ∀ r ∈ dispatchTable, phaseOf r.2 = .execute := by decide
  exact hrow _ h

theorem perform_decode_of_some {u : MicroAddr} (h : dispatch s.ir = some u) : MicroOp.decode.perform s = s.seqTo u := by
  rw [MicroOp.perform, effect_decode, decodeDispatch, h]
  rfl

theorem perform_decode_of_none (h : dispatch s.ir = none) : MicroOp.decode.perform s = s.halt := by
  rw [MicroOp.perform, effect_decode, decodeDispatch, h]
  rfl

/-- Settles O16: DECODE looks IR up in the dispatch, which is the spec's table. -/
theorem sequencerMicroOps : Obligations.SequencerMicroOps := by
  intro W M N hlegal s
  refine ⟨rfl, fun u hu => ?_, fun hir => perform_decode_of_none (dispatch_of_not_registered hlegal.wordBits hir)⟩
  rw [perform_decode_of_some (dispatch_of_mem_dispatchTable hlegal.wordBits hu), State.Of.seqTo,
    phaseOf_of_mem_dispatchTable hu]

/-! #### Transfers -/

/-- Settles O17: none of the eight checks anything. -/
theorem registerTransferMicroOps : Obligations.RegisterTransferMicroOps :=
  fun _ _ _ _ _ => ⟨rfl, rfl, rfl, rfl, rfl, rfl, rfl, rfl⟩

/-! #### Checked operations -/

/-- A check that is passed or failed decides between the effect and the fatal error. -/
theorem apply_ite_of_true {c : Bool} {t : State.Of W M N} {f : FaultCause} {x : BitVec W} (h : c = true) :
    s.apply (if c then .done t else .raise f x) = t.seqTo (t.upc + 1) := by
  rw [if_pos h, apply_done]

theorem apply_ite_of_false {c : Bool} {t : State.Of W M N} {f : FaultCause} {x : BitVec W} (h : c = false) :
    s.apply (if c then .done t else .raise f x) = s.raise f x := by
  rw [if_neg (by simp [h]), apply_raise]

theorem legalReg_of_inRange {id : BitVec W} (h0 : 0 ≤ id.toInt) (hN : id.toInt < nregOf N) : legalReg N id = true := by
  simp [legalReg, h0, hN]

theorem legalReg_of_ge {id : BitVec W} (hN : nregOf N ≤ id.toInt) : legalReg N id = false := by
  simp [legalReg, not_lt.mpr hN]

theorem legalMem_of_inRange {a : BitVec W} (h0 : 0 ≤ a.toInt) (hM : a.toInt < M) : legalMem M a = true := by
  simp [legalMem, h0, hM]

theorem legalMem_of_outOfRange {a : BitVec W} (h : a.toInt < 0 ∨ M ≤ a.toInt) : legalMem M a = false := by
  rcases h with h | h
  · simp [legalMem, not_le.mpr h]
  · simp [legalMem, not_lt.mpr h]

/-- Settles O19: the two checks of the register file (R39, R40). -/
theorem registerFileMicroOps : Obligations.RegisterFileMicroOps := by
  intro W M N _ s
  refine ⟨fun hneg => ?_, fun hnonneg => ?_, fun hbig => ?_, fun h0 hN => ?_⟩
  · rw [MicroOp.perform, effect_selLatch, if_pos hneg, apply_raise]
  · rw [MicroOp.perform, effect_selLatch, if_neg (not_lt.mpr hnonneg)]
    rfl
  · have hsel := legalReg_of_ge hbig
    exact ⟨apply_ite_of_false hsel, apply_ite_of_false hsel, apply_ite_of_false hsel, apply_ite_of_false hsel⟩
  · have hsel := legalReg_of_inRange h0 hN
    refine ⟨apply_ite_of_true hsel, (apply_ite_of_true hsel).trans ?_, apply_ite_of_true hsel,
      (apply_ite_of_true hsel).trans ?_⟩ <;> rw [State.Of.writeReg_upc]

/-- Settles O20: the bounds check of a request, and the check that one is pending (R82 to R84). -/
theorem memoryMicroOps : Obligations.MemoryMicroOps := by
  intro W M N _ s
  exact ⟨fun hout => apply_ite_of_false (legalMem_of_outOfRange hout),
    fun h0 hM => apply_ite_of_true (legalMem_of_inRange h0 hM),
    fun hreq => ⟨apply_ite_of_false hreq, apply_ite_of_false hreq⟩,
    fun hreq => ⟨apply_ite_of_true hreq, apply_ite_of_true hreq⟩⟩

/-! #### StatusMemory, the arithmetic unit and the flags -/

/-- Settles O21: the flag bit indexes the cell (R89). -/
theorem statusMemoryMicroOps : Obligations.StatusMemoryMicroOps := by
  intro W M N _ s
  refine ⟨rfl, rfl, ?_, ?_⟩
  · rw [MicroOp.perform, effect_smSelZ]
    rfl
  · rw [MicroOp.perform, effect_smSelN]
    rfl

/-- Settles O22: the Word operations wrap as the rules say (R43 to R45). -/
theorem arithmeticUnitMicroOps : Obligations.ArithmeticUnitMicroOps := by
  intro W M N hlegal s
  have hone : (1 : BitVec W).toInt = 1 := BitVec.toInt_one (by have := hlegal.wordBits; omega)
  refine ⟨rfl, rfl, rfl, rfl, ⟨_, BitVec.toInt_add _ _, rfl⟩, ⟨_, BitVec.toInt_sub, rfl⟩, ⟨s.s1 + 1, ?_, rfl⟩⟩
  rw [BitVec.toInt_add, hone]

/-- Settles O23, bit by bit (R27, R183, R184). -/
theorem flagMicroOps : Obligations.FlagMicroOps := by
  intro W M N hlegal s
  have hW := hlegal.wordBits
  have htoInt : (0 : BitVec W).toInt = 0 := BitVec.toInt_zero
  have hzero : (s.intBus == 0) = decide (s.intBus.toInt = 0) := by
    rw [Bool.eq_iff_iff, beq_iff_eq, decide_eq_true_iff, ← BitVec.toInt_inj, htoInt]
  refine ⟨⟨flagsClear s.flags, rfl, fun j hj => ?_⟩, ⟨flagsUpdate s.flags s.intBus, rfl, fun j hj => ?_⟩⟩
  · rcases j with _ | _ | j
    · exact flagsClear_zero s.flags
    · exact flagsClear_negative s.flags
    · exact flagsClear_other s.flags (by omega)
  · rcases j with _ | _ | j
    · exact (flagsUpdate_zero (by omega) _ _).trans hzero
    · exact flagsUpdate_negative (by omega) _ _
    · exact flagsUpdate_other _ _ (by omega)

/-- Settles O13: a stopped machine takes no step of any kind (R151, R323). -/
theorem stoppedStatesAreTerminal : Obligations.StoppedStatesAreTerminal := by
  have hstep {W M N : Nat} {s : State.Of W M N} (h : s.stopped = true) : stepRow s = .next s := if_pos h
  refine ⟨fun s h => (step_eq_stepRow s).trans (hstep h), fun W M N _ s n h => ⟨hstep h, microRun_of_stopped n h, ?_⟩⟩
  rw [run, microRun_of_stopped n h]

end Sys2Proof.Machine

/-! PROOFS. The shared sequences in the ROM (R190 to R196) and the phase (R150). -/

namespace Sys2Proof.Machine

variable {W M N : Nat} {s : State.Of W M N}

/-! #### Micro-operations in the ROM -/

/-- Micro-operations have no own Words to deliver. -/
theorem delivers_ops (l : List MicroOp) : Delivers (ops l) s := by
  induction l generalizing s with
  | nil => exact trivial
  | cons m l ih => exact fun _ => ⟨nofun, ih⟩

/-- Micro-operations that stand in the ROM at UPC, none of them END or DECODE, run as a list of items. -/
theorem inRom_ops {l : List MicroOp} (h : s.atCodes (l.map MicroOp.code))
    (hl : MicroOp.endOp ∉ l ∧ MicroOp.decode ∉ l) : InRom (ops l) [] s where
  codes _ := by
    rw [List.append_nil, ops, List.map_map]
    exact h
  straight it hit hflow := by
    obtain ⟨m, hm, rfl⟩ := List.mem_map.mp hit
    cases m with
    | endOp => exact hl.1 hm
    | decode => exact hl.2 hm
    | _ => nomatch hflow
  delivers := delivers_ops l

/-- PCADV of a running machine, wherever it stands (R193). -/
theorem runItems_pcAdv (hrun : s.stopped = false) :
    runItems pcAdv s = (((s.putInt (s.pc + 1)).setS1 (s.pc + 1)).setPc (s.pc + 1)).seqTo (s.upc + 5) := by
  rw [pcAdv, ops_cons, runItems_cons _ _ hrun]
  simp [runItems, BitVec.add_assoc]
  rfl

/-- The read of the cell at PC, as micro-operations (R192). -/
theorem runItems_readPc (hrun : s.stopped = false) (hpc : legalMem M s.pc = true) :
    runItems (ops [.pcRdExt, .memReq, .memRead]) s =
      (((s.latchMar s.pc).consumeMar).putExt (s.mem.read s.pc.toNat)).seqTo (s.upc + 3) := by
  rw [ops_cons, runItems_cons _ _ hrun]
  simp [runItems, effect_memReq, effect_memRead, hpc, BitVec.add_assoc]
  rfl

/-- A request at a PC outside Memory raises, whatever comes after it (R314). -/
theorem runItems_readPc_fault (l : List MicroOp) (hrun : s.stopped = false) (hpc : legalMem M s.pc = false) :
    runItems (ops (.pcRdExt :: .memReq :: l)) s = ((s.putExt s.pc).seqTo (s.upc + 1)).raise .outOfBoundsMem s.pc := by
  rw [ops_cons, runItems_cons _ _ hrun]
  simpa [runItems, effect_memReq, hpc] using runItems_stopped (ops l) (State.Of.raise_stopped _ _ _)

/-- DEREF of a legal address by a running machine, wherever it stands (R195). -/
theorem runItems_deref (hrun : s.stopped = false) (ha : legalMem M s.extBus = true) :
    runItems deref s =
      (((s.latchMar s.extBus).consumeMar).putExt (s.mem.read s.extBus.toNat)).seqTo (s.upc + 2) := by
  rw [deref, ops_cons, runItems_cons _ _ hrun]
  simp [runItems, effect_memReq, effect_memRead, ha, BitVec.add_assoc]

/-- ARITH of a running machine, wherever it stands (R196). -/
theorem runItems_arith {op : MicroOp} {f : BitVec W → BitVec W → BitVec W} (hrun : s.stopped = false)
    (hop : ∀ m : State.Of W M N, op.effect m = .done (m.setS1 (f m.s0 m.s1))) :
    runItems (arith op) s = (((s.setS1 (f s.s0 s.s1)).putInt (f s.s0 s.s1)).setFlags
      (flagsUpdate s.flags (f s.s0 s.s1))).seqTo (s.upc + 4) := by
  rw [arith, ops_cons, runItems_cons _ _ hrun]
  simp [runItems, hop, BitVec.add_assoc]
  rfl

/-- Settles O24: the first four control words of the ROM (R190). -/
theorem fetchSequence : Obligations.FetchSequence := by
  intro W M N _ s hs
  obtain ⟨hupc, hcu⟩ := id hs
  refine ⟨fun hpc => microRun_fetch hs hpc, fun hpc => ?_⟩
  have hrun : s.stopped = false := by rw [State.Of.stopped, hcu]; rfl
  have hrom : InRom (ops [.pcRdExt, .memReq]) [] s := inRom_ops ⟨hrun, by rw [hupc]; rfl⟩ (by decide)
  have hrequest : microRun 2 s = runItems (ops [.pcRdExt, .memReq]) s := hrom.microRun_eq
  rw [hrequest, runItems_readPc_fault [] hrun hpc, hupc]
  rfl

/-- The control words of ARITH run as ARITH (R196). -/
theorem microRun_arith {op : MicroOp} {f : BitVec W → BitVec W → BitVec W} (h : s.atCodes [29, op.code, 25, 30])
    (hne : op ≠ .endOp ∧ op ≠ .decode)
    (hop : ∀ m : State.Of W M N, op.effect m = .done (m.setS1 (f m.s0 m.s1))) :
    microRun 4 s = (((s.setS1 (f s.s0 s.s1)).putInt (f s.s0 s.s1)).setFlags
      (flagsUpdate s.flags (f s.s0 s.s1))).seqTo (s.upc + 4) := by
  have hrom : InRom (arith op) [] s := inRom_ops (l := [.flgClr, op, .aluEm1, .flgUpd]) h
    ⟨by simpa using hne.1.symm, by simpa using hne.2.symm⟩
  exact hrom.microRun_eq.trans (runItems_arith h.1 hop)

/-- Settles O25: each sequence stands in the ROM as its micro-operations. -/
theorem sharedSequencesInRom : Obligations.SharedSequencesInRom := by
  intro W M N _ s
  have hread (h : s.atCodes [2, 15, 16]) : microRun 3 s = runItems (ops [.pcRdExt, .memReq, .memRead]) s :=
    (inRom_ops (l := [.pcRdExt, .memReq, .memRead]) h (by decide)).microRun_eq
  have hderef (h : s.atCodes [15, 16]) : microRun 2 s = runItems deref s :=
    (inRom_ops (l := [.memReq, .memRead]) h (by decide)).microRun_eq
  refine ⟨fun h => ?_, fun h hpc => (hread h).trans (runItems_readPc h.1 hpc),
    fun h hpc => (hread h).trans (runItems_readPc_fault _ h.1 hpc),
    fun h ha => (hderef h).trans (runItems_deref h.1 ha), fun h ha => (hderef h).trans (run_deref_fault h.1 ha), ?_⟩
  · have hrom : InRom pcAdv [] s := inRom_ops (l := [.pcRdInt, .aluLd1, .aluInc, .aluEm1, .pcStInt]) h (by decide)
    exact hrom.microRun_eq.trans (runItems_pcAdv h.1)
  · rintro op res (⟨rfl, rfl⟩ | ⟨rfl, rfl⟩ | ⟨rfl, rfl⟩) h
    · exact microRun_arith (op := .aluAdd) h (by decide) effect_aluAdd
    · exact microRun_arith (op := .aluSub) h (by decide) effect_aluSub
    · exact microRun_arith (op := .aluInc) (f := fun _ x => x + 1) h (by decide) effect_aluInc

/-! #### The phase -/

theorem phased_seqTo (s : State.Of W M N) (u : MicroAddr) : (s.seqTo u).phased := by
  by_cases hfetch : u.toNat < 4
  · exact .inr (.inr (.inl ⟨Nat.le_of_lt_succ hfetch, if_pos hfetch⟩))
  · by_cases hdecode : u.toNat = 4
    · exact .inr (.inr (.inr (.inl ⟨hdecode, by simp [phaseOf, hdecode]⟩)))
    · have hlow : 5 ≤ u.toNat := by omega
      exact .inr (.inr (.inr (.inr ⟨hlow, phaseOf_execute hlow⟩)))

/-- Whatever an item answers, the phase follows UPC (R150). -/
theorem phased_apply (it : Item W) (s : State.Of W M N) : (s.apply (it.effect s)).phased := by
  have ha := it.answers s
  generalize it.effect s = e at ha ⊢
  cases ha with
  | done _ => exact phased_seqTo _ _
  | goto _ u => exact phased_seqTo s u
  | halt => exact .inl rfl
  | raise _ c x => exact .inr (.inl rfl)

theorem code_of_microOpOf {c : ControlWord} {m : MicroOp} (h : microOpOf c = some m) : m.code = c := by
  have hall : ∀ c : ControlWord, ∀ m ∈ microOpOf c, m.code = c := by decide
  exact hall c m h

/-- What a running machine does (R151): it raises InvalidMicroOp, or it takes the micro-operation at UPC. -/
theorem microStep_cases (hrun : s.stopped = false) :
    (∃ x, microStep s = s.raise .invalidMicroOp x) ∨
      ∃ m : MicroOp, romWord s.upc = some m.code ∧ microStep s = m.perform s := by
  rw [microStep, hrun, if_neg Bool.false_ne_true]
  cases hrom : romWord s.upc with
  | none => exact .inl ⟨_, rfl⟩
  | some c =>
    cases hm : microOpOf c with
    | none => exact .inl ⟨_, by simp only [hm]; rfl⟩
    | some m => exact .inr ⟨m, congrArg some (code_of_microOpOf hm).symm, by simp only [hm]⟩

/-- DECODE stands in the ROM at address 4 alone (R292). -/
theorem upc_of_romWord_decode {u : MicroAddr} (h : romWord u = some MicroOp.decode.code) : u = 4 := by
  have honly : ∀ i < 473, rom[i]? = some MicroOp.decode.code → i = 4 := by decide +kernel
  obtain ⟨hlt, -⟩ := List.getElem?_eq_some_iff.mp h
  exact BitVec.eq_of_toNat_eq (honly u.toNat (rom_length ▸ hlt) h)

/-- Settles O26: every answer of a micro-operation sets the phase with UPC, and only DECODE halts. -/
theorem phaseFollowsUpc : Obligations.PhaseFollowsUpc := by
  intro W M N _ s hs
  cases hrun : s.stopped with
  | true =>
    rw [microStep_of_stopped hrun]
    exact ⟨hs, nofun⟩
  | false =>
    rcases microStep_cases hrun with ⟨x, hstep⟩ | ⟨m, hrom, hstep⟩
    · rw [hstep]
      exact ⟨.inr (.inl rfl), fun _ hhalt => nomatch hhalt⟩
    · rw [hstep]
      refine ⟨phased_apply (.op m) s, fun _ hhalt => ?_⟩
      by_cases hm : m = .decode
      · exact upc_of_romWord_decode (hm ▸ hrom)
      · exact absurd hhalt (apply_ne_halt (it := .op m) (by simpa using hm) s)

end Sys2Proof.Machine

/-! PROOFS. The instruction at PC (R200, R120) and where the harness places one (log 11). -/

namespace Sys2Proof.Machine

variable {W M N : Nat} {s : State.Of W M N}

/-! #### The Words from PC on -/

theorem codeWords_getElem (s : State.Of W M N) {k : Nat} (hk : k < s.codeWords.length) :
    s.codeWords[k] = s.mem.read (s.pc + BitVec.ofNat W k).toNat := by
  match k, hk with
  | 0, _ => exact congrArg (s.mem.read ·.toNat) (BitVec.add_zero s.pc).symm
  | 1, _ => rfl
  | 2, _ => rfl

/-- Up to three Words that stand in Memory from PC on are the first ones that the step decodes (R120). -/
theorem codeWords_of_holdsWords {ws : List (BitVec W)} (h : s.holdsWords ws) (hlen : ws.length ≤ 3) :
    s.codeWords = ws ++ s.codeWords.drop ws.length := by
  have htake : s.codeWords.take ws.length = ws := by
    refine List.ext_getElem (List.length_take_of_le hlen) fun k _ hk => ?_
    rw [List.getElem_take, codeWords_getElem]
    exact (h k hk).2
  conv_lhs => rw [← List.take_append_drop ws.length s.codeWords, htake]

/-- An instruction has at most three Words (R121). -/
theorem length_encode_le (i : Instr) : (encode i).length ≤ 3 := by
  rw [encode_eq_encodeWords, encodeWords]
  cases i.opcode.format <;> simp

theorem decode_codeWords {i : Instr} {s : State} (h : s.holdsInstr i) :
    ∃ rest, decode s.codeWords = .ok (i, rest) := by
  rw [codeWords_of_holdsWords h (length_encode_le i)]
  exact ⟨_, decode_encode i _⟩

/-- At a boundary the step is the instruction that the decoder reads at PC. -/
theorem step_of_decode {i : Instr} {s : State} {rest : List Word} (hs : s.ready)
    (h : decode s.codeWords = .ok (i, rest)) : step s = exec i s := by
  rw [step_eq_stepRow, stepRow_of_ready hs, ← runAtPc_eq_runRowAtPc, runAtPc, h]

/-- Settles O5: the Words at PC decode to the instruction. -/
theorem stepRunsDecodedInstruction : Obligations.StepRunsDecodedInstruction := by
  intro i s hs h
  obtain ⟨rest, hdecode⟩ := decode_codeWords h
  exact step_of_decode hs hdecode

/-! #### Placed Words -/

/-- Words placed at consecutive addresses leave the cells below alone. -/
theorem read_placeWords_below {ws : List (BitVec W)} {m : Memory W} {a x : Nat} (hx : x < a) :
    (placeWords m a ws).read x = m.read x := by
  induction ws generalizing m a with
  | nil => rfl
  | cons w ws ih => rw [placeWords, ih (by omega), Memory.read_write_other m w (by omega)]

/-- Placed Words read back (R95, R98). -/
theorem read_placeWords {ws : List (BitVec W)} {m : Memory W} {a k : Nat} (hm : m.wf M) (ha : a + ws.length ≤ M)
    (hk : k < ws.length) : (placeWords m a ws).read (a + k) = ws[k] := by
  induction ws generalizing m a k with
  | nil => nomatch hk
  | cons w ws ih =>
    rw [List.length_cons] at ha hk
    cases k with
    | zero => exact (read_placeWords_below (Nat.lt_succ_self a)).trans (Memory.read_write_same m a w hm)
    | succ k =>
      have hwf : (m.write a w).wf M := Memory.wf_write w hm (by omega)
      have hnext := ih hwf (a := a + 1) (by omega) (Nat.lt_of_succ_lt_succ hk)
      rw [placeWords, ← Nat.add_assoc, Nat.add_right_comm, hnext]
      rfl

/-- The Words that the harness places are the ones that the next step decodes (log 11). -/
theorem codeWords_withFetchWord {s : State} (hs : s.mem.wf Config.memSize) (nbits w : Nat) :
    (s.withFetchWord nbits w).codeWords = tableWords nbits w := by
  have hplace := placeAddr_le s
  rw [Config.memSize_eq] at hplace
  refine List.ext_getElem rfl fun k hk hk' => ?_
  have hlt : k < 3 := hk'
  have haddr : (placeAddr s + BitVec.ofNat 32 k).toNat = (placeAddr s).toNat + k := by
    rw [BitVec.toNat_add, BitVec.toNat_ofNat]
    omega
  rw [codeWords_getElem]
  exact (congrArg _ haddr).trans (read_placeWords hs (placeAddr_le s) hk')

theorem decode_of_decodeTableWord {nbits w : Nat} {i : Instr} (h : decodeTableWord nbits w = some i) :
    ∃ rest, decode (tableWords nbits w) = .ok (i, rest) := by
  rw [decodeTableWord] at h
  cases hd : decode (tableWords nbits w) with
  | error e => rw [hd] at h; nomatch h
  | ok d =>
    rw [hd] at h
    obtain rfl := Option.some.inj h
    exact ⟨d.2, rfl⟩

/-- Settles O6: the placed Words are read back at PC. -/
theorem fetchWordRunsNext : Obligations.FetchWordRunsNext := by
  intro s nbits w i hs hi
  obtain ⟨rest, hdecode⟩ := decode_of_decodeTableWord hi
  exact step_of_decode ⟨rfl, rfl⟩ ((congrArg decode (codeWords_withFetchWord hs nbits w)).trans hdecode)

end Sys2Proof.Machine

/-! PROOFS. The clocked block (R202, R346): which input rules an edge, and when the host may write. -/

namespace Sys2Proof.Machine

variable {W M N : Nat} {b : Block W M N}

theorem hostMayWrite_iff (run : Bool) (b : Block W M N) :
    b.hostMayWrite run = true ↔ run = false ∧ b.started = false ∧ b.core.upc = 0 := by
  simp [Block.hostMayWrite, State.Of.atBoundary, and_assoc]

/-- While the host may not write, a preset is ignored (R346). -/
theorem presetAtPort_of_not_hostMayWrite {run : Bool} (h : run = true ∨ b.started = true ∨ b.core.upc ≠ 0) (k : Nat)
    (v : BitVec W) : presetAtPort run k v b = b := by
  refine if_neg fun hmay => ?_
  obtain ⟨hrun, hstarted, hupc⟩ := (hostMayWrite_iff run b).mp hmay
  simp_all

/-- A preset at an index of the file writes that register (R343). -/
theorem presetAtPort_of_lt {run : Bool} {k : Nat} (hmay : b.hostMayWrite run = true) (hk : k < nregOf N)
    (v : BitVec W) : presetAtPort run k v b = { b with core := b.core.writeFile k v } := by
  rw [presetAtPort, if_pos hmay, presetReg, if_pos hk]

/-- A preset at an index outside the file does nothing (log 19). -/
theorem presetAtPort_of_ge {k : Nat} (run : Bool) (hk : nregOf N ≤ k) (v : BitVec W) : presetAtPort run k v b = b := by
  rw [presetAtPort, presetReg, if_neg (Nat.not_lt.mpr hk), ite_self]

theorem loadAtEdge_of_inRange {a : Int} (h0 : 0 ≤ a) (hM : a < M) (v : BitVec W) :
    loadAtEdge a v b = { b with core := b.core.setMem (b.core.mem.write a.toNat v) } := by
  rw [loadAtEdge, loadWord_of_inRange h0 hM]

/-- An edge with `rst` and `run` 0 honours a load only when the host may write (R346). -/
theorem clockEdge_of_idle {i : Inputs W} (hrst : i.rst = false) (hrun : i.run = false) :
    clockEdge i b = if i.loadEn && b.hostMayWrite i.run then loadAtEdge i.loadAddr i.loadData b else b := by
  rw [clockEdge, hrst, hrun]
  rfl

/-- Settles O58: the inputs decide, and the host may write only before a run at a boundary. -/
theorem clockEdgeInputs : Obligations.ClockEdgeInputs := by
  intro W M N _ i b
  refine ⟨fun hrst => ⟨fun hrun => ?run, fun hrun hen hstarted hupc h0 hM => ?load, fun hrun hout => ?ignored⟩,
    fun run v => ⟨fun hrun hstarted hupc => ?preset, fun k hout => ?noPreset⟩⟩
  case run => rw [clockEdge, hrst, hrun]; rfl
  case load =>
    have hmay := (hostMayWrite_iff i.run b).mpr ⟨hrun, hstarted, hupc⟩
    rw [clockEdge_of_idle hrst hrun, hen, hmay]
    exact loadAtEdge_of_inRange h0 hM i.loadData
  case ignored =>
    rw [clockEdge_of_idle hrst hrun]
    split
    · rename_i hload
      obtain ⟨hen, hmay⟩ := Bool.and_eq_true_iff.mp hload
      obtain ⟨-, hstarted, hupc⟩ := (hostMayWrite_iff i.run b).mp hmay
      have hrange : i.loadAddr < 0 ∨ M ≤ i.loadAddr := by simpa [hen, hstarted, hupc] using hout
      exact loadAtEdge_of_error (loadWord_of_outOfRange hrange i.loadData b.core)
    · rfl
  case preset =>
    have hmay := (hostMayWrite_iff run b).mpr ⟨hrun, hstarted, hupc⟩
    have hwrite {k : Nat} (hk : k < nregOf N) := presetAtPort_of_lt hmay hk v
    refine ⟨fun k => ?_, ?_, ?_, ?_⟩
    · rw [hwrite (Nat.lt_add_right 3 k.isLt), State.Of.writeFile_gpr]; rfl
    · rw [hwrite (Nat.lt_add_of_pos_right (by decide))]
      exact congrArg (Block.mk · b.started) (b.core.writeFile_idxPC v)
    · rw [hwrite (Nat.add_lt_add_left (by decide) N)]
      exact congrArg (Block.mk · b.started) (b.core.writeFile_idxIR v)
    · rw [hwrite (Nat.add_lt_add_left (by decide) N)]
      exact congrArg (Block.mk · b.started) (b.core.writeFile_idxFLAGS v)
  case noPreset =>
    rcases hout with hrun | hstarted | hupc | hk
    · exact presetAtPort_of_not_hostMayWrite (.inl hrun) k v
    · exact presetAtPort_of_not_hostMayWrite (.inr (.inl hstarted)) k v
    · exact presetAtPort_of_not_hostMayWrite (.inr (.inr hupc)) k v
    · exact presetAtPort_of_ge run hk v

end Sys2Proof.Machine

/-! PROOFS. The full next state of an instruction whose checks all pass (R221 to R229): what each item does to the
state that a program sees and to the hidden elements, whatever UPC is; a microprogram is the chain of these rules. -/

namespace Sys2Proof.Machine

variable {W M N : Nat} {v : Hidden W} {p s t : State.Of W M N} {l : List (Item W)}

/-! #### A running machine by what a program sees and by its hidden elements -/

/-- The state `p` with the hidden elements `v` (R51). -/
def State.Of.carrying (p : State.Of W M N) (v : Hidden W) : State.Of W M N :=
  { p with
    extBus := v.ext
    intBus := v.int
    s0 := v.s0
    s1 := v.s1
    sel := v.sel
    mar := v.mar
    marValid := v.req
    sm0 := v.sm0
    sm1 := v.sm1 }

/-- From `p` with the hidden elements `v`, wherever UPC stands, the items `l` end in the state `t`. -/
def EndsIn (v : Hidden W) (p : State.Of W M N) (l : List (Item W)) (t : State.Of W M N) : Prop :=
  ∀ u, runItems l ((p.carrying v).seqTo u) = t

/-- The state in which a microprogram starts: IR and EXT hold the opcode word, MAR the address of it (R190). -/
theorem startOf_eq_carrying (w : BitVec W) (u : MicroAddr) (s : State.Of W M N) :
    startOf w u s =
      ((s.setIr w).carrying ⟨w, s.intBus, s.s0, s.s1, s.sel, s.pc, false, s.sm0, s.sm1⟩).seqTo u := rfl

theorem State.Of.carrying_writeReg (p : State.Of W M N) (v : Hidden W) (d x : BitVec W) :
    (p.carrying v).writeReg d x = (p.writeReg d x).carrying v := by
  unfold State.Of.writeReg State.Of.writeFile
  repeat' split
  all_goals rfl

/-! #### One item -/

/-- An item that is done, wherever UPC stands. -/
theorem EndsIn.cons {it : Item W} {v' : Hidden W} {q : State.Of W M N} (hrest : EndsIn v' q l t)
    (hdone : ∀ u, it.effect ((p.carrying v).seqTo u) = .done ((q.carrying v').seqTo u)) :
    EndsIn v p (it :: l) t := by
  intro u
  rw [runItems_cons _ _ (State.Of.seqTo_stopped _ _), hdone u]
  exact hrest _

theorem EndsIn.irStExt (hrest : EndsIn v (p.setIr v.ext) l t) : EndsIn v p (.op .irStExt :: l) t :=
  hrest.cons fun _ => rfl

theorem EndsIn.irStInt (hrest : EndsIn v (p.setIr v.int) l t) : EndsIn v p (.op .irStInt :: l) t :=
  hrest.cons fun _ => rfl

theorem EndsIn.irRdExt (hrest : EndsIn { v with ext := p.ir } p l t) : EndsIn v p (.op .irRdExt :: l) t :=
  hrest.cons fun _ => rfl

theorem EndsIn.irRdInt (hrest : EndsIn { v with int := p.ir } p l t) : EndsIn v p (.op .irRdInt :: l) t :=
  hrest.cons fun _ => rfl

theorem EndsIn.aluLd0 (hrest : EndsIn { v with s0 := v.int } p l t) : EndsIn v p (.op .aluLd0 :: l) t :=
  hrest.cons fun _ => rfl

theorem EndsIn.aluLd1 (hrest : EndsIn { v with s1 := v.int } p l t) : EndsIn v p (.op .aluLd1 :: l) t :=
  hrest.cons fun _ => rfl

/-- SEL_LATCH of a legal register ID (R168). -/
theorem EndsIn.selLatch (hext : legalReg N v.ext = true) (hrest : EndsIn { v with sel := v.ext } p l t) :
    EndsIn v p (.op .selLatch :: l) t :=
  hrest.cons fun _ => if_neg (not_neg_of_legalReg hext)

/-- The read of the register in SEL, on the internal port (R166). -/
theorem EndsIn.rfRdInt (hsel : legalReg N v.sel = true) (hrest : EndsIn { v with int := p.readReg v.sel } p l t) :
    EndsIn v p (.op .rfRdInt :: l) t :=
  hrest.cons fun _ => if_pos hsel

/-- The store into the register in SEL, from INT (R167). -/
theorem EndsIn.rfStInt (hsel : legalReg N v.sel = true) (hrest : EndsIn v (p.writeReg v.sel v.int) l t) :
    EndsIn v p (.op .rfStInt :: l) t := by
  refine hrest.cons fun u => (if_pos hsel).trans ?_
  rw [State.Of.seqTo_writeReg, State.Of.carrying_writeReg]
  rfl

/-- MEM_REQ of a legal address (R169). -/
theorem EndsIn.memReq (hext : legalMem M v.ext = true) (hrest : EndsIn { v with mar := v.ext, req := true } p l t) :
    EndsIn v p (.op .memReq :: l) t :=
  hrest.cons fun _ => if_pos hext

/-- MEM_WRITE of a pending request (R171). -/
theorem EndsIn.memWrite (hreq : v.req = true)
    (hrest : EndsIn { v with req := false } (p.setMem (p.mem.write v.mar.toNat v.ext)) l t) :
    EndsIn v p (.op .memWrite :: l) t :=
  hrest.cons fun _ => if_pos hreq

/-! #### The shared sequences -/

/-- PCADV (R193). -/
theorem EndsIn.pcAdv (hrest : EndsIn { v with int := p.pc + 1, s1 := p.pc + 1 } (p.setPc (p.pc + 1)) l t) :
    EndsIn v p (pcAdv ++ l) t := by
  intro u
  rw [runItems_append, runItems_pcAdv (State.Of.seqTo_stopped _ _)]
  exact hrest _

/-- RDPC of a Word that lies in Memory (R192). -/
theorem EndsIn.rdpc {w : BitVec W} (hpc : legalMem M p.pc = true)
    (hrest : EndsIn { v with ext := w, mar := p.pc, req := false } p l t) : EndsIn v p (rdpc w ++ l) t :=
  have hword : EndsIn { v with ext := p.pc, mar := p.pc, req := true } p (.word w :: l) t := hrest.cons fun _ => rfl
  have hreq : EndsIn { v with ext := p.pc } p (.op .memReq :: .word w :: l) t := hword.memReq hpc
  hreq.cons fun _ => rfl

/-- OPF of an operand Word that lies in Memory (R194). -/
theorem EndsIn.opf {w : BitVec W} (hpc : legalMem M (p.pc + 1) = true)
    (hrest : EndsIn { v with ext := w, int := p.pc + 1, s1 := p.pc + 1, mar := p.pc + 1, req := false }
      (p.setPc (p.pc + 1)) l t) : EndsIn v p (opf w ++ l) t := by
  rw [Machine.opf, List.append_assoc]
  exact .pcAdv (.rdpc hpc hrest)

/-- DEREF of a legal address on EXT (R195). -/
theorem EndsIn.deref (hext : legalMem M v.ext = true)
    (hrest : EndsIn { v with ext := p.mem.read v.ext.toNat, mar := v.ext, req := false } p l t) :
    EndsIn v p (deref ++ l) t := by
  have hread : EndsIn { v with mar := v.ext, req := true } p (.op .memRead :: l) t := hrest.cons fun _ => rfl
  exact hread.memReq hext

/-- ARITH: the result is on INT, and the flags tell of it (R196). -/
theorem EndsIn.arith {op : MicroOp} {f : BitVec W → BitVec W → BitVec W}
    (hop : ∀ m : State.Of W M N, op.effect m = .done (m.setS1 (f m.s0 m.s1)))
    (hrest : EndsIn { v with int := f v.s0 v.s1, s1 := f v.s0 v.s1 }
      (p.setFlags (flagsUpdate p.flags (f v.s0 v.s1))) l t) : EndsIn v p (arith op ++ l) t := by
  intro u
  rw [runItems_append, runItems_arith (State.Of.seqTo_stopped _ _) hop]
  exact hrest _

/-- PCADV and END, after the commit (R197 b). -/
theorem EndsIn.advEnd (hreq : v.req = false) (hsm0 : v.sm0 = p.sm0) (hsm1 : v.sm1 = p.sm1) :
    EndsIn v p (Machine.pcAdv ++ [.op .endOp]) (p.ended v.ext v.s0 v.sel v.mar) := by
  refine .pcAdv fun u => ?_
  rw [runItems_cons _ _ (State.Of.seqTo_stopped _ _), State.Of.ended, ← hreq, ← hsm0, ← hsm1]
  rfl

/-- The store of a result on INT into the register in SEL, PCADV and END. -/
theorem EndsIn.storeEnd (hsel : legalReg N v.sel = true) (hreq : v.req = false) (hsm0 : v.sm0 = p.sm0)
    (hsm1 : v.sm1 = p.sm1) :
    EndsIn v p (.op .rfStInt :: (Machine.pcAdv ++ [.op .endOp]))
      ((p.writeReg v.sel v.int).ended v.ext v.s0 v.sel v.mar) :=
  .rfStInt hsel <| .advEnd hreq (hsm0.trans (p.writeReg_sm0 _ _).symm) (hsm1.trans (p.writeReg_sm1 _ _).symm)

/-! #### The microprograms of the arithmetic instructions on legal operands -/

variable {w a b : BitVec W} {u : MicroAddr} {op : MicroOp} {f : BitVec W → BitVec W → BitVec W}

/-- FETCH and DECODE of a registered opcode lead into its microprogram (R190, R155). -/
theorem runInstr_endsIn {body : List (Item W)} (hw : dispatch w = some u) (hpc : legalMem M s.pc = true)
    (hbody : EndsIn ⟨w, s.intBus, s.s0, s.s1, s.sel, s.pc, false, s.sm0, s.sm1⟩ (s.setIr w) body t) :
    runInstr w body s = t := by
  rw [runInstr_dispatched w u body s hpc hw, startOf_eq_carrying]
  exact hbody u

/-- The three Words of an instruction that fits, each one after the other. -/
theorem State.Of.fits3.words (h : s.fits3) :
    legalMem M s.pc = true ∧ legalMem M (s.pc + 1) = true ∧ legalMem M (s.pc + 1 + 1) = true := by
  rw [add_one_add_one]
  exact h

/-- `addRegReg` and `subRegReg` (R221, R225). -/
theorem runInstr_regReg_of_legal (hw : dispatch w = some u)
    (hop : ∀ m : State.Of W M N, op.effect m = .done (m.setS1 (f m.s0 m.s1))) (hfits : s.fits3)
    (ha : legalReg N a = true) (hb : legalReg N b = true) :
    let v1 := ({ s with pc := s.pc + 1, ir := a } : State.Of W M N).readReg a
    let v2 := ({ s with pc := s.pc + 2, ir := a } : State.Of W M N).readReg b
    let res := f v1 v2
    runInstr w (opf a ++ ops [.irStExt, .selLatch, .rfRdInt, .aluLd0] ++ opf b ++
        ops [.selLatch, .rfRdInt, .aluLd1, .irRdExt, .selLatch] ++ arith op ++ ops [.rfStInt] ++ pcAdv ++
        ops [.endOp]) s =
      (({ s with pc := s.pc + 2, ir := a, flags := flagsUpdate s.flags res } : State.Of W M N).writeReg a res).ended
        (ext := a) (s0 := v1) (sel := a) (mar := s.pc + 2) := by
  obtain ⟨hpc, hpc1, hpc2⟩ := hfits.words
  refine runInstr_endsIn hw hpc ?_
  simp only [ops_cons, ops_nil, List.append_assoc, List.cons_append, List.nil_append, ← add_one_add_one]
  exact .opf hpc1 <| .irStExt <| .selLatch ha <| .rfRdInt ha <| .aluLd0 <| .opf hpc2 <| .selLatch hb <| .rfRdInt hb <|
    .aluLd1 <| .irRdExt <| .selLatch ha <| .arith hop <| .storeEnd ha rfl rfl rfl

/-- `addMemReg` and `subMemReg` (R222, R226). -/
theorem runInstr_memReg_of_legal (hw : dispatch w = some u)
    (hop : ∀ m : State.Of W M N, op.effect m = .done (m.setS1 (f m.s0 m.s1))) (hfits : s.fits3)
    (ha : legalMem M a = true) (hb : legalReg N b = true) :
    let x := s.mem.read a.toNat
    let res := f x (({ s with pc := s.pc + 2, ir := x } : State.Of W M N).readReg b)
    runInstr w (opf a ++ deref ++ ops [.irStExt, .irRdInt, .aluLd0] ++ opf b ++
        ops [.selLatch, .rfRdInt, .aluLd1] ++ arith op ++ ops [.rfStInt] ++ pcAdv ++ ops [.endOp]) s =
      (({ s with pc := s.pc + 2, ir := x, flags := flagsUpdate s.flags res } : State.Of W M N).writeReg b res).ended
        (ext := b) (s0 := x) (sel := b) (mar := s.pc + 2) := by
  obtain ⟨hpc, hpc1, hpc2⟩ := hfits.words
  refine runInstr_endsIn hw hpc ?_
  simp only [ops_cons, ops_nil, List.append_assoc, List.cons_append, List.nil_append, ← add_one_add_one]
  exact .opf hpc1 <| .deref ha <| .irStExt <| .irRdInt <| .aluLd0 <| .opf hpc2 <| .selLatch hb <| .rfRdInt hb <|
    .aluLd1 <| .arith hop <| .storeEnd hb rfl rfl rfl

/-- `addRegMem` and `subRegMem`, with the re-read of the address word (R223, R227, R199). -/
theorem runInstr_regMem_of_legal (hw : dispatch w = some u)
    (hop : ∀ m : State.Of W M N, op.effect m = .done (m.setS1 (f m.s0 m.s1))) (hfits : s.fits3)
    (ha : legalReg N a = true) (hb : legalMem M b = true) :
    let x := ({ s with pc := s.pc + 1, ir := w } : State.Of W M N).readReg a
    let res := f x (s.mem.read b.toNat)
    runInstr w (opf a ++ ops [.selLatch, .rfRdInt, .aluLd0] ++ opf b ++ deref ++
        ops [.irStExt, .irRdInt, .aluLd1] ++ arith op ++ ops [.irStInt] ++ rdpc b ++
        ops [.memReq, .irRdExt, .memWrite] ++ pcAdv ++ ops [.endOp]) s =
      ({ s with
        pc := s.pc + 2, ir := res, flags := flagsUpdate s.flags res, mem := s.mem.write b.toNat res
        } : State.Of W M N).ended (ext := res) (s0 := x) (sel := a) (mar := b) := by
  obtain ⟨hpc, hpc1, hpc2⟩ := hfits.words
  refine runInstr_endsIn hw hpc ?_
  simp only [ops_cons, ops_nil, List.append_assoc, List.cons_append, List.nil_append, ← add_one_add_one]
  exact .opf hpc1 <| .selLatch ha <| .rfRdInt ha <| .aluLd0 <| .opf hpc2 <| .deref hb <| .irStExt <| .irRdInt <|
    .aluLd1 <| .arith hop <| .irStInt <| .rdpc hpc2 <| .memReq hb <| .irRdExt <| .memWrite rfl <| .advEnd rfl rfl rfl

/-- `addImmReg` and `subImmReg` (R224, R228). -/
theorem runInstr_immReg_of_legal (hw : dispatch w = some u)
    (hop : ∀ m : State.Of W M N, op.effect m = .done (m.setS1 (f m.s0 m.s1))) (hfits : s.fits3)
    (hb : legalReg N b = true) :
    let res := f a (({ s with pc := s.pc + 2, ir := a } : State.Of W M N).readReg b)
    runInstr w (opf a ++ ops [.irStExt, .irRdInt, .aluLd0] ++ opf b ++
        ops [.selLatch, .rfRdInt, .aluLd1] ++ arith op ++ ops [.rfStInt] ++ pcAdv ++ ops [.endOp]) s =
      (({ s with pc := s.pc + 2, ir := a, flags := flagsUpdate s.flags res } : State.Of W M N).writeReg b res).ended
        (ext := b) (s0 := a) (sel := b) (mar := s.pc + 2) := by
  obtain ⟨hpc, hpc1, hpc2⟩ := hfits.words
  refine runInstr_endsIn hw hpc ?_
  simp only [ops_cons, ops_nil, List.append_assoc, List.cons_append, List.nil_append, ← add_one_add_one]
  exact .opf hpc1 <| .irStExt <| .irRdInt <| .aluLd0 <| .opf hpc2 <| .selLatch hb <| .rfRdInt hb <| .aluLd1 <|
    .arith hop <| .storeEnd hb rfl rfl rfl

/-- `incReg` (R229): S0 is not touched. -/
theorem runInstr_inc_of_legal (hw : dispatch w = some u) (hfits : s.fits2) (ha : legalReg N a = true) :
    let res := ({ s with pc := s.pc + 1, ir := w } : State.Of W M N).readReg a + 1
    runInstr w (incRegProgram a) s =
      (({ s with pc := s.pc + 1, ir := w, flags := flagsUpdate s.flags res } : State.Of W M N).writeReg a res).ended
        (ext := a) (s0 := s.s0) (sel := a) (mar := s.pc + 1) := by
  obtain ⟨hpc, hpc1⟩ := hfits
  refine runInstr_endsIn hw hpc ?_
  simp only [incRegProgram, ops_cons, ops_nil, List.append_assoc, List.cons_append, List.nil_append]
  exact .opf hpc1 <| .selLatch ha <| .rfRdInt ha <| .aluLd1 <| .arith (f := fun _ x => x + 1) effect_aluInc <|
    .storeEnd ha rfl rfl rfl

/-! #### The rules of the arithmetic instructions -/

/-- The block of a reserved row is the halt (R126, R311). -/
theorem ofRow_eq_halts {o : Opcode} (ho : opcodeDispatch o = none) (a b : BitVec W) (s : State.Of W M N) :
    Pseudo.ofRow o a b s = Pseudo.halts o.word s := by
  cases o with
  | reserved8 => rfl
  | reserved9 => rfl
  | reserved10 => rfl
  | jeq => rfl
  | jneq => rfl
  | jgt => rfl
  | jlw => rfl
  | _ => nomatch ho

/-- The opcode words of the default machine are dispatched by their rows (R291). -/
theorem dispatch_opcode (i : Instr) : dispatch (i.opcode.word : Word) = opcodeDispatch i.opcode :=
  dispatch_word (by decide) i.opcode

/-- On every operand and every state an instruction answers a next state, with the architectural effect of its block
(R200, R321, R322). -/
theorem exec_archEq_ofInstr (i : Instr) (s : State) :
    ∃ t, exec i s = .next t ∧ archEq t (Pseudo.ofInstr i s) := by
  refine ⟨_, exec_eq_runInstr i s, ?_⟩
  cases hu : opcodeDispatch i.opcode with
  | some u => exact runInstr_ofRow (by decide) hu i.first i.second s
  | none =>
    rw [Pseudo.ofInstr, ofRow_eq_halts hu]
    exact runInstr_pseudo_halts _ s ((dispatch_opcode i).trans hu)

/-- The meaning of an instruction is where its microprogram ends. -/
theorem exec_eq_next {i : Instr} {s t : State} (h : runInstr i.opcode.word (programOf i) s = t) :
    exec i s = .next t := h ▸ exec_eq_runInstr i s

/-- Settles O29: the chain of `runInstr_regReg_of_legal` on legal operands, and its block on all others. -/
theorem addRegRegRule : Obligations.AddRegRegRule := fun a b s =>
  ⟨rfl, fun hfits ha hb => exec_eq_next <|
      runInstr_regReg_of_legal (dispatch_opcode (.addRegReg a b)) effect_aluAdd hfits ha hb,
    exec_archEq_ofInstr _ s⟩

/-- Settles O30: the chain of `runInstr_memReg_of_legal` on legal operands, and its block on all others. -/
theorem addMemRegRule : Obligations.AddMemRegRule := fun a b s =>
  ⟨rfl, fun hfits ha hb => exec_eq_next <|
      runInstr_memReg_of_legal (dispatch_opcode (.addMemReg a b)) effect_aluAdd hfits ha hb,
    exec_archEq_ofInstr _ s⟩

/-- Settles O31: the chain of `runInstr_regMem_of_legal` on legal operands, and its block on all others. -/
theorem addRegMemRule : Obligations.AddRegMemRule := fun a b s =>
  ⟨rfl, fun hfits ha hb => exec_eq_next <|
      runInstr_regMem_of_legal (dispatch_opcode (.addRegMem a b)) effect_aluAdd hfits ha hb,
    exec_archEq_ofInstr _ s⟩

/-- Settles O32: the chain of `runInstr_immReg_of_legal` on a legal register, and its block on all others. -/
theorem addImmRegRule : Obligations.AddImmRegRule := fun a b s =>
  ⟨rfl, fun hfits hb => exec_eq_next <|
      runInstr_immReg_of_legal (dispatch_opcode (.addImmReg a b)) effect_aluAdd hfits hb,
    exec_archEq_ofInstr _ s⟩

/-- Settles O33: as O29, with x[A] as the minuend in S0. -/
theorem subRegRegRule : Obligations.SubRegRegRule := fun a b s =>
  ⟨rfl, fun hfits ha hb => exec_eq_next <|
      runInstr_regReg_of_legal (dispatch_opcode (.subRegReg a b)) effect_aluSub hfits ha hb,
    exec_archEq_ofInstr _ s⟩

/-- Settles O34: as O30, with the cell as the minuend in S0. -/
theorem subMemRegRule : Obligations.SubMemRegRule := fun a b s =>
  ⟨rfl, fun hfits ha hb => exec_eq_next <|
      runInstr_memReg_of_legal (dispatch_opcode (.subMemReg a b)) effect_aluSub hfits ha hb,
    exec_archEq_ofInstr _ s⟩

/-- Settles O35: as O31, with x[A] as the minuend in S0. -/
theorem subRegMemRule : Obligations.SubRegMemRule := fun a b s =>
  ⟨rfl, fun hfits ha hb => exec_eq_next <|
      runInstr_regMem_of_legal (dispatch_opcode (.subRegMem a b)) effect_aluSub hfits ha hb,
    exec_archEq_ofInstr _ s⟩

/-- Settles O36: as O32, with the immediate as the minuend in S0. -/
theorem subImmRegRule : Obligations.SubImmRegRule := fun a b s =>
  ⟨rfl, fun hfits hb => exec_eq_next <|
      runInstr_immReg_of_legal (dispatch_opcode (.subImmReg a b)) effect_aluSub hfits hb,
    exec_archEq_ofInstr _ s⟩

/-- Settles O37: the chain of `runInstr_inc_of_legal` on a legal register, and its block on all others. -/
theorem incRegRule : Obligations.IncRegRule := fun a s =>
  ⟨rfl, fun hfits ha => exec_eq_next (runInstr_inc_of_legal (dispatch_opcode (.incReg a)) hfits ha),
    exec_archEq_ofInstr _ s⟩

end Sys2Proof.Machine

/-! PROOFS. The flags and the committed result (R220, R36), on the pseudocode: a block that completes has passed every
check, so that it has reached its last two lines. -/

namespace Sys2Proof.Machine

variable {W M N : Nat}

/-! #### A block that completes -/

/-- If the pseudocode ends in `p` without a fatal error, `p` has the property. -/
def WhenDone (Q : State.Of W M N → Prop) (p : State.Of W M N) : Prop := p.cuState = .fetch → Q p

/-- A line that checks: the block completes only if the check passes. -/
theorem WhenDone.check {Q : State.Of W M N → Prop} {c : Bool} {p q : State.Of W M N} {k : FaultCause} {x : BitVec W}
    (h : c = true → WhenDone Q p) : WhenDone Q (if c then p else q.raise k x) := by
  cases c with
  | false => exact fun hfetch => nomatch hfetch
  | true => exact h rfl

/-- The line `sel(i)`: the block completes only if the index is not negative. -/
theorem WhenDone.sel {Q : State.Of W M N → Prop} {i : BitVec W} {p : State.Of W M N}
    {rest : State.Of W M N → State.Of W M N} (h : WhenDone Q (rest (p.setSel i))) :
    WhenDone Q (Pseudo.sel i p rest) := by
  rw [Pseudo.sel]
  split
  · exact fun hfetch => nomatch hfetch
  · exact h

/-! #### The result that a state shows -/

variable {dr : Option RegId} {dm : Option MemAddr} {t p : State} {r : Word}

/-- ZERO and NEGATIVE tell of the Word `r` (R36). -/
def FlagsTell (t : State) (r : Word) : Prop :=
  t.flags.getLsbD 0 = decide (r.toInt = 0) ∧ t.flags.getLsbD 1 = decide (r.toInt < 0) ∧
    ¬ (t.flags.getLsbD 0 = true ∧ t.flags.getLsbD 1 = true)

theorem flagsTell_of_flags_eq {f : Word} (h : t.flags = flagsUpdate f r) : FlagsTell t r := by
  have hzero : t.flags.getLsbD 0 = decide (r.toInt = 0) := by
    have hr : r.toInt = 0 ↔ r = 0 := BitVec.toInt_inj (y := 0)
    rw [h, decide_eq_decide.mpr hr]
    exact flagsUpdate_zero (by decide) f r
  have hnegative : t.flags.getLsbD 1 = decide (r.toInt < 0) := h ▸ flagsUpdate_negative (by decide) f r
  refine ⟨hzero, hnegative, fun hboth => ?_⟩
  rw [hzero, hnegative, decide_eq_true_eq, decide_eq_true_eq] at hboth
  omega

/-- The state shows a result in the register `dr` or in the cell `dm` of the destination, PC one Word on, and the flags
tell of it. -/
def ShowsResult (dr : Option RegId) (dm : Option MemAddr) (t : State) : Prop :=
  ∃ r : Word,
    (∀ d, dr = some d → d ≠ 4 → t.readReg d = r) ∧
    (dr = some 4 → t.pc = r + 1) ∧
    (∀ d, dm = some d → t.mem.read d.toNat = r) ∧
    FlagsTell t r

/-- A result is shown by what a program can see (R51). -/
theorem ShowsResult.of_archEq (h : ShowsResult dr dm p) (ht : archEq t p) : ShowsResult dr dm t := by
  obtain ⟨hgpr, hpc, hir, hflags, hmem, -⟩ := ht
  obtain ⟨r, hreg, hadv, hcell, htell⟩ := h
  refine ⟨r, fun d hd hne => ?_, fun hd => hpc.trans (hadv hd), fun d hd => hmem ▸ hcell d hd, ?_⟩
  · exact (State.Of.readReg_congr d hgpr hpc hir hflags).trans (hreg d hd hne)
  · rw [FlagsTell, hflags]
    exact htell

/-- `adv()` leaves every register but PC alone (R38). -/
theorem readReg_adv {d : Word} (hd : d ≠ 4) (p : State) : (Pseudo.adv p).readReg d = p.readReg d := by
  have hpc : Pseudo.adv p = p.writeReg 4 (p.pc + 1) := (p.writeFile_idxPC _).symm
  rw [hpc, State.Of.readReg_writeReg_other p _ hd]

/-- The last two lines of a block with a destination register. -/
theorem showsResult_regWrite {d : RegId} (hlegal : legalReg Config.ngpr d = true) (hd : d ≠ 6) (r : Word)
    (p : State) :
    ShowsResult (some d) none (Pseudo.adv ((Pseudo.flags r p).writeReg d r)) := by
  have hstored := State.Of.readReg_writeReg_same (Pseudo.flags r p) r hlegal
  refine ⟨r, ?_, ?_, nofun, flagsTell_of_flags_eq (f := flagsClear p.flags) ?_⟩
  · rintro _ ⟨⟩ hne
    rw [readReg_adv hne, hstored]
  · rintro ⟨⟩
    exact congrArg (· + 1) (((Pseudo.flags r p).writeReg_pc 4 r).trans (if_pos rfl))
  · have hne : d.toNat ≠ idxFLAGSOf Config.ngpr := fun h => hd (BitVec.eq_of_toNat_eq h)
    exact ((Pseudo.flags r p).writeReg_flags d r).trans (if_neg hne)

/-- The last two lines of a block with a destination cell. -/
theorem showsResult_memWrite (hwf : p.mem.wf Config.memSize) (b : MemAddr) (r : Word) :
    ShowsResult none (some b) (Pseudo.adv (((Pseudo.flags r p).setIr r).setMem (p.mem.write b.toNat r))) := by
  refine ⟨r, nofun, nofun, ?_, flagsTell_of_flags_eq (f := flagsClear p.flags) rfl⟩
  rintro _ ⟨⟩
  exact Memory.read_write_same p.mem _ r hwf

/-! #### The blocks of the arithmetic instructions -/

variable {w a b : Word} {f : Word → Word → Word} {s : State}

theorem showsResult_regReg (ha : a ≠ 6) : WhenDone (ShowsResult (some a) none) (Pseudo.regReg w f a b s) :=
  .check fun _ => .check fun _ => .sel <| .check fun _ => .check fun _ => .sel <| .check fun _ => .check fun hlegal _ =>
    showsResult_regWrite hlegal ha _ _

theorem showsResult_memReg (hb : b ≠ 6) : WhenDone (ShowsResult (some b) none) (Pseudo.memReg w f a b s) :=
  .check fun _ => .check fun _ => .check fun _ => .check fun _ => .sel <| .check fun _ => .check fun hlegal _ =>
    showsResult_regWrite hlegal hb _ _

theorem showsResult_regMem (hwf : s.mem.wf Config.memSize) :
    WhenDone (ShowsResult none (some b)) (Pseudo.regMem w f a b s) := by
  refine .check fun _ => .check fun _ => .sel <| .check fun _ => .check fun _ => .check fun _ => .check fun _ =>
    .check fun _ _ => showsResult_memWrite ?_ b _
  exact hwf

theorem showsResult_immReg (hb : b ≠ 6) : WhenDone (ShowsResult (some b) none) (Pseudo.immReg w f a b s) :=
  .check fun _ => .check fun _ => .check fun _ => .sel <| .check fun _ => .check fun hlegal _ =>
    showsResult_regWrite hlegal hb _ _

theorem showsResult_inc (ha : a ≠ 6) : WhenDone (ShowsResult (some a) none) (Pseudo.inc a s) :=
  .check fun _ => .check fun _ => .sel <| .check fun _ => .check fun hlegal _ => showsResult_regWrite hlegal ha _ _

theorem showsResult_ofInstr {i : Instr} (hwf : s.mem.wf Config.memSize) (hi : isArithmetic i = true)
    (hd : destReg i ≠ some 6) : WhenDone (ShowsResult (destReg i) (destMem i)) (Pseudo.ofInstr i s) := by
  have hne {d : Word} (h : some d ≠ some 6) : d ≠ 6 := fun he => h (congrArg some he)
  cases i with
  | addRegReg a b => exact showsResult_regReg (hne hd)
  | addMemReg a b => exact showsResult_memReg (hne hd)
  | addRegMem a b => exact showsResult_regMem hwf
  | addImmReg a b => exact showsResult_immReg (hne hd)
  | subRegReg a b => exact showsResult_regReg (hne hd)
  | subMemReg a b => exact showsResult_memReg (hne hd)
  | subRegMem a b => exact showsResult_regMem hwf
  | subImmReg a b => exact showsResult_immReg (hne hd)
  | incReg a => exact showsResult_inc (hne hd)
  | _ => nomatch hi

/-- Settles O48: the instruction has the architectural effect of its block, which has completed. -/
theorem flagsReflectResult : Obligations.FlagsReflectResult := by
  intro i s t hwf hi hd h ht
  obtain ⟨u, hu, harch⟩ := exec_archEq_ofInstr i s
  obtain rfl := Host.Outcome.next.inj (hu.symm.trans h)
  obtain ⟨-, -, -, -, -, hcu, -⟩ := id harch
  exact (showsResult_ofInstr hwf hi hd (hcu.symm.trans ht)).of_archEq harch

end Sys2Proof.Machine

/-! PROOFS. The moves (R250 to R254): the full next state on legal operands, the late register check of moveRegMem, and
the read-back of moveImmReg. -/

namespace Sys2Proof.Machine

variable {W M N : Nat} {v : Hidden W} {p s t : State.Of W M N} {l : List (Item W)}

/-! #### The items that only the moves use -/

theorem EndsIn.aluEm0 (hrest : EndsIn { v with int := v.s0 } p l t) : EndsIn v p (.op .aluEm0 :: l) t :=
  hrest.cons fun _ => rfl

/-- The store into the register in SEL, from EXT (R165). -/
theorem EndsIn.rfStExt (hsel : legalReg N v.sel = true) (hrest : EndsIn v (p.writeReg v.sel v.ext) l t) :
    EndsIn v p (.op .rfStExt :: l) t := by
  refine hrest.cons fun u => (if_pos hsel).trans ?_
  rw [State.Of.seqTo_writeReg, State.Of.carrying_writeReg]
  rfl

/-- The Word that waited in IR goes into the register that the operand on EXT names, then PCADV and END (R251, R254). -/
theorem EndsIn.irStoreEnd (hext : legalReg N v.ext = true) (hreq : v.req = false) (hsm0 : v.sm0 = p.sm0)
    (hsm1 : v.sm1 = p.sm1) :
    EndsIn v p (.op .selLatch :: .op .irRdExt :: .op .rfStExt :: (Machine.pcAdv ++ [.op .endOp]))
      ((p.writeReg v.ext p.ir).ended p.ir v.s0 v.ext v.mar) :=
  .selLatch hext <| .irRdExt <| .rfStExt hext <|
    .advEnd hreq (hsm0.trans (p.writeReg_sm0 _ _).symm) (hsm1.trans (p.writeReg_sm1 _ _).symm)

/-! #### The microprograms on legal operands -/

variable {w a b : BitVec W} {u : MicroAddr}

/-- `moveMemReg` (R251): the loaded Word waits in IR. -/
theorem runInstr_moveMemReg_of_legal (hw : dispatch w = some u) (hfits : s.fits3) (ha : legalMem M a = true)
    (hb : legalReg N b = true) :
    let x := s.mem.read a.toNat
    runInstr w (moveMemRegProgram a b) s =
      (({ s with pc := s.pc + 2, ir := x } : State.Of W M N).writeReg b x).ended
        (ext := x) (s0 := s.s0) (sel := b) (mar := s.pc + 2) := by
  obtain ⟨hpc, hpc1, hpc2⟩ := hfits.words
  refine runInstr_endsIn hw hpc ?_
  simp only [moveMemRegProgram, ops_cons, ops_nil, List.append_assoc, List.cons_append, List.nil_append,
    ← add_one_add_one]
  exact .opf hpc1 <| .deref ha <| .irStExt <| .opf hpc2 <| .irStoreEnd hb rfl rfl rfl

/-- `moveRegReg` (R253): the Word waits in S0, which the advance leaves alone. -/
theorem runInstr_moveRegReg_of_legal (hw : dispatch w = some u) (hfits : s.fits3) (ha : legalReg N a = true)
    (hb : legalReg N b = true) :
    let x := ({ s with pc := s.pc + 1, ir := w } : State.Of W M N).readReg a
    runInstr w (moveRegRegProgram a b) s =
      (({ s with pc := s.pc + 2, ir := w } : State.Of W M N).writeReg b x).ended
        (ext := b) (s0 := x) (sel := b) (mar := s.pc + 2) := by
  obtain ⟨hpc, hpc1, hpc2⟩ := hfits.words
  refine runInstr_endsIn hw hpc ?_
  simp only [moveRegRegProgram, ops_cons, ops_nil, List.append_assoc, List.cons_append, List.nil_append,
    ← add_one_add_one]
  exact .opf hpc1 <| .selLatch ha <| .rfRdInt ha <| .aluLd0 <| .opf hpc2 <| .selLatch hb <| .aluEm0 <|
    .storeEnd hb rfl rfl rfl

/-- `moveImmReg` (R254): the operand Word itself waits in IR. -/
theorem runInstr_moveImmReg_of_legal (hw : dispatch w = some u) (hfits : s.fits3) (hb : legalReg N b = true) :
    runInstr w (moveImmRegProgram a b) s =
      (({ s with pc := s.pc + 2, ir := a } : State.Of W M N).writeReg b a).ended
        (ext := a) (s0 := s.s0) (sel := b) (mar := s.pc + 2) := by
  obtain ⟨hpc, hpc1, hpc2⟩ := hfits.words
  refine runInstr_endsIn hw hpc ?_
  simp only [moveImmRegProgram, ops_cons, ops_nil, List.append_assoc, List.cons_append, List.nil_append,
    ← add_one_add_one]
  exact .opf hpc1 <| .irStExt <| .opf hpc2 <| .irStoreEnd hb rfl rfl rfl

/-! #### The late register check of moveRegMem (R252) -/

/-- An ID that is too large is not negative, so SEL_LATCH takes it without complaint (R39). -/
theorem not_neg_of_nregOf_le {id : BitVec W} (h : nregOf N ≤ id.toInt) : ¬ id.toInt < 0 := by omega

/-- The read of a register that the file does not have raises with the request for the cell `b` pending (R169, R164). -/
theorem run_storeReg_fault (hrun : s.stopped = false) (hext : s.extBus = b) (hmem : legalMem M b = true)
    (hreg : legalReg N s.sel = false) :
    runItems (ops [.memReq, .rfRdExt, .memWrite]) s =
      ((s.latchMar b).seqTo (s.upc + 1)).raise .outOfBoundsReg s.sel :=
  calc runItems (ops [.memReq, .rfRdExt, .memWrite]) s
      = runItems (ops [.rfRdExt, .memWrite]) ((s.latchMar b).seqTo (s.upc + 1)) := by
        rw [ops_cons, runItems_cons _ _ hrun, item_effect_op, effect_memReq, hext, apply_ite_of_true hmem,
          State.Of.latchMar_upc]
    _ = runItems (ops [.memWrite]) (((s.latchMar b).seqTo (s.upc + 1)).raise .outOfBoundsReg s.sel) := by
        rw [ops_cons, runItems_cons _ _ (State.Of.seqTo_stopped _ _), item_effect_op, effect_rfRdExt,
          State.Of.seqTo_sel, State.Of.latchMar_sel, apply_ite_of_false hreg]
    _ = ((s.latchMar b).seqTo (s.upc + 1)).raise .outOfBoundsReg s.sel :=
        runItems_stopped _ (State.Of.raise_stopped _ _ _)

/-- moveRegMem from a register that the file does not have: both operand Words have been read and the address has been
checked when it raises, 18 control words after its start. -/
theorem runItems_moveRegMem_fault (hlow : 5 ≤ u.toNat) (hhigh : u.toNat + 26 < 512) (hfits : s.fits3)
    (ha : nregOf N ≤ a.toInt) (hb : legalMem M b = true) :
    runItems (moveRegMemProgram a b) (startOf 12 u s) =
      { s with
        pc := s.pc + 2, ir := 12, extBus := b, intBus := s.pc + 2, s1 := s.pc + 2, sel := a, mar := b,
        marValid := true, upc := u + 18, cuState := .fault, faultCause := .outOfBoundsReg, faultInfo := a } := by
  obtain ⟨-, hpc1, hpc2⟩ := hfits.words
  have hstart : (startOf 12 u s).inBody u.toNat 26 := State.Of.inBody_seqTo _ rfl hlow hhigh
  obtain ⟨hopfa, hin1⟩ := run_opf a (n := 18) hstart hpc1
  obtain ⟨hlatch, hin2⟩ := run_selLatch hin1 (not_neg_of_nregOf_le ha)
  obtain ⟨hopfb, hin3⟩ := run_opf b (n := 9) hin2 hpc2
  rw [moveRegMemProgram, runItems_append, runItems_append, runItems_append, runItems_append, runItems_append,
    hopfa, hlatch, hopfb, run_storeReg_fault hin3.running rfl hb (legalReg_of_ge ha),
    runItems_stopped _ (State.Of.raise_stopped _ _ _), runItems_stopped _ (State.Of.raise_stopped _ _ _),
    ← add_one_add_one s.pc]
  apply State.Of.ext <;> simp [afterOpf, afterSelLatch, startOf, State.Of.raise, BitVec.add_assoc]

theorem exec_moveRegMem_fault {a b : Word} {s : State} (hfits : s.fits3) (ha : Config.nreg ≤ a.toInt)
    (hb : legalMem Config.memSize b = true) :
    exec (.moveRegMem a b) s = .next
      { s with
        pc := s.pc + 2, ir := 12, extBus := b, intBus := s.pc + 2, s1 := s.pc + 2, sel := a, mar := b,
        marValid := true, upc := 341, cuState := .fault, faultCause := .outOfBoundsReg, faultInfo := a } := by
  obtain ⟨hpc, -, -⟩ := hfits.words
  have hw : dispatch (Opcode.moveRegMem.word : Word) = some 323 := dispatch_opcode (.moveRegMem a b)
  have hrun := runItems_moveRegMem_fault (u := 323) (by decide) (by decide) hfits ha hb
  exact exec_eq_next ((runInstr_dispatched _ 323 _ s hpc hw).trans hrun)

/-! #### Reading the destination after the trailing advance -/

/-- PCADV and END leave every register but PC as the commit left it (R38). -/
theorem readReg_ended_of_ne_pc {d : Word} (hd : d ≠ 4) (p : State) (ext s0 sel mar : Word) :
    (p.ended ext s0 sel mar).readReg d = p.readReg d :=
  calc (p.ended ext s0 sel mar).readReg d = (Pseudo.adv p).readReg d := State.Of.readReg_congr d rfl rfl rfl rfl
    _ = p.readReg d := readReg_adv hd p

/-- A Word stored into a register reads back; from PC with the trailing advance on it (R254, R197 b). -/
theorem readReg_ended_writeReg {d : Word} (hlegal : legalReg Config.ngpr d = true) (x : Word) (p : State)
    (ext s0 sel mar : Word) :
    ((p.writeReg d x).ended ext s0 sel mar).readReg d = if d = BitVec.ofNat 32 Config.idxPC then x + 1 else x := by
  split
  next hd =>
    subst hd
    have hpc : (p.writeReg 4 x).pc = x := (p.writeReg_pc 4 x).trans (if_pos rfl)
    calc ((p.writeReg 4 x).ended ext s0 sel mar).readReg 4
        = ((p.writeReg 4 x).ended ext s0 sel mar).pc := State.Of.readFile_idxPC _
      _ = x + 1 := congrArg (· + 1) hpc
  next hd => rw [readReg_ended_of_ne_pc hd, State.Of.readReg_writeReg_same p x hlegal]

/-! #### The rules of the moves -/

/-- Settles O38: the chain of `runInstr_moveMemReg_of_legal` on legal operands, and its block on all others. -/
theorem moveMemRegRule : Obligations.MoveMemRegRule := fun a b s =>
  ⟨rfl, fun hfits ha hb => exec_eq_next <|
      runInstr_moveMemReg_of_legal (dispatch_opcode (.moveMemReg a b)) hfits ha hb,
    exec_archEq_ofInstr _ s⟩

/-- Settles O39: `exec_moveRegMem` on legal operands, the check that comes after the request on a register ID that is
too large, and its block on all others. -/
theorem moveRegMemRule : Obligations.MoveRegMemRule := fun _ _ s =>
  ⟨rfl, exec_moveRegMem, exec_moveRegMem_fault, exec_archEq_ofInstr _ s⟩

/-- Settles O40: the chain of `runInstr_moveRegReg_of_legal` on legal operands, and its block on all others. -/
theorem moveRegRegRule : Obligations.MoveRegRegRule := fun a b s =>
  ⟨rfl, fun hfits ha hb => exec_eq_next <|
      runInstr_moveRegReg_of_legal (dispatch_opcode (.moveRegReg a b)) hfits ha hb,
    exec_archEq_ofInstr _ s⟩

theorem exec_moveImmReg {a b : Word} {s : State} (hfits : s.fits3) (hb : legalReg Config.ngpr b = true) :
    exec (.moveImmReg a b) s = .next
      ((({ s with pc := s.pc + 2, ir := a } : State).writeReg b a).ended
        (ext := a) (s0 := s.s0) (sel := b) (mar := s.pc + 2)) :=
  exec_eq_next (runInstr_moveImmReg_of_legal (dispatch_opcode (.moveImmReg a b)) hfits hb)

/-- Settles O41: the chain of `runInstr_moveImmReg_of_legal` on a legal register, what reads back from its end, and its
block on all others. -/
theorem moveImmRegRule : Obligations.MoveImmRegRule := fun _ _ s =>
  ⟨rfl, exec_moveImmReg, fun hfits hb => ⟨_, exec_moveImmReg hfits hb, readReg_ended_writeReg hb _ _ _ _ _ _⟩,
    exec_archEq_ofInstr _ s⟩

end Sys2Proof.Machine

/-! PROOFS. The jumps (R270 to R273): the full next state when both Words lie in Memory, StatusMemory when one does not,
and a target outside Memory. -/

namespace Sys2Proof.Machine

variable {W M N : Nat} {v : Hidden W} {p s t : State.Of W M N} {l : List (Item W)}

/-! #### The items that only the jumps use -/

theorem EndsIn.pcRdExt (hrest : EndsIn { v with ext := p.pc } p l t) : EndsIn v p (.op .pcRdExt :: l) t :=
  hrest.cons fun _ => rfl

theorem EndsIn.pcStExt (hrest : EndsIn v (p.setPc v.ext) l t) : EndsIn v p (.op .pcStExt :: l) t :=
  hrest.cons fun _ => rfl

theorem EndsIn.smSt0 (hrest : EndsIn { v with sm0 := v.ext } p l t) : EndsIn v p (.op .smSt0 :: l) t :=
  hrest.cons fun _ => rfl

theorem EndsIn.smSt1 (hrest : EndsIn { v with sm1 := v.ext } p l t) : EndsIn v p (.op .smSt1 :: l) t :=
  hrest.cons fun _ => rfl

/-- SM_SEL_Z and SM_SEL_N: the flag bit picks the cell of StatusMemory (R174, R175). -/
theorem EndsIn.smSel {op : MicroOp} {flag : Nat}
    (hop : ∀ m : State.Of W M N, op.effect m = .done (m.putExt (if m.flags.getLsbD flag then m.sm1 else m.sm0)))
    (hrest : EndsIn { v with ext := if p.flags.getLsbD flag then v.sm1 else v.sm0 } p l t) :
    EndsIn v p (.op op :: l) t :=
  hrest.cons fun _ => hop _

/-- END of a microprogram that has stored PC itself (R154, R197). -/
theorem EndsIn.endOp : EndsIn v p [.op .endOp] ((p.carrying v).seqTo 0) :=
  fun _ => runItems_cons _ _ (State.Of.seqTo_stopped _ _)

/-! #### The microprograms of the jumps -/

variable {w x : BitVec W} {u : MicroAddr} {op : MicroOp} {flag : Nat}

/-- The microprogram that `jn` and `jz` share, with the micro-operation that picks one of the two addresses (R90). -/
def jccProgram (op : MicroOp) (x : BitVec W) : List (Item W) :=
  opf x ++ ops [.smSt1] ++ pcAdv ++ ops [.pcRdExt, .smSt0, op, .pcStExt, .endOp]

theorem jnProgram_eq_jccProgram (x : BitVec W) : jnProgram x = jccProgram .smSelN x := rfl

theorem jzProgram_eq_jccProgram (x : BitVec W) : jzProgram x = jccProgram .smSelZ x := rfl

/-- `jmp` (R270): the operand Word goes over EXT into PC. -/
theorem runInstr_jmp_of_fits (hw : dispatch w = some u) (hfits : s.fits2) :
    runInstr w (jmpProgram x) s =
      { s with
        pc := x, ir := w, extBus := x, intBus := s.pc + 1, s1 := s.pc + 1, mar := s.pc + 1, marValid := false,
        upc := 0, cuState := .fetch } := by
  obtain ⟨hpc, hpc1⟩ := hfits
  refine runInstr_endsIn hw hpc ?_
  simp only [jmpProgram, ops_cons, ops_nil]
  exact .opf hpc1 <| .pcStExt .endOp

/-- `jn` and `jz` (R271, R272): both addresses go into StatusMemory, whichever is taken. -/
theorem runInstr_jcc_of_fits (hw : dispatch w = some u)
    (hop : ∀ m : State.Of W M N, op.effect m = .done (m.putExt (if m.flags.getLsbD flag then m.sm1 else m.sm0)))
    (hfits : s.fits2) :
    let target := if s.flags.getLsbD flag then x else s.pc + 2
    runInstr w (jccProgram op x) s =
      { s with
        pc := target, ir := w, sm0 := s.pc + 2, sm1 := x, extBus := target, intBus := s.pc + 2, s1 := s.pc + 2,
        mar := s.pc + 1, marValid := false, upc := 0, cuState := .fetch } := by
  obtain ⟨hpc, hpc1⟩ := hfits
  refine runInstr_endsIn hw hpc ?_
  simp only [jccProgram, ops_cons, ops_nil, List.append_assoc, List.cons_append, List.nil_append, ← add_one_add_one]
  exact .opf hpc1 <| .smSt1 <| .pcAdv <| .pcRdExt <| .smSt0 <| .smSel hop <| .pcStExt .endOp

/-! #### A Word outside Memory (R314) -/

/-- A fault at the opcode word or at the first operand word comes before anything is stored in StatusMemory. -/
theorem runInstr_opf_sm_of_not_fits (hw : dispatch w = some u) (hfits : ¬ s.fits2) (body : List (Item W)) :
    (runInstr w (opf x ++ body) s).sm0 = s.sm0 ∧ (runInstr w (opf x ++ body) s).sm1 = s.sm1 := by
  cases hpc : legalMem M s.pc with
  | false => rw [runInstr_fetch_fault _ _ s hpc]; exact ⟨rfl, rfl⟩
  | true =>
    have hpc1 : legalMem M (s.pc + 1) = false := Bool.eq_false_iff.mpr fun h => hfits ⟨hpc, h⟩
    obtain ⟨hlow, hroom⟩ := room_of_dispatch hw
    have hstart : (startOf w u s).inBody u.toNat (33 + 8) := State.Of.inBody_seqTo _ rfl hlow hroom
    rw [runInstr_dispatched w u _ s hpc hw, runItems_append, run_opf_fault x hstart hpc1,
      runItems_stopped _ (State.Of.raise_stopped _ _ _)]
    simp [startOf]

/-- `jn` and `jz` fault only at their own Words: with both in Memory they complete, whatever the target is (R32). -/
theorem runInstr_jcc_sm_of_fault (hw : dispatch w = some u)
    (hop : ∀ m : State.Of W M N, op.effect m = .done (m.putExt (if m.flags.getLsbD flag then m.sm1 else m.sm0)))
    (hfault : (runInstr w (jccProgram op x) s).cuState = .fault) :
    (runInstr w (jccProgram op x) s).sm0 = s.sm0 ∧ (runInstr w (jccProgram op x) s).sm1 = s.sm1 := by
  have hfits : ¬ s.fits2 := fun h => by
    rw [runInstr_jcc_of_fits hw hop h] at hfault
    nomatch hfault
  simp only [jccProgram, List.append_assoc]
  exact runInstr_opf_sm_of_not_fits hw hfits _

/-- The same of an instruction with that microprogram. -/
theorem exec_jcc_sm_of_fault {i : Instr} {x : Word} {u : MicroAddr} {s t : State} (hi : programOf i = jccProgram op x)
    (hw : dispatch (i.opcode.word : Word) = some u)
    (hop : ∀ m : State, op.effect m = .done (m.putExt (if m.flags.getLsbD flag then m.sm1 else m.sm0)))
    (h : exec i s = .next t) (hfault : t.cuState = .fault) : t.sm0 = s.sm0 ∧ t.sm1 = s.sm1 := by
  obtain rfl := Host.Outcome.next.inj ((exec_eq_runInstr i s).symm.trans h)
  rw [hi] at hfault ⊢
  exact runInstr_jcc_sm_of_fault hw hop hfault

/-- A step at a boundary with PC outside Memory is the fault of its FETCH (R314). -/
theorem step_eq_fetchFaulted {s : State} (hs : s.ready) (hpc : legalMem Config.memSize s.pc = false) :
    step s = .next s.fetchFaulted := by
  obtain ⟨body, hrun⟩ := runRowAtPc_eq_runInstr s
  rw [step_eq_stepRow, stepRow_of_ready hs, hrun, runInstr_fetch_fault _ _ s hpc]
  rfl

/-! #### The rules of the jumps -/

theorem exec_jmp {x : Word} {s : State} (hfits : s.fits2) :
    exec (.jmp x) s = .next
      { s with
        pc := x, ir := 16, extBus := x, intBus := s.pc + 1, s1 := s.pc + 1, mar := s.pc + 1, marValid := false,
        upc := 0, cuState := .fetch } :=
  exec_eq_next (runInstr_jmp_of_fits (dispatch_opcode (.jmp x)) hfits)

/-- Settles O42: `exec_jmp` when both Words lie in Memory, and its block on all states. -/
theorem jmpRule : Obligations.JmpRule := fun _ s => ⟨rfl, exec_jmp, exec_archEq_ofInstr _ s⟩

/-- Settles O43: `runInstr_jcc_of_fits` with NEGATIVE as the selecting bit, StatusMemory on a fault, and the block of
`jn` on all states. -/
theorem jnRule : Obligations.JnRule := fun x s =>
  ⟨rfl, fun hfits => exec_eq_next <| runInstr_jcc_of_fits (dispatch_opcode (.jn x)) effect_smSelN hfits,
    fun _ => exec_jcc_sm_of_fault (jnProgram_eq_jccProgram x) (dispatch_opcode (.jn x)) effect_smSelN,
    exec_archEq_ofInstr _ s⟩

/-- Settles O44: as O43, with ZERO as the selecting bit. -/
theorem jzRule : Obligations.JzRule := fun x s =>
  ⟨rfl, fun hfits => exec_eq_next <| runInstr_jcc_of_fits (dispatch_opcode (.jz x)) effect_smSelZ hfits,
    fun _ => exec_jcc_sm_of_fault (jzProgram_eq_jccProgram x) (dispatch_opcode (.jz x)) effect_smSelZ,
    exec_archEq_ofInstr _ s⟩

/-! #### A target outside Memory -/

/-- A one-operand instruction that stands at PC has both Words in Memory (R120). -/
theorem fits2_of_holdsWords {a b : BitVec W} (h : s.holdsWords [a, b]) : s.fits2 := by
  obtain ⟨hpc, -⟩ := h 0 Nat.zero_lt_two
  obtain ⟨hpc1, -⟩ := h 1 Nat.one_lt_two
  rw [BitVec.add_zero] at hpc
  exact ⟨hpc, hpc1⟩

/-- Settles O56: the jump does not check its target, and the state it leaves is at a boundary with PC outside Memory. -/
theorem jumpTargetFaultsAtNextFetch : Obligations.JumpTargetFaultsAtNextFetch := by
  intro x s hs hi hx
  have hjump := (stepRunsDecodedInstruction _ s hs hi).trans (exec_jmp (fits2_of_holdsWords hi))
  exact ⟨_, _, hjump, rfl, rfl, step_eq_fetchFaulted ⟨rfl, rfl⟩ hx, ⟨rfl, rfl, rfl⟩, rfl⟩

end Sys2Proof.Machine

/-! PROOFS. The dispatch table and the ROM (R290 to R292): the two tables of the microprograms, as they are listed. -/

namespace Sys2Proof.Machine

variable {W : Nat}

/-- A dispatched Word is the opcode word of a row with a microprogram (R155). -/
theorem eq_word_of_dispatch {w : BitVec W} {u : MicroAddr} (h : dispatch w = some u) :
    ∃ o : Opcode, w = o.word ∧ opcodeDispatch o = some u := by
  obtain ⟨o, ho, hu⟩ := Option.bind_eq_some_iff.mp h
  exact ⟨o, eq_word_of_opcodeOf ho, hu⟩

/-- Settles O3: a dispatched Word is the opcode word of a row of the spec's table, and a row dispatches its Word. -/
theorem dispatchTableIsTheSpecs : Obligations.DispatchTableIsTheSpecs := by
  intro W hW w u
  refine ⟨fun h => ?_, dispatch_of_mem_dispatchTable hW⟩
  obtain ⟨o, rfl, hu⟩ := eq_word_of_dispatch h
  rw [toInt_word hW]
  exact mem_dispatchTable hu

/-- A control word occurs in the ROM as often as in the six parts of its listing (R292). -/
theorem count_rom (c : ControlWord) :
    rom.count c = romFrom0.count c + romFrom80.count c + romFrom160.count c + romFrom240.count c +
      romFrom320.count c + romFrom400.count c := by
  simp only [rom, List.count_append]

/-- The last control word of a microprogram is END (R154, R292). -/
theorem getLast?_map_code_programOfRow {o : Opcode} {u : MicroAddr} (hu : opcodeDispatch o = some u)
    (a b : BitVec W) : ((programOfRow o a b).map Item.code).getLast? = some 0 := by
  rw [programOfRow_eq_body hu, List.map_append]
  exact List.getLast?_concat

/-- Settles O59: the listing is counted part by part, and a microprogram stands at its dispatch address
and ends with END. -/
theorem romHoldsMicroprograms : Obligations.RomHoldsMicroprograms := by
  refine ⟨rom_length, rfl, (count_rom 0).trans rfl, (count_rom 1).trans rfl, (count_rom 31).trans rfl, ?_⟩
  intro W o a b u hu
  have hrom := programOfRow_in_rom hu a b
  rw [List.length_map] at hrom
  exact ⟨hrom, getLast?_map_code_programOfRow hu a b⟩

end Sys2Proof.Machine

/-! PROOFS. The fatal errors (spec 60): what a micro-operation raises and what the record shows (R312, R313), and that
UPC stays inside the ROM (R318). -/

namespace Sys2Proof.Machine

variable {W M N : Nat} {s : State.Of W M N}

/-! #### What an item raises -/

/-- The fatal errors that an item can raise, with their information (R312). -/
inductive Raisable (s : State.Of W M N) : FaultCause → BitVec W → Prop
  | address (h : legalMem M s.extBus = false) : Raisable s .outOfBoundsMem s.extBus
  | operand (h : legalReg N s.extBus = false) : Raisable s .outOfBoundsReg s.extBus
  | selected (h : legalReg N s.sel = false) : Raisable s .outOfBoundsReg s.sel
  | noRequest : Raisable s .noRequest 0

theorem legalReg_of_neg {id : BitVec W} (h : id.toInt < 0) : legalReg N id = false := by
  simp [legalReg, not_le.mpr h]

/-- An item that checks raises only if the check fails, and then what it names. -/
theorem eq_of_ite_eq_raise {b : Bool} {t : State.Of W M N} {k c : FaultCause} {y x : BitVec W}
    (h : (if b then Effect.done t else .raise k y) = .raise c x) : b = false ∧ k = c ∧ y = x := by
  cases b with
  | true => nomatch h
  | false => exact ⟨rfl, Effect.raise.inj h⟩

/-- A read of or a store into the register file raises on the ID in SEL (R40). -/
theorem raisable_of_checkReg {t : State.Of W M N} {c : FaultCause} {x : BitVec W}
    (h : (if legalReg N s.sel then Effect.done t else .raise .outOfBoundsReg s.sel) = .raise c x) : Raisable s c x := by
  obtain ⟨hsel, rfl, rfl⟩ := eq_of_ite_eq_raise h
  exact .selected hsel

/-- A data phase raises when no request is pending (R83, R84). -/
theorem raisable_of_checkRequest {t : State.Of W M N} {c : FaultCause} {x : BitVec W}
    (h : (if s.marValid then Effect.done t else .raise .noRequest 0) = .raise c x) : Raisable s c x := by
  obtain ⟨-, rfl, rfl⟩ := eq_of_ite_eq_raise h
  exact .noRequest

/-- No item raises InvalidSlot, InvalidBit or InvalidMicroOp (R316). -/
theorem raisable_of_effect {it : Item W} {c : FaultCause} {x : BitVec W} (h : it.effect s = .raise c x) :
    Raisable s c x := by
  cases it with
  | word w => exact raisable_of_checkRequest h
  | op m =>
    rw [item_effect_op] at h
    cases m with
    | decode =>
      rw [effect_decode, decodeDispatch] at h
      split at h <;> nomatch h
    | rfRdExt => exact raisable_of_checkReg h
    | rfStExt => exact raisable_of_checkReg h
    | rfRdInt => exact raisable_of_checkReg h
    | rfStInt => exact raisable_of_checkReg h
    | selLatch =>
      rw [effect_selLatch] at h
      split at h
      · obtain ⟨rfl, rfl⟩ := Effect.raise.inj h
        exact .operand (legalReg_of_neg ‹_›)
      · nomatch h
    | memReq =>
      obtain ⟨hext, rfl, rfl⟩ := eq_of_ite_eq_raise h
      exact .address hext
    | memRead => exact raisable_of_checkRequest h
    | memWrite => exact raisable_of_checkRequest h
    | smSelZ => rw [effect_smSelZ] at h; nomatch h
    | smSelN => rw [effect_smSelN] at h; nomatch h
    | _ => nomatch h

/-- Only a raise leads into FAULT (R313). -/
theorem eq_raise_of_apply_fault {e : Effect W M N} (h : (s.apply e).cuState = .fault) : ∃ c x, e = .raise c x := by
  cases e with
  | done t => exact absurd h (phaseOf_ne_fault _)
  | goto u => exact absurd h (phaseOf_ne_fault u)
  | halt => nomatch h
  | raise c x => exact ⟨c, x, rfl⟩

/-- A micro-operation that ends in FAULT has raised one of the errors that its item can raise, and nothing else. -/
theorem perform_eq_raise_of_fault {m : MicroOp} (h : (m.perform s).cuState = .fault) :
    ∃ c x, Raisable s c x ∧ m.perform s = s.raise c x := by
  obtain ⟨c, x, he⟩ := eq_raise_of_apply_fault h
  exact ⟨c, x, raisable_of_effect (it := .op m) he, congrArg s.apply he⟩

/-- What the record of a fatal error shows (R312). -/
theorem Raisable.shows {c : FaultCause} {x : BitVec W} (h : Raisable s c x) :
    c ≠ .none ∧
      (c = .outOfBoundsMem → x = s.extBus ∧ legalMem M x = false) ∧
      (c = .outOfBoundsReg → (x = s.extBus ∨ x = s.sel) ∧ legalReg N x = false) ∧
      (c = .noRequest → x = 0) := by
  cases h with
  | address h => exact ⟨nofun, fun _ => ⟨rfl, h⟩, nofun, nofun⟩
  | operand h => exact ⟨nofun, nofun, fun _ => ⟨.inl rfl, h⟩, nofun⟩
  | selected h => exact ⟨nofun, nofun, fun _ => ⟨.inr rfl, h⟩, nofun⟩
  | noRequest => exact ⟨nofun, nofun, nofun, fun _ => rfl⟩

/-- Settles O28: the step has raised InvalidMicroOp or an error of the micro-operation at UPC. -/
theorem faultEntry : Obligations.FaultEntry := by
  intro W M N _ s hrun hfault
  rcases microStep_cases hrun with ⟨x, hstep⟩ | ⟨m, -, hstep⟩
  · exact ⟨.invalidMicroOp, x, nofun, hstep, nofun, nofun, nofun⟩
  · rw [hstep] at hfault ⊢
    obtain ⟨c, x, hraise, heq⟩ := perform_eq_raise_of_fault hfault
    obtain ⟨hcause, hinfo⟩ := hraise.shows
    exact ⟨c, x, hcause, heq, hinfo⟩

/-! #### UPC in the ROM -/

/-- Every control word of the ROM is the code of a micro-operation: 31 does not occur (R292, R185). -/
theorem romWord_of_lt {u : MicroAddr} (hu : u.toNat < 473) : ∃ m : MicroOp, romWord u = some m.code := by
  have hlen : u.toNat < rom.length := hu.trans_eq rom_length.symm
  have h31 : rom[u.toNat] ≠ 31 := fun h =>
    List.count_eq_zero.mp ((count_rom 31).trans rfl) (h ▸ List.getElem_mem hlen)
  have hcodes : ∀ c : ControlWord, c ≠ 31 → (microOpOf c).isSome = true := by decide
  obtain ⟨m, hm⟩ := Option.isSome_iff_exists.mp (hcodes _ h31)
  exact ⟨m, (List.getElem?_eq_getElem hlen).trans (congrArg some (code_of_microOpOf hm).symm)⟩

theorem romWord_of_ge {u : MicroAddr} (hu : 473 ≤ u.toNat) : romWord u = none :=
  List.getElem?_eq_none (rom_length.trans_le hu)

theorem microStep_of_romWord {m : MicroOp} (hrun : s.stopped = false) (hrom : romWord s.upc = some m.code) :
    microStep s = m.perform s := by
  simp [microStep, hrun, hrom]

/-- The ROM ends with END (R292). -/
theorem eq_endOp_of_last {u : MicroAddr} {m : MicroOp} (hu : u.toNat = 472) (hrom : romWord u = some m.code) :
    m = .endOp := by
  have hlast : romWord u = some MicroOp.endOp.code := by rw [romWord, hu]; rfl
  have hcode : m.code = MicroOp.endOp.code := Option.some.inj (hrom.symm.trans hlast)
  simpa using congrArg microOpOf hcode

/-- A microprogram starts inside the ROM (R291). -/
theorem dispatch_lt {w : BitVec W} {u : MicroAddr} (hw : dispatch w = some u) : u.toNat < 473 := by
  obtain ⟨o, -, hu⟩ := eq_word_of_dispatch hw
  have hbody := body_in_rom hu w w
  rw [rom_length] at hbody
  omega

/-- UPC stays inside the ROM: END and DECODE say where it goes, and no other micro-operation stands last (R318). -/
theorem upc_perform_lt {m : MicroOp} (hu : s.upc.toNat < 473) (hrom : romWord s.upc = some m.code) :
    (m.perform s).upc.toNat < 473 := by
  have hnext (hflow : (Item.op m : Item W).target ≠ .flow) : (m.perform s).upc.toNat < 473 := by
    have hlast : s.upc.toNat ≠ 472 := fun h => hflow (eq_endOp_of_last h hrom ▸ rfl)
    rcases upc_apply (s := s) hflow with hupc | ⟨-, hupc⟩
    · have hsucc : (m.perform s).upc = s.upc + 1 := hupc
      rw [hsucc]
      bv_omega
    · exact hupc ▸ hu
  cases m with
  | endOp => exact Nat.succ_pos _
  | decode =>
    cases hw : dispatch s.ir with
    | some u => rw [perform_decode_of_some hw]; exact dispatch_lt hw
    | none => rw [perform_decode_of_none hw]; exact hu
  | _ => exact hnext nofun

/-- Settles O27: inside the ROM there is a micro-operation at UPC, and beyond it there is none. -/
theorem microStepStaysInRom : Obligations.MicroStepStaysInRom := by
  intro W M N _ s hrun
  refine ⟨fun hu => ?_, fun hu => ?_⟩
  · obtain ⟨m, hrom⟩ := romWord_of_lt hu
    rw [microStep_of_romWord hrun hrom]
    refine ⟨upc_perform_lt hu hrom, fun hfault => ?_⟩
    obtain ⟨c, x, hraise, heq⟩ := perform_eq_raise_of_fault hfault
    rw [heq]
    cases hraise <;> exact ⟨nofun, nofun, nofun⟩
  · refine ⟨Config.controlWordBeyondRom W s.upc.toNat, ?_⟩
    simp [microStep, hrun, romWord_of_ge hu, invalidMicroOp]

/-- Settles O47: whatever the instruction, FETCH comes first and its request raises. -/
theorem fetchOutsideMemoryFaults : Obligations.FetchOutsideMemoryFaults := fun s hpc =>
  ⟨fun hs => step_eq_fetchFaulted hs hpc, fun _ => exec_eq_next (runInstr_fetch_fault _ _ s hpc)⟩

end Sys2Proof.Machine

/-! PROOFS. A fatal error commits nothing (R322), on the pseudocode: every line that can raise stands before the lines
that commit, or repeats a check that an earlier line has passed. -/

namespace Sys2Proof.Machine

variable {W M N : Nat} {s p q : State.Of W M N}

/-! #### The lines of a block that started in `s` -/

/-- If `p` is a state of FAULT, nothing has been committed since `s`, and the cause is an illegal address or an illegal
register ID (R314, R315). -/
def FaultsClean (s p : State.Of W M N) : Prop :=
  p.cuState = .fault → commitsNothing s p ∧
    ((p.faultCause = .outOfBoundsMem ∧ legalMem M p.faultInfo = false) ∨
      (p.faultCause = .outOfBoundsReg ∧ legalReg N p.faultInfo = false))

/-- What a program can see tells whether a fault is clean (R51). -/
theorem FaultsClean.of_archEq {t : State.Of W M N} (h : FaultsClean s p) (ht : archEq t p) : FaultsClean s t := by
  obtain ⟨hgpr, -, -, hflags, hmem, hcu, hcause, hinfo⟩ := ht
  intro hfault
  rw [commitsNothing, hgpr, hflags, hmem, hcause, hinfo]
  exact h (hcu.symm.trans hfault)

/-- A line that checks an address, in a state that has committed nothing. -/
theorem FaultsClean.address {a : BitVec W} (h : legalMem M a = true → FaultsClean s p)
    (hq : commitsNothing s q := by exact ⟨rfl, rfl, rfl⟩) :
    FaultsClean s (if legalMem M a then p else q.raise .outOfBoundsMem a) := by
  cases ha : legalMem M a with
  | true => exact h ha
  | false => exact fun _ => ⟨hq, .inl ⟨rfl, ha⟩⟩

/-- A line that checks a register ID, in a state that has committed nothing. -/
theorem FaultsClean.register {d : BitVec W} (h : legalReg N d = true → FaultsClean s p)
    (hq : commitsNothing s q := by exact ⟨rfl, rfl, rfl⟩) :
    FaultsClean s (if legalReg N d then p else q.raise .outOfBoundsReg d) := by
  cases hd : legalReg N d with
  | true => exact h hd
  | false => exact fun _ => ⟨hq, .inr ⟨rfl, hd⟩⟩

/-- The line `sel(i)`, in a state that has committed nothing. -/
theorem FaultsClean.sel {i : BitVec W} {rest : State.Of W M N → State.Of W M N}
    (h : FaultsClean s (rest (q.setSel i))) (hq : commitsNothing s q := by exact ⟨rfl, rfl, rfl⟩) :
    FaultsClean s (Pseudo.sel i q rest) := by
  rw [Pseudo.sel]
  split
  · exact fun _ => ⟨hq, .inr ⟨rfl, legalReg_of_neg ‹_›⟩⟩
  · exact h

/-- A line that repeats a check that has been passed raises nothing. -/
theorem FaultsClean.passed {c : Bool} (hc : c = true) (h : FaultsClean s p) : FaultsClean s (if c then p else q) := by
  rwa [if_pos hc]

/-- The last line of a block that completes. -/
theorem FaultsClean.completed (hp : p.cuState ≠ .fault) : FaultsClean s p := fun hfault => absurd hfault hp

/-- `x[i] <- v` and `adv()` of a running machine complete the block. -/
theorem FaultsClean.stored {d v : BitVec W} (hq : q.cuState ≠ .fault) : FaultsClean s (Pseudo.adv (q.writeReg d v)) :=
  .completed fun hfault => hq ((q.writeReg_cuState d v).symm.trans hfault)

/-! #### The blocks -/

variable {w a b : BitVec W} {f : BitVec W → BitVec W → BitVec W}

theorem faultsClean_regReg : FaultsClean s (Pseudo.regReg w f a b s) :=
  .address fun _ => .address fun _ => .sel <| .register fun ha => .address fun _ => .sel <| .register fun _ =>
    .passed ha <| .stored nofun

theorem faultsClean_memReg : FaultsClean s (Pseudo.memReg w f a b s) :=
  .address fun _ => .address fun _ => .address fun _ => .address fun _ => .sel <| .register fun hb =>
    .passed hb <| .stored nofun

/-- The address word is read again at the same PC, and the store goes to the address that was loaded from (R199). -/
theorem faultsClean_regMem : FaultsClean s (Pseudo.regMem w f a b s) :=
  .address fun _ => .address fun _ => .sel <| .register fun _ => .address fun hpc => .address fun hb =>
    .passed hpc <| .passed hb <| .completed nofun

theorem faultsClean_immReg : FaultsClean s (Pseudo.immReg w f a b s) :=
  .address fun _ => .address fun _ => .address fun _ => .sel <| .register fun hb => .passed hb <| .stored nofun

theorem faultsClean_inc : FaultsClean s (Pseudo.inc a s) :=
  .address fun _ => .address fun _ => .sel <| .register fun ha => .passed ha <| .stored nofun

theorem faultsClean_moveMemReg : FaultsClean s (Pseudo.moveMemReg a b s) :=
  .address fun _ => .address fun _ => .address fun _ => .address fun _ => .sel <| .register fun _ => .stored nofun

theorem faultsClean_moveRegMem : FaultsClean s (Pseudo.moveRegMem a b s) :=
  .address fun _ => .address fun _ => .sel <| .address fun _ => .address fun hb => .register fun _ =>
    .passed hb <| .completed nofun

theorem faultsClean_moveRegReg : FaultsClean s (Pseudo.moveRegReg a b s) :=
  .address fun _ => .address fun _ => .sel <| .register fun _ => .address fun _ => .sel <| .register fun _ =>
    .stored nofun

theorem faultsClean_moveImmReg : FaultsClean s (Pseudo.moveImmReg a b s) :=
  .address fun _ => .address fun _ => .address fun _ => .sel <| .register fun _ => .stored nofun

theorem faultsClean_jmp : FaultsClean s (Pseudo.jmp a s) :=
  .address fun _ => .address fun _ => .completed nofun

theorem faultsClean_jcc {flag : Nat} : FaultsClean s (Pseudo.jcc w flag a s) :=
  .address fun _ => .address fun _ => .completed nofun

theorem faultsClean_halts : FaultsClean s (Pseudo.halts w s) := .address fun _ => .completed nofun

theorem faultsClean_ofRow (o : Opcode) : FaultsClean s (Pseudo.ofRow o a b s) := by
  cases hu : opcodeDispatch o with
  | none =>
    rw [ofRow_eq_halts hu]
    exact faultsClean_halts
  | some u =>
    cases o with
    | addRegReg => exact faultsClean_regReg
    | addMemReg => exact faultsClean_memReg
    | addRegMem => exact faultsClean_regMem
    | addImmReg => exact faultsClean_immReg
    | subRegReg => exact faultsClean_regReg
    | subMemReg => exact faultsClean_memReg
    | subRegMem => exact faultsClean_regMem
    | subImmReg => exact faultsClean_immReg
    | moveMemReg => exact faultsClean_moveMemReg
    | moveRegMem => exact faultsClean_moveRegMem
    | moveRegReg => exact faultsClean_moveRegReg
    | moveImmReg => exact faultsClean_moveImmReg
    | incReg => exact faultsClean_inc
    | jmp => exact faultsClean_jmp
    | jn => exact faultsClean_jcc
    | jz => exact faultsClean_jcc
    | _ => nomatch hu

/-- Settles O54: the instruction has the architectural effect of its block, which faults before its first commit. -/
theorem faultCommitsNothing : Obligations.FaultCommitsNothing := by
  intro i s t h
  obtain ⟨u, hu, harch⟩ := exec_archEq_ofInstr i s
  obtain rfl := Host.Outcome.next.inj (hu.symm.trans h)
  exact (faultsClean_ofRow i.opcode).of_archEq harch

end Sys2Proof.Machine

/-! PROOFS. Reset (R340) and how many micro-operations an instruction takes (R349, R291). -/

namespace Sys2Proof.Machine

variable {W M N : Nat} {s : State.Of W M N} {o : Opcode} {u : MicroAddr}

/-! #### Reset -/

/-- `rst` rules an edge before every other input, and its effect does not depend on the machine (R340). -/
theorem clockEdge_of_rst {i : Inputs W} (hrst : i.rst = true) (b : Block W M N) :
    clockEdge i b = ⟨State.Of.reset, false⟩ := by
  rw [clockEdge, if_pos hrst, State.Of.rst]

/-- Settles O14: `rst` is the first input that an edge looks at. -/
theorem resetFromAnyState : Obligations.ResetFromAnyState := fun _ _ _ _ _ b hrst => clockEdge_of_rst hrst b

/-! #### Numbers of micro-operations -/

theorem microRun_add (m n : Nat) (s : State.Of W M N) : microRun (m + n) s = microRun n (microRun m s) := by
  induction m generalizing s with
  | zero => rw [Nat.zero_add, microRun]
  | succ m ih => rw [Nat.succ_add, microRun, microRun, ih]

/-- One step takes the micro-operation that the ROM holds at UPC; END and DECODE too. -/
theorem microStep_eq_runItems_op {m : MicroOp} (h : s.stopped = false → s.atCodes [m.code]) :
    microStep s = runItems (ops [m]) s := by
  cases hrun : s.stopped with
  | true => rw [microStep_of_stopped hrun, runItems_stopped _ hrun]
  | false =>
    rw [microStep_of_atCodes (it := .op m) (h hrun) nofun]
    exact (runItems_cons (.op m) [] hrun).symm

/-- A registered instruction takes 4 micro-operations of FETCH, 1 of DECODE, its microprogram and END (R291). -/
theorem stepsOf_eq_of_registered (hu : opcodeDispatch o = some u) (a b : BitVec W) :
    stepsOf o = 4 + (1 + ((bodyOfRow o a b).length + 1)) := by
  rw [length_bodyOfRow]
  cases o <;> cases hu <;> rfl

/-- A halting word takes FETCH and DECODE (R311). -/
theorem stepsOf_eq_of_halting (hu : opcodeDispatch o = none) : stepsOf o = 4 + 1 := by
  cases o <;> cases hu <;> rfl

theorem four_le_stepsOf (o : Opcode) : 4 ≤ stepsOf o := by
  cases o <;> decide

/-- FETCH is 4 micro-operations (R190). -/
theorem microRun_four_of_ready (hs : s.ready) : microRun 4 s = runItems (fetchItems s.wordAtPc) (s.seqTo 0) := by
  rw [seqTo_zero_of_ready hs]
  exact (inRom_fetchItems hs).microRun_eq

/-- A microprogram is as many micro-operations as it has items, END included. -/
theorem microRun_startOf (hu : opcodeDispatch o = some u) (w : BitVec W) (s : State.Of W M N) {a b : BitVec W}
    (ha : s.mem.read (s.pc + 1).toNat = a) (hb : s.mem.read (s.pc + 2).toNat = b) :
    microRun ((bodyOfRow o a b).length + 1) (startOf w u s) = runItems (programOfRow o a b) (startOf w u s) := by
  subst ha hb
  have hbody := inRom_bodyOfRow hu w s
  rw [microRun_add, hbody.microRun_eq, programOfRow_eq_body hu, runItems_append]
  exact microStep_eq_runItems_op hbody.atCodes_runItems

/-- The row at PC is over after the steps that the table gives it. An instruction that faults is over sooner, and the
steps that are left change nothing (R323). -/
theorem microRun_stepsOf (hs : s.ready) (ho : opcodeOf s.wordAtPc = some o) :
    microRun (stepsOf o) s = runInstr s.wordAtPc s.programAtPc s := by
  have hfetch := microRun_four_of_ready hs
  have hw : dispatch s.wordAtPc = opcodeDispatch o := by rw [dispatch, ho, Option.bind_some]
  cases hpc : legalMem M s.pc with
  | false =>
    rw [run_fetch_fault _ s hpc] at hfetch
    rw [← Nat.add_sub_cancel' (four_le_stepsOf o), microRun_add, hfetch, runInstr_fetch_fault _ _ s hpc,
      microRun_of_stopped _ (State.Of.raise_stopped _ _ _)]
  | true =>
    rw [run_fetch _ s hpc, ← startOf] at hfetch
    have hdecode := microStep_startOf_decode s.wordAtPc s
    cases hu : opcodeDispatch o with
    | none =>
      rw [hw, hu, Option.elim_none] at hdecode
      rw [stepsOf_eq_of_halting hu, microRun_add, hfetch, runInstr_halts _ _ s hpc (hw.trans hu)]
      exact hdecode
    | some u =>
      rw [hw, hu, Option.elim_some] at hdecode
      rw [runInstr_dispatched _ u _ s hpc (hw.trans hu), State.Of.programAtPc_of_opcodeOf ho,
        ← microRun_startOf hu s.wordAtPc s rfl rfl, ← hdecode, stepsOf_eq_of_registered hu, microRun_add, hfetch,
        microRun_add]
      rfl

/-- The Word at PC is the opcode word of the instruction that stands there (R120). -/
theorem opcodeOf_wordAtPc {i : Instr} {s : State} (h : s.holdsInstr i) : opcodeOf s.wordAtPc = some i.opcode := by
  have hwords := codeWords_of_holdsWords h (length_encode_le i)
  have hhead : s.codeWords.head? = some i.opcode.word := by
    rw [hwords, encode_eq_encodeWords, head?_encodeWords]
  have hword : s.wordAtPc = i.opcode.word := Option.some.inj hhead
  rw [hword]
  exact opcodeOf_word (by decide) i.opcode

/-- Settles O9: the step at a boundary is both the instruction there and its microprogram in the ROM. The count does not
need the instruction to complete: a stopped machine takes no further step. -/
theorem completedInstructionStepCount : Obligations.CompletedInstructionStepCount := by
  intro i s t hs hi h _
  have hexec : exec i s = .next (runInstr s.wordAtPc s.programAtPc s) := by
    rw [← stepRunsDecodedInstruction i s hs hi, step_eq_stepRow, stepRow_eq_runInstr hs]
  obtain rfl := Host.Outcome.next.inj (hexec.symm.trans h)
  exact microRun_stepsOf hs (opcodeOf_wordAtPc hi)

end Sys2Proof.Machine
